-- ==== Sys2Proof/Word.lean ====
section
/-! DEFINITION. The words of the block: a byte of a frame or a buffer, a 16-bit endpoint control register,
a 32-bit command word (rules R11, R23, R90). Every value is unsigned (R11). -/
namespace Sys2Proof

/-- One byte of a frame, a buffer or a command-word operand (rules R62, R91). -/
abbrev Byte := BitVec 8

/-- The content of an endpoint control register, `EPR_W` = 16 bits (rule R23). -/
abbrev Reg := BitVec 16

/-- A command word `CW` (rule R90). -/
abbrev CommandWord := BitVec 32

/-- A 2-bit endpoint status code (rule R25). -/
abbrev StatusCode := BitVec 2

end Sys2Proof
end

