-- ==== Sys2Proof/Config.lean ====
section
/-! DEFINITION. The implementation parameters of rule R9 as one record, the constraints of rules R9 and R10 as one
check, the reference set REF, and the one free value of the model (log 1, log 2, log 11). -/
namespace Sys2Proof

/-- What writing 1 to a data-toggle bit does, parameter `DTOG_W1` (rule R27). -/
inductive DtogW1 where
  | toggle
  | set
deriving DecidableEq, Repr

/-- Whether an acknowledgement frame leaves a log event, parameter `LOG_ACKS` (rule R215). -/
inductive LogAcks where
  | always
  | never
  | free
deriving DecidableEq, Repr

/-- Three colour bytes of a Bluetooth record (rule R102). -/
structure Color where
  red : Byte
  green : Byte
  blue : Byte
deriving DecidableEq, Repr

/-- One 5-byte record of the Bluetooth payload (rule R102). -/
structure BtRecord where
  keyIndex : Byte
  color : Color
  ledMode : Byte
deriving DecidableEq, Repr

/-- The parameter record of rule R9. `EPR_W` is fixed at 16; `M_KEEP`, `MAXPAY` and `PAYCAP` are derived below. -/
structure Config where
  /-- `N_EP` -/
  nEp : Nat
  /-- `M_STAT_TX` -/
  mStatTx : Reg
  /-- `STAT_TX_LO` -/
  statTxLo : Nat
  /-- `M_STAT_RX` -/
  mStatRx : Reg
  /-- `STAT_RX_LO` -/
  statRxLo : Nat
  /-- `M_DTOG_TX` -/
  mDtogTx : Reg
  /-- `M_DTOG_RX` -/
  mDtogRx : Reg
  /-- `M_CTR_TX` -/
  mCtrTx : Reg
  /-- `M_CTR_RX` -/
  mCtrRx : Reg
  /-- `M_RW` -/
  mRw : Reg
  /-- `M_RO` -/
  mRo : Reg
  /-- `S_DISABLED` -/
  sDisabled : StatusCode
  /-- `S_STALL` -/
  sStall : StatusCode
  /-- `S_NAK` -/
  sNak : StatusCode
  /-- `S_VALID` -/
  sValid : StatusCode
  /-- `DTOG_W1` -/
  dtogW1 : DtogW1
  /-- `USBHW_MUTATES_STAT` -/
  usbHwMutatesStat : Bool
  /-- `TXCAP` -/
  txCap : Nat
  /-- `RXCAP` -/
  rxCap : Nat
  /-- `N_RXBUF` -/
  nRxBuf : Nat
  /-- `MT_LED` -/
  mtLed : Byte
  opThemeMode : Byte
  opConfigCmd : Byte
  opMusic : Byte
  opKey : Byte
  opSetIndividualKeys : Byte
  opGetThemeId : Byte
  opAckThemeMode : Byte
  opAckConfigCmd : Byte
  opAckMusic : Byte
  opAckKey : Byte
  opAckSetIndividualKeys : Byte
  opAckGetThemeId : Byte
  /-- `N_KEYS` -/
  nKeys : Nat
  /-- `PACK_LSB_FIRST` -/
  packLsbFirst : Bool
  btUnknown : Byte
  btBle : Byte
  btLegacy : Byte
  /-- `BT_PATTERN` -/
  btPattern : List BtRecord
  /-- `BT_STATUS_REC` -/
  btStatusRec : Nat
  /-- `COLOR_BLUE` -/
  colorBlue : Color
  /-- `PRIO_RX`: a greater number is a higher priority -/
  prioRx : Nat
  /-- `PRIO_TX` -/
  prioTx : Nat
  /-- `LOG_ACKS` -/
  logAcks : LogAcks
  /-- `PARSE_BOUNDS_CHECK` -/
  parseBoundsCheck : Bool
  /-- `LINK_LIVE`: read by `Safety.lean` only, since it is a condition on a whole run (rule R179) -/
  linkLive : Bool
deriving DecidableEq, Repr

/-- `MAXPAY = min(TXCAP - 3, 254)` (rule R162). -/
def Config.maxPay (c : Config) : Nat := min (c.txCap - 3) 254

/-- `PAYCAP = MAXPAY` (rule R9). -/
def Config.payCap (c : Config) : Nat := c.maxPay

/-- `M_KEEP = M_RW OR M_RO` (rules R9, R29). -/
def Config.mKeep (c : Config) : Reg := c.mRw ||| c.mRo

/-- `ceil(N_KEYS / 8)`, the size of the key payload (rule R103). -/
def Config.keyBytes (c : Config) : Nat := (c.nKeys + 7) / 8

/-- The bit position of key index `i` inside its byte (rules R103, R244). -/
def Config.keyPos (c : Config) (i : Nat) : Nat := if c.packLsbFirst then i % 8 else 7 - i % 8

/-- The eight masks that partition the register (rule R10). -/
def Config.masks (c : Config) : List Reg :=
  [c.mStatTx, c.mStatRx, c.mDtogTx, c.mDtogRx, c.mCtrTx, c.mCtrRx, c.mRw, c.mRo]

/-- The six request opcodes (rule R9). -/
def Config.requestOps (c : Config) : List Byte :=
  [c.opThemeMode, c.opConfigCmd, c.opMusic, c.opKey, c.opSetIndividualKeys, c.opGetThemeId]

/-- The six acknowledgement opcodes (rule R9). -/
def Config.ackOps (c : Config) : List Byte :=
  [c.opAckThemeMode, c.opAckConfigCmd, c.opAckMusic, c.opAckKey, c.opAckSetIndividualKeys, c.opAckGetThemeId]

/-- Exactly one bit of a mask is set. -/
def isOneBit (m : Reg) : Bool := (List.range 16).any fun p => m == (1 : Reg) <<< p

/-- The mask constraints of rules R9 and R10. `STAT_TX_LO` and `STAT_RX_LO` are at most 14 because the field is two
adjacent bits of the 16 (log 34). -/
def Config.masksOk (c : Config) : Bool :=
  decide (c.statTxLo ≤ 14) && decide (c.statRxLo ≤ 14)
    && c.mStatTx == (3 : Reg) <<< c.statTxLo && c.mStatRx == (3 : Reg) <<< c.statRxLo
    && isOneBit c.mDtogTx && isOneBit c.mDtogRx && isOneBit c.mCtrTx && isOneBit c.mCtrRx
    && decide (c.masks.Pairwise fun x y => x &&& y = 0)
    && c.masks.foldl (· ||| ·) 0 == BitVec.allOnes 16

/-- The constraints of rule R9 on the status codes and the bytes of the link protocol. -/
def Config.codesOk (c : Config) : Bool :=
  decide [c.sDisabled, c.sStall, c.sNak, c.sValid].Nodup
    && decide (c.requestOps ++ c.ackOps).Nodup
    && decide [c.btUnknown, c.btBle, c.btLegacy].Nodup
    && c.btPattern.length == 10 && decide (c.btStatusRec ≤ 9)

/-- The constraints of rule R9 on the counts and capacities. -/
def Config.sizesOk (c : Config) : Bool :=
  decide (1 ≤ c.nEp) && decide (c.nEp ≤ 256)
    && decide (3 ≤ c.txCap) && decide (c.txCap ≤ 257)
    && decide (3 ≤ c.rxCap) && decide (1 ≤ c.nRxBuf)
    && decide (1 ≤ c.nKeys) && decide (c.nKeys ≤ 8 * c.maxPay)

/-- "a parameter record that breaks a constraint is refused" (rule R9): the check that `step` makes. -/
def Config.valid (c : Config) : Bool := c.masksOk && c.codesOk && c.sizesOk

/-- The reference parameter set REF of rule R9 (PRESUMED where the spec marks general knowledge, DESIGN CHOICE where it
leaves a parameter open: log 2). Only `State.reset` and tests use it; no rule and no meaning reads a number from it. -/
def Config.ref : Config where
  nEp := 8
  mStatTx := 0x0030
  statTxLo := 4
  mStatRx := 0x3000
  statRxLo := 12
  mDtogTx := 0x0040
  mDtogRx := 0x4000
  mCtrTx := 0x0080
  mCtrRx := 0x8000
  mRw := 0x070F
  mRo := 0x0800
  sDisabled := 0
  sStall := 1
  sNak := 2
  sValid := 3
  dtogW1 := .toggle
  usbHwMutatesStat := true
  txCap := 64
  rxCap := 64
  nRxBuf := 1
  mtLed := 9
  opThemeMode := 1
  opConfigCmd := 5
  opMusic := 6
  opKey := 7
  opSetIndividualKeys := 11
  opGetThemeId := 12
  opAckThemeMode := 129
  opAckConfigCmd := 133
  opAckMusic := 134
  opAckKey := 135
  opAckSetIndividualKeys := 139
  opAckGetThemeId := 140
  nKeys := 70
  packLsbFirst := true
  btUnknown := 0
  btBle := 1
  btLegacy := 2
  btPattern :=
    [⟨0, ⟨0, 0, 0⟩, 0⟩, ⟨1, ⟨0, 0, 0⟩, 0⟩, ⟨2, ⟨0, 0, 0⟩, 0⟩, ⟨3, ⟨0, 0, 0⟩, 0⟩, ⟨4, ⟨0, 0, 0⟩, 0⟩,
     ⟨5, ⟨0, 0, 0⟩, 0⟩, ⟨6, ⟨0, 0, 0⟩, 0⟩, ⟨7, ⟨0, 0, 0⟩, 0⟩, ⟨8, ⟨0, 0, 0⟩, 0⟩, ⟨9, ⟨0, 0, 0⟩, 0⟩]
  btStatusRec := 0
  colorBlue := ⟨0x00, 0x00, 0xff⟩
  prioRx := 1
  prioTx := 1
  logAcks := .free
  parseBoundsCheck := true
  linkLive := false

/-- FREE VALUE (log 11): whether the `n`-th acknowledgement met while `LOG_ACKS` is free leaves a log event (rule R215: "left
free per frame"). It has no body: no proof can evaluate it. -/
opaque Config.freeLogAck : Nat → Bool

end Sys2Proof
end

