-- ==== Sys2Proof/Syntax.lean ====
section
/-! DEFINITION. The instructions: one constructor per row of spec/opcode_table.json, the 23 operations of rule R96 and
the 14 wire-frame rows of rule R99. -/
namespace Sys2Proof

/-- The direction of an endpoint-status operation (rule R131) and of a register field (rule R24). -/
inductive Dir where
  | tx
  | rx
deriving DecidableEq, Repr

/-- The data-toggle operand `d` of SETTX and SETRX (rule R92): `keep` is the spec's `None`, `set` its `Set`. -/
inductive DtogOp where
  | keep
  | set
deriving DecidableEq, Repr

/-- The instructions. Operands are the fields of the command word (rule R96) or of the wire frame (rule R99). -/
inductive Instr where
  /-- SETTX e, target, d (R134) -/
  | settx (e : Byte) (target : StatusCode) (d : DtogOp)
  /-- SETRX e, target, d (R136) -/
  | setrx (e : Byte) (target : StatusCode) (d : DtogOp)
  /-- CLRTX e (R140) -/
  | clrtx (e : Byte)
  /-- CLRRX e (R142) -/
  | clrrx (e : Byte)
  /-- SEND msg_type, operation ; PAY[0..n] (R160) -/
  | send (t o n : Byte)
  /-- RECEIVE k, len (R165) -/
  | receive (k len : Byte)
  /-- POLL (R167) -/
  | poll
  /-- FINISH (R168) -/
  | finish
  /-- TXADV (R170) -/
  | txadv
  /-- PARSE k (R210) -/
  | parse (k : Byte)
  /-- DISPATCH msg_type, operation (R216) -/
  | dispatch (t o : Byte)
  /-- TOGGLE (R231) -/
  | toggle
  /-- THEMEMODE (R233) -/
  | thememode
  /-- NEXTTHEME (R236) -/
  | nexttheme
  /-- NEXTBRIGHT (R237) -/
  | nextbright
  /-- NEXTSPEED (R238) -/
  | nextspeed
  /-- SETTHEME id (R234) -/
  | settheme (id : Byte)
  /-- SENDKEYS (R243) -/
  | sendkeys
  /-- SENDMUSIC ; PAY[0..n] (R246) -/
  | sendmusic (n : Byte)
  /-- GETTHEMEID (R247) -/
  | getthemeid
  /-- SETKEYS ; PAY[0..n] (R248) -/
  | setkeys (n : Byte)
  /-- BTMODE mode (R250) -/
  | btmode (mode : Byte)
  /-- LEDCPOLL k, len (R260) -/
  | ledcpoll (k len : Byte)
  /-- wire frame out: [MT_LED, 1, OP_THEMEMODE] (R233) -/
  | frameThemeModeReassert
  /-- wire frame out: [MT_LED, 2, OP_THEMEMODE, id] (R234) -/
  | frameThemeModeSet (id : Byte)
  /-- wire frame out: [MT_LED, 4, OP_CONFIGCMD, 1, 0, 0] (R236) -/
  | frameConfigCmdTheme
  /-- wire frame out: [MT_LED, 4, OP_CONFIGCMD, 0, 0, 1] (R237) -/
  | frameConfigCmdBrightness
  /-- wire frame out: [MT_LED, 4, OP_CONFIGCMD, 0, 1, 0] (R238) -/
  | frameConfigCmdSpeed
  /-- wire frame out: [MT_LED, 1 + ceil(N_KEYS/8), OP_KEY, packed...] (R243) -/
  | frameKey (packed : List Byte)
  /-- wire frame out: [MT_LED, 1 + n, OP_MUSIC, payload...] (R246) -/
  | frameMusic (payload : List Byte)
  /-- wire frame out: [MT_LED, 1, OP_GETTHEMEID] (R247) -/
  | frameGetThemeId
  /-- wire frame out: [MT_LED, 1 + n, OP_SETINDIVIDUALKEYS, payload...] (R248) -/
  | frameSetIndividualKeys (payload : List Byte)
  /-- wire frame out: [MT_LED, 0x35, OP_SETINDIVIDUALKEYS, 0xCA, 0x0A, rec0, ..., rec9] (R251) -/
  | frameSetIndividualKeysBluetooth (recs : List BtRecord)
  /-- wire frame in: [MT_LED, length, OP_ACKTHEMEMODE, data...] (R213) -/
  | frameAckThemeMode (data : List Byte)
  /-- wire frame in: [MT_LED, length, OP_ACKCONFIGCMD, data...] (R213) -/
  | frameAckConfigCmd (data : List Byte)
  /-- wire frame in: [MT_LED, length, OP_ACKSETINDIVIDUALKEYS, data...] (R213) -/
  | frameAckSetIndividualKeys (data : List Byte)
  /-- wire frame in: any other (msg_type, operation) pair (R214) -/
  | frameOther (t o : Byte) (data : List Byte)
deriving DecidableEq, Repr

/-- How an instruction reaches the block: a command word on the command port (rule R90), a wire frame on its way out,
or a wire frame that came in (rule R99, column direction; log 18). -/
inductive Encoded where
  | command (cw : CommandWord)
  | wireOut (bytes : List Byte)
  | wireIn (bytes : List Byte)
deriving DecidableEq, Repr

end Sys2Proof
end

