-- ==== Sys2Proof/WellFormed.lean ====
section
/-! DEFINITION. Which instruction terms stand for an encoding. The operands of the 23 operations are typed by their fields, so
every such term is well formed; a wire frame's payload must fit its length byte (rule R95) and its row of rule R99. -/
namespace Sys2Proof

/-- "`len(payload) <= 254`" (rule R95): the payload and the opcode byte are counted by one byte. -/
def payloadFits (p : List Byte) : Bool := decide (p.length ≤ 254)

/-- The unused bits of the last byte of a key payload are 0 (rule R103). -/
def keyPaddingClear (c : Config) (packed : List Byte) : Bool :=
  (List.range 8).all fun b =>
    let i := 8 * (c.keyBytes - 1) + b
    decide (i < c.nKeys) || !((packed.getD (c.keyBytes - 1) 0).getLsbD (c.keyPos i))

/-- A key payload of rule R103: `ceil(N_KEYS / 8)` bytes, unused bits 0. -/
def keyPayloadOk (c : Config) (packed : List Byte) : Bool :=
  decide (packed.length = c.keyBytes) && payloadFits packed && keyPaddingClear c packed

/-- A payload with the size and the two first bytes of the Bluetooth-status payload (rule R102): such a
SetIndividualKeys frame is the row `FRAME.SetIndividualKeys.bluetooth` (log 19). -/
def btShaped (p : List Byte) : Bool :=
  decide (p.length = 52) && p.getD 0 0 == 0xCA && p.getD 1 0 == 0x0A

/-- The pairs of rule R213: the acknowledgement class. -/
def isAckPair (c : Config) (t o : Byte) : Bool :=
  t == c.mtLed && (o == c.opAckThemeMode || o == c.opAckConfigCmd || o == c.opAckSetIndividualKeys)

/-- A well-formed instruction, for the parameters `c`. -/
def Instr.wf (c : Config) : Instr → Bool
  | .frameKey packed => keyPayloadOk c packed
  | .frameMusic payload => payloadFits payload
  | .frameSetIndividualKeys payload => payloadFits payload && !btShaped payload
  | .frameSetIndividualKeysBluetooth recs => decide (recs.length = 10)
  | .frameAckThemeMode data => payloadFits data
  | .frameAckConfigCmd data => payloadFits data
  | .frameAckSetIndividualKeys data => payloadFits data
  | .frameOther t o data => payloadFits data && !isAckPair c t o
  | .settx _ _ _ => true
  | .setrx _ _ _ => true
  | .clrtx _ => true
  | .clrrx _ => true
  | .send _ _ _ => true
  | .receive _ _ => true
  | .poll => true
  | .finish => true
  | .txadv => true
  | .parse _ => true
  | .dispatch _ _ => true
  | .toggle => true
  | .thememode => true
  | .nexttheme => true
  | .nextbright => true
  | .nextspeed => true
  | .settheme _ => true
  | .sendkeys => true
  | .sendmusic _ => true
  | .getthemeid => true
  | .setkeys _ => true
  | .btmode _ => true
  | .ledcpoll _ _ => true
  | .frameThemeModeReassert => true
  | .frameThemeModeSet _ => true
  | .frameConfigCmdTheme => true
  | .frameConfigCmdBrightness => true
  | .frameConfigCmdSpeed => true
  | .frameGetThemeId => true

end Sys2Proof
end

