-- ==== Sys2Proof/Decode.lean ====
section
/-! DEFINITION. Decoding, total and rejecting by name, and the encoder: the command word of rules R91, R92, R96, R110 and the
wire frame of rules R93 to R95, R99, R200. -/
namespace Sys2Proof

/-- Why an encoding stands for no instruction. -/
inductive Reject where
  /-- `opc` is none of the 23 codes (rule R110) -/
  | unknownOpc (opc : Byte)
  /-- a reserved bit of field `a`, `b` or `c` is 1 (rule R110) -/
  | reservedA
  | reservedB
  | reservedC
  /-- a wire frame of fewer than three bytes (rule R93) -/
  | shortFrame
  /-- the length byte is not `1 + len(payload)` (rule R93) -/
  | frameLength
  /-- an outgoing frame on no row of rule R99 -/
  | noOutRow
deriving DecidableEq, Repr

/-- One row of the operation table of rule R96: a word `w` selects it when `w AND mask = pattern`. -/
structure CommandRow where
  mnemonic : String
  pattern : CommandWord
  mask : CommandWord
deriving DecidableEq, Repr

/-- The operation table of rule R96. -/
def commandRows : List CommandRow :=
  [⟨"SETTX", 0x01000000, 0xFF00FCFE⟩, ⟨"SETRX", 0x02000000, 0xFF00FCFE⟩, ⟨"CLRTX", 0x03000000, 0xFF00FFFF⟩,
   ⟨"CLRRX", 0x04000000, 0xFF00FFFF⟩, ⟨"SEND", 0x10000000, 0xFF000000⟩, ⟨"RECEIVE", 0x11000000, 0xFF00FF00⟩,
   ⟨"POLL", 0x12000000, 0xFFFFFFFF⟩, ⟨"FINISH", 0x13000000, 0xFFFFFFFF⟩, ⟨"TXADV", 0x14000000, 0xFFFFFFFF⟩,
   ⟨"PARSE", 0x18000000, 0xFF00FFFF⟩, ⟨"DISPATCH", 0x19000000, 0xFF0000FF⟩] ++
  [⟨"TOGGLE", 0x20000000, 0xFFFFFFFF⟩, ⟨"THEMEMODE", 0x21000000, 0xFFFFFFFF⟩, ⟨"NEXTTHEME", 0x22000000, 0xFFFFFFFF⟩,
   ⟨"NEXTBRIGHT", 0x23000000, 0xFFFFFFFF⟩, ⟨"NEXTSPEED", 0x24000000, 0xFFFFFFFF⟩, ⟨"SETTHEME", 0x25000000, 0xFF00FFFF⟩,
   ⟨"SENDKEYS", 0x26000000, 0xFFFFFFFF⟩, ⟨"SENDMUSIC", 0x27000000, 0xFFFFFF00⟩, ⟨"GETTHEMEID", 0x28000000, 0xFFFFFFFF⟩,
   ⟨"SETKEYS", 0x29000000, 0xFFFFFF00⟩, ⟨"BTMODE", 0x2A000000, 0xFF00FFFF⟩, ⟨"LEDCPOLL", 0x2B000000, 0xFF00FF00⟩]

/-! ## Decoding a command word -/

/-- Field `opc`, bits 31:24 (rule R91). -/
def opcOf (cw : CommandWord) : Byte := cw.extractLsb' 24 8
/-- Field `a`, bits 23:16 (rule R91). -/
def aOf (cw : CommandWord) : Byte := cw.extractLsb' 16 8
/-- Field `b`, bits 15:8 (rule R91). -/
def bOf (cw : CommandWord) : Byte := cw.extractLsb' 8 8
/-- Field `c`, bits 7:0 (rule R91). -/
def cOf (cw : CommandWord) : Byte := cw.extractLsb' 0 8

/-- The answer `i` when the fields reserved in its row are 0 (rule R110). -/
def whenZero (ra rb rc : Byte) (i : Instr) : Except Reject Instr :=
  if ra ≠ 0 then .error .reservedA
  else if rb ≠ 0 then .error .reservedB
  else if rc ≠ 0 then .error .reservedC
  else .ok i

/-- The data-toggle operand `d` = `c[0]` (rule R92). -/
def dtogOf (c : Byte) : DtogOp := if c.getLsbD 0 then .set else .keep

/-- Decoding of a command word (rules R91, R92, R96, R110). `b[7:2]` and `c[7:1]` of SETTX and SETRX are reserved. -/
def decodeCommand (cw : CommandWord) : Except Reject Instr :=
  let a := aOf cw
  let b := bOf cw
  let c := cOf cw
  match (opcOf cw).toNat with
  | 0x01 => whenZero 0 (b &&& 0xFC) (c &&& 0xFE) (.settx a (b.extractLsb' 0 2) (dtogOf c))
  | 0x02 => whenZero 0 (b &&& 0xFC) (c &&& 0xFE) (.setrx a (b.extractLsb' 0 2) (dtogOf c))
  | 0x03 => whenZero 0 b c (.clrtx a)
  | 0x04 => whenZero 0 b c (.clrrx a)
  | 0x10 => whenZero 0 0 0 (.send a b c)
  | 0x11 => whenZero 0 b 0 (.receive a c)
  | 0x12 => whenZero a b c .poll
  | 0x13 => whenZero a b c .finish
  | 0x14 => whenZero a b c .txadv
  | 0x18 => whenZero 0 b c (.parse a)
  | 0x19 => whenZero 0 0 c (.dispatch a b)
  | 0x20 => whenZero a b c .toggle
  | 0x21 => whenZero a b c .thememode
  | 0x22 => whenZero a b c .nexttheme
  | 0x23 => whenZero a b c .nextbright
  | 0x24 => whenZero a b c .nextspeed
  | 0x25 => whenZero 0 b c (.settheme a)
  | 0x26 => whenZero a b c .sendkeys
  | 0x27 => whenZero a b 0 (.sendmusic c)
  | 0x28 => whenZero a b c .getthemeid
  | 0x29 => whenZero a b 0 (.setkeys c)
  | 0x2A => whenZero 0 b c (.btmode a)
  | 0x2B => whenZero 0 b 0 (.ledcpoll a c)
  | _ => .error (.unknownOpc (opcOf cw))

/-! ## The wire frame -/

/-- ENCODE of rule R200: `[t, 1 + len(p), o] ++ p`. -/
def encodeFrame (t o : Byte) (p : List Byte) : List Byte := t :: BitVec.ofNat 8 (1 + p.length) :: o :: p

/-- The five bytes of a Bluetooth record, in the order of rule R102. -/
def recordBytes (r : BtRecord) : List Byte := [r.keyIndex, r.color.red, r.color.green, r.color.blue, r.ledMode]

/-- The Bluetooth-status payload of rule R102: magic byte, count byte, the records. -/
def btBytes (recs : List BtRecord) : List Byte := 0xCA :: 0x0A :: recs.flatMap recordBytes

/-- The inverse of `recs.flatMap recordBytes`; bytes after the last whole record are not read. -/
def recordsOf : List Byte → List BtRecord
  | k :: r :: g :: b :: m :: rest => ⟨k, ⟨r, g, b⟩, m⟩ :: recordsOf rest
  | _ => []

/-- The header and the payload of a whole frame (rule R93): the length byte counts the opcode byte and the payload. -/
def splitFrame : List Byte → Except Reject (Byte × Byte × List Byte)
  | t :: l :: o :: p => if l.toNat = 1 + p.length then .ok (t, o, p) else .error .frameLength
  | _ => .error .shortFrame

/-- A ConfigCmd frame: the payload is one of the three one-hot vectors of rule R101. -/
def decodeConfigCmd (p : List Byte) : Except Reject Instr :=
  if p = [1, 0, 0] then .ok .frameConfigCmdTheme
  else if p = [0, 0, 1] then .ok .frameConfigCmdBrightness
  else if p = [0, 1, 0] then .ok .frameConfigCmdSpeed
  else .error .noOutRow

/-- A ThemeMode frame: an empty payload or one byte (rules R233, R234). -/
def decodeThemeMode : List Byte → Except Reject Instr
  | [] => .ok .frameThemeModeReassert
  | [id] => .ok (.frameThemeModeSet id)
  | _ => .error .noOutRow

/-- The rows of rule R99 with direction out. -/
def decodeOut (c : Config) (t o : Byte) (p : List Byte) : Except Reject Instr :=
  if t ≠ c.mtLed then .error .noOutRow
  else if o = c.opThemeMode then decodeThemeMode p
  else if o = c.opConfigCmd then decodeConfigCmd p
  else if o = c.opKey then if keyPayloadOk c p then .ok (.frameKey p) else .error .noOutRow
  else if o = c.opMusic then .ok (.frameMusic p)
  else if o = c.opGetThemeId then if p = [] then .ok .frameGetThemeId else .error .noOutRow
  else if o = c.opSetIndividualKeys then
    if btShaped p then .ok (.frameSetIndividualKeysBluetooth (recordsOf (p.drop 2))) else .ok (.frameSetIndividualKeys p)
  else .error .noOutRow

/-- The rows of rule R99 with direction in: "first on channel, then on opcode" (rule R98); every pair has a row (rule R111). -/
def decodeIn (c : Config) (t o : Byte) (data : List Byte) : Instr :=
  if t ≠ c.mtLed then .frameOther t o data
  else if o = c.opAckThemeMode then .frameAckThemeMode data
  else if o = c.opAckConfigCmd then .frameAckConfigCmd data
  else if o = c.opAckSetIndividualKeys then .frameAckSetIndividualKeys data
  else .frameOther t o data

/-- Decoding, total on every word and every byte list. -/
def decode (c : Config) : Encoded → Except Reject Instr
  | .command cw => decodeCommand cw
  | .wireOut bytes =>
    match splitFrame bytes with
    | .ok (t, o, p) => decodeOut c t o p
    | .error r => .error r
  | .wireIn bytes =>
    match splitFrame bytes with
    | .ok (t, o, p) => .ok (decodeIn c t o p)
    | .error r => .error r

/-! ## The encoder -/

/-- The command word with the four fields of rule R91. -/
def commandWord (opc a b c : Byte) : CommandWord := opc ++ a ++ b ++ c

/-- Operand `c` of SETTX and SETRX (rule R92). -/
def dtogField : DtogOp → Byte
  | .keep => 0
  | .set => 1

/-- The encoding of a well-formed instruction (rules R92, R96, R99). -/
def encode (c : Config) : Instr → Encoded
  | .settx e target d => .command (commandWord 0x01 e (target.setWidth 8) (dtogField d))
  | .setrx e target d => .command (commandWord 0x02 e (target.setWidth 8) (dtogField d))
  | .clrtx e => .command (commandWord 0x03 e 0 0)
  | .clrrx e => .command (commandWord 0x04 e 0 0)
  | .send t o n => .command (commandWord 0x10 t o n)
  | .receive k len => .command (commandWord 0x11 k 0 len)
  | .poll => .command (commandWord 0x12 0 0 0)
  | .finish => .command (commandWord 0x13 0 0 0)
  | .txadv => .command (commandWord 0x14 0 0 0)
  | .parse k => .command (commandWord 0x18 k 0 0)
  | .dispatch t o => .command (commandWord 0x19 t o 0)
  | .toggle => .command (commandWord 0x20 0 0 0)
  | .thememode => .command (commandWord 0x21 0 0 0)
  | .nexttheme => .command (commandWord 0x22 0 0 0)
  | .nextbright => .command (commandWord 0x23 0 0 0)
  | .nextspeed => .command (commandWord 0x24 0 0 0)
  | .settheme id => .command (commandWord 0x25 id 0 0)
  | .sendkeys => .command (commandWord 0x26 0 0 0)
  | .sendmusic n => .command (commandWord 0x27 0 0 n)
  | .getthemeid => .command (commandWord 0x28 0 0 0)
  | .setkeys n => .command (commandWord 0x29 0 0 n)
  | .btmode mode => .command (commandWord 0x2A mode 0 0)
  | .ledcpoll k len => .command (commandWord 0x2B k 0 len)
  | .frameThemeModeReassert => .wireOut (encodeFrame c.mtLed c.opThemeMode [])
  | .frameThemeModeSet id => .wireOut (encodeFrame c.mtLed c.opThemeMode [id])
  | .frameConfigCmdTheme => .wireOut (encodeFrame c.mtLed c.opConfigCmd [1, 0, 0])
  | .frameConfigCmdBrightness => .wireOut (encodeFrame c.mtLed c.opConfigCmd [0, 0, 1])
  | .frameConfigCmdSpeed => .wireOut (encodeFrame c.mtLed c.opConfigCmd [0, 1, 0])
  | .frameKey packed => .wireOut (encodeFrame c.mtLed c.opKey packed)
  | .frameMusic payload => .wireOut (encodeFrame c.mtLed c.opMusic payload)
  | .frameGetThemeId => .wireOut (encodeFrame c.mtLed c.opGetThemeId [])
  | .frameSetIndividualKeys payload => .wireOut (encodeFrame c.mtLed c.opSetIndividualKeys payload)
  | .frameSetIndividualKeysBluetooth recs => .wireOut (encodeFrame c.mtLed c.opSetIndividualKeys (btBytes recs))
  | .frameAckThemeMode data => .wireIn (encodeFrame c.mtLed c.opAckThemeMode data)
  | .frameAckConfigCmd data => .wireIn (encodeFrame c.mtLed c.opAckConfigCmd data)
  | .frameAckSetIndividualKeys data => .wireIn (encodeFrame c.mtLed c.opAckSetIndividualKeys data)
  | .frameOther t o data => .wireIn (encodeFrame t o data)

/-! ## The host's question on one opcode-table row -/

/-- The `n` bytes of `w`, bit 0 the least significant bit of the first. -/
def bytesOfNat : Nat → Nat → List Byte
  | 0, _ => []
  | n + 1, w => BitVec.ofNat 8 w :: bytesOfNat n (w / 256)

/-- The encoding that `nbits` bits of the table stand for: up to 32 bits they are a command word (rule R91), any other size, and
24 bits, a wire frame whose first byte is the lowest, outgoing where a row of rule R99 with direction out reads it so,
else incoming (log 36). -/
def encodedOfTable (nbits w : Nat) : Encoded :=
  if nbits ≤ 32 ∧ nbits ≠ 24 then .command (BitVec.ofNat 32 w)
  else
    let bytes := bytesOfNat (nbits / 8) w
    match decode Config.ref (.wireOut bytes) with
    | .ok _ => .wireOut bytes
    | .error _ => .wireIn bytes

/-- The instruction this decoder reads from a table word, with the REF parameters for the bytes of a frame. -/
def decodeTableWord (nbits w : Nat) : Option Instr := (decode Config.ref (encodedOfTable nbits w)).toOption

end Sys2Proof
end

