-- ==== Sys2Proof/Machine/State.lean ====
section
/-! DEFINITION. The state of the block (rule R20), the inputs of a run held as data (rules R21, R49), the fault records of rule
R271, the reasons a step can stop, and the state after reset (rule R50). -/
namespace Sys2Proof.Machine

/-! ## The two slots -/

/-- The three states of a slot (rules R32, R35, R37). -/
inductive SlotState where
  | empty
  | inFlight
  | complete
deriving DecidableEq, Repr

/-- The transmit slot `TX` (rule R32). `len` and `pos` have meaning only while the slot is not empty. -/
structure TxSlot where
  st : SlotState
  len : Nat
  pos : Nat
deriving DecidableEq, Repr

/-- The receive slot `RX` (rule R35). `buf`, `len` and `cnt` have meaning only while the slot is not empty. -/
structure RxSlot where
  st : SlotState
  buf : Nat
  len : Nat
  cnt : Nat
deriving DecidableEq, Repr

/-- The bytes of one address space, in canonical form: addresses strictly rising, no entry equal to the byte an unlisted address
reads as (`blank`, log 13). -/
abbrev Memory := List Host.Cell

/-! ## Results, faults, log events -/

/-- A fault of rule R271 with the value that rule records. -/
inductive FaultRecord where
  | illegalCommand (cw : CommandWord)
  | badEndpoint (e : Byte)
  | sendTooLong (n : Nat)
  | badBuffer (k : Byte)
  | badLength (len : Byte)
  | receiveBusy
  | noTransfer
  | finishNotReady
  | parseLengthZero (k : Nat)
  | parseBounds (k length : Nat)
  | badMode (mode : Byte)
  | bufferNotOwned (k : Nat)
deriving DecidableEq, Repr

/-- The value a PARSE produces (rule R210). -/
structure Message where
  msgType : Byte
  operation : Byte
  data : List Byte
deriving DecidableEq, Repr

/-- The result of an operation (rule R13): `Ok`, `Ok` with a value (FINISH's buffer, PARSE's message), `WouldBlock`, or a fault. -/
inductive Result where
  | ok
  | okBuffer (k : Nat)
  | okMessage (m : Message)
  | wouldBlock
  | fault (r : FaultRecord)
deriving DecidableEq, Repr

/-- A diagnostic event (rules R42, R215). -/
inductive LogEvent where
  | ack (op : Byte)
  | drop (msgType op : Byte)
deriving DecidableEq, Repr

/-! ## The contexts -/

/-- The two handler contexts (rules R15, R281). -/
inductive Handler where
  | rxIrq
  | txIrq
deriving DecidableEq, Repr

/-- The three contexts of the one core (rules R15, R70). -/
inductive Context where
  | main
  | rxIrq
  | txIrq
deriving DecidableEq, Repr

/-- What an operation holds between two of its steps (rules R48, R72): an EPSC operation the register value `r` it read (rule
R133), a LEDCPOLL the steps it still has to take (rule R260; `j` is the buffer FINISH returned). -/
inductive Pending where
  | statusWrite (dir : Dir) (e : Byte) (target : StatusCode) (d : DtogOp) (r : Reg)
  | clearWrite (dir : Dir) (e : Byte) (r : Reg)
  | pollFinish (k len : Byte)
  | pollParse (j : Nat) (k len : Byte)
  | pollRearm (k len : Byte)
deriving DecidableEq, Repr

/-- A handler on the stack of active contexts (rule R281); `op` is `none` until it has presented its operation. -/
structure Active where
  handler : Handler
  op : Option Pending
deriving DecidableEq, Repr

/-- The last result the command port gave each context (rule R90), `none` while an operation of that context is between two
steps and before its first one (the model's own field: log 8). -/
structure Answers where
  main : Option Result
  rxIrq : Option Result
  txIrq : Option Result
deriving DecidableEq, Repr

/-! ## The inputs of a run (rules R21, R49) -/

/-- One step of agent `UsbHw` on a register (rule R150): case 1, a flag set; case 2, a status field or a data-toggle bit replaced, or
one read-only bit changed. -/
inductive UsbAction where
  | setFlag (dir : Dir)
  | setStatus (dir : Dir) (v : StatusCode)
  | setDtog (dir : Dir) (v : Bool)
  | flipReadOnly (bit : Nat)
deriving DecidableEq, Repr

/-- A buffer that a context might touch without an operation (rule R75). -/
inductive BufferName where
  | txb
  | rxb (k : Nat)
deriving DecidableEq, Repr

/-- What rule R50 leaves unspecified at a reset, given as an input of the run. -/
structure PowerUp where
  epr : List Reg
  txb : List Byte
  rxb : List (List Byte)
  pay : List Byte
  ks : List Bool
  ind : Bool
deriving DecidableEq, Repr

/-- What taking an interrupt has its handler present (rule R282): `RxIrq` a LEDCPOLL, with the buffer and the length that the
external collaborator chooses, `TxIrq` a TXADV. -/
inductive Entry where
  | rxIrq (k len : Byte)
  | txIrq
deriving DecidableEq, Repr

/-- One input: which agent or context steps next and with what (rules R70, R281). -/
inductive Input where
  /-- the top context presents an encoded instruction; its first step is taken (rules R72, R90) -/
  | present (enc : Encoded)
  /-- the top context takes the next step of its operation (rule R72) -/
  | resume
  /-- an interrupt is taken: the handler's context is pushed and presents its operation (rules R281, R282) -/
  | take (e : Entry)
  /-- an interrupt is taken by a platform whose wiring is not that of rule R282: the handler's context is pushed and presents
  later, by `present`, any operation (rules R290, R332; log 21) -/
  | takeUnwired (h : Handler)
  /-- the top context, before it presents, writes a byte of `PAY` (rule R38) -/
  | stagePay (off : Nat) (b : Byte)
  /-- the top context, before it presents, writes a bit of `KS` (rule R38) -/
  | stageKey (i : Nat) (pressed : Bool)
  /-- agent `DmaTx` steps (rule R175) -/
  | dmaTx
  /-- agent `DmaRx` steps (rules R176, R177) -/
  | dmaRx
  /-- agent `Peer` sends a byte (rule R178) -/
  | peer (b : Byte)
  /-- agent `UsbHw` steps (rule R150) -/
  | usbHw (e : Nat) (act : UsbAction)
  /-- a context touches a buffer by other means than an operation (rule R75) -/
  | directAccess (buf : BufferName)
  /-- the reset event (rule R310) -/
  | reset (p : PowerUp)
deriving DecidableEq, Repr

/-! ## The state -/

/-- The state of the block (rule R20) with the parameter record it runs under, the stack of active contexts, the results
given and the inputs still to come. -/
structure State where
  /-- the parameter record of rule R9 (log 1) -/
  cfg : Config
  /-- `EPR[0 .. N_EP-1]` (R23) -/
  epr : List Reg
  /-- `TX` (R32) -/
  tx : TxSlot
  /-- `TXB` (R33) -/
  txb : Memory
  /-- `RX` (R35) -/
  rx : RxSlot
  /-- `RXB[0 .. N_RXBUF-1]` (R36) -/
  rxb : List Memory
  /-- `PAY` (R38) -/
  pay : Memory
  /-- `KS` (R38) -/
  ks : List Bool
  /-- `RXLINE`, oldest first (R39) -/
  rxLine : List Byte
  /-- `TXLINE`, oldest first (R40) -/
  txLine : List Byte
  /-- `LOST` (R41) -/
  lost : Nat
  /-- `LOG`, oldest first (R42) -/
  log : List LogEvent
  /-- `LEDC.state`: false is Idle-Off, true Idle-Theme (R43) -/
  ledState : Bool
  /-- `IND` (R45): no rule writes it -/
  ind : Bool
  /-- `FAULT` (R46, R271): no repeats, oldest first -/
  faults : List FaultRecord
  /-- what `Main`'s operation holds between two steps; `none` when `Main` is between operations (R281, R48) -/
  mainOp : Option Pending
  /-- the handlers on the stack of active contexts, top first; `Main` lies under them (R281) -/
  handlers : List Active
  /-- the results given (R90; log 8) -/
  answers : Answers
  /-- the inputs to come, next first (R21, R49; log 3) -/
  inputs : List Input
  /-- how many free values have been used (log 11) -/
  freeTick : Nat
deriving DecidableEq, Repr

/-- The agents and contexts whose scheduled step may be refused. -/
inductive Agent where
  | context
  | interrupt
  | staging
  | dmaTx
  | dmaRx
  | usbHw
deriving DecidableEq, Repr

/-- Why the machine stops with a fault. The faults of rule R271 are not here: raising one is a next state (log 6). -/
inductive Fault where
  /-- Raised by the accessors of the address spaces (rules R60, R61) for an address outside the space: by a staging write past `PAY`
  or `KS`, and otherwise only in states that break the invariant. Safe: the machine stops. -/
  | outsideSpace
deriving DecidableEq, Repr

/-- Why a step has no meaning. -/
inductive Refusal where
  /-- Raised by `exec` for an instruction without a meaning; no arm does. Safe. -/
  | notModelled (mnemonic : String)
  /-- Raised by `step` when the parameter record breaks a constraint of rule R9. Safe. -/
  | badParameters
  /-- Raised by a scheduled step whose agent or context cannot take it (rules R70, R281): no such step exists. Safe. -/
  | notEnabled (who : Agent)
  /-- Raised by PARSE, alone or in LEDCPOLL, when `PARSE_BOUNDS_CHECK` is false and the length byte points past the buffer (U3). Safe. -/
  | parsePastBuffer
  /-- Raised by a direct access to a buffer a DMA agent owns (rule R75, U5). Safe. -/
  | unownedAccess
  /-- Raised by a direct access to a buffer the core owns: rule R60 gives a context no such access. Safe. -/
  | noDirectAccess
  /-- Raised when a byte list given as a wire frame is no frame of its direction (log 18). Safe. -/
  | notAFrame (why : Reject)
deriving DecidableEq, Repr

/-- The state after reset (rule R50): every value the table gives, REF parameters (log 2), and for the unspecified ones the
values named in log 12 to 16. -/
def State.reset : State where
  cfg := Config.ref
  epr := List.replicate 8 0
  tx := ⟨.empty, 0, 0⟩
  txb := []
  rx := ⟨.empty, 0, 0, 0⟩
  rxb := [[]]
  pay := []
  ks := List.replicate 70 false
  rxLine := []
  txLine := []
  lost := 0
  log := []
  ledState := false
  ind := false
  faults := []
  mainOp := none
  handlers := []
  answers := ⟨none, none, none⟩
  inputs := []
  freeTick := 0

end Sys2Proof.Machine
end

