-- ==== Sys2Proof/Machine/Flags.lean ====
section
/-! DEFINITION. The endpoint control register: how the hardware takes a write (rule R28), the write values of the Endpoint
Status Controller (rules R130, R131, R139), the fields of a register (rules R24 to R27), and the two interrupt lines (rule R47). -/
namespace Sys2Proof.Machine

/-- `HwWrite(old, w)` of rule R28, field by field. -/
def hwWrite (c : Config) (old w : Reg) : Reg :=
  let t := c.mStatTx ||| c.mStatRx
  let d := c.mDtogTx ||| c.mDtogRx
  let f := c.mCtrTx ||| c.mCtrRx
  ((old ^^^ w) &&& t)
    ||| ((match c.dtogW1 with
          | .toggle => old ^^^ w
          | .set => old ||| w) &&& d)
    ||| ((old &&& w) &&& f)
    ||| (w &&& c.mRw)
    ||| (old &&& c.mRo)

/-- The status mask of a direction (rule R131). -/
def statMask (c : Config) : Dir → Reg
  | .tx => c.mStatTx
  | .rx => c.mStatRx

/-- The position of the low bit of the status field of a direction (rule R131). -/
def statLo (c : Config) : Dir → Nat
  | .tx => c.statTxLo
  | .rx => c.statRxLo

/-- The data-toggle mask of a direction (rule R131). -/
def dtogMask (c : Config) : Dir → Reg
  | .tx => c.mDtogTx
  | .rx => c.mDtogRx

/-- The completion-flag mask of a direction (rule R139). -/
def ctrMask (c : Config) : Dir → Reg
  | .tx => c.mCtrTx
  | .rx => c.mCtrRx

/-- The other direction. -/
def otherDir : Dir → Dir
  | .tx => .rx
  | .rx => .tx

/-- A 2-bit code at the position of a status field: `target << lo`. -/
def codeAt (target : StatusCode) (lo : Nat) : Reg := target.setWidth 16 <<< lo

/-- CTW, the source's `computeToggleWrite` (rule R130). -/
def ctw (current : Reg) (target : StatusCode) (mask : Reg) (lo : Nat) : Reg := (current ^^^ codeAt target lo) &&& mask

/-- `StatusWrite(r, dir, target, d)` of rule R131. -/
def statusWrite (c : Config) (r : Reg) (dir : Dir) (target : StatusCode) (d : DtogOp) : Reg :=
  let kept := r &&& (c.mKeep ||| statMask c dir)
  let toggled := kept ^^^ codeAt target (statLo c dir)
  let dtog := match d with
    | .keep => toggled
    | .set => toggled ||| dtogMask c dir
  dtog ||| c.mCtrTx ||| c.mCtrRx

/-- `ClearWrite(r, flag)` of rule R139, for the flag of direction `dir`. -/
def clearWrite (c : Config) (r : Reg) (dir : Dir) : Reg := (r &&& c.mKeep) ||| ctrMask c (otherDir dir)

/-- The status code of a direction, `STAT_TX` or `STAT_RX` (rule R25). -/
def statusOf (c : Config) (r : Reg) (dir : Dir) : StatusCode := ((r &&& statMask c dir) >>> statLo c dir).setWidth 2

/-- The completion flag of a direction, `CTR_TX` or `CTR_RX` (rule R26). -/
def flagOf (c : Config) (r : Reg) (dir : Dir) : Bool := r &&& ctrMask c dir != 0

/-- The data-toggle bit of a direction, `DTOG_TX` or `DTOG_RX` (rule R27). -/
def dtogBitOf (c : Config) (r : Reg) (dir : Dir) : Bool := r &&& dtogMask c dir != 0

/-- The field under `mask` replaced by the bits of `v` there, every other bit kept. -/
def replaceUnder (r mask v : Reg) : Reg := (r &&& ~~~mask) ||| (v &&& mask)

/-- `RXIRQ = (RX.st = Complete)` (rule R47). -/
def State.rxIrqLine (s : State) : Bool := s.rx.st == .complete

/-- `TXIRQ = (TX.st = Complete)` (rule R47). -/
def State.txIrqLine (s : State) : Bool := s.tx.st == .complete

/-- The line of a handler (rule R282). -/
def State.lineHigh (s : State) : Handler → Bool
  | .rxIrq => s.rxIrqLine
  | .txIrq => s.txIrqLine

end Sys2Proof.Machine
end

