-- ==== Sys2Proof/Machine/Ops.lean ====
section
/-! DEFINITION. The named operations over the state: the byte spaces and the registers (rules R60 to R67), the context stack with
the taking of an interrupt and the return from it (rules R281 to R284), raising a fault (rule R271), and the reset event
(rules R50, R310). -/
namespace Sys2Proof.Machine

/-! ## Memories -/

/-- What a byte that nothing has written reads as: rule R50 leaves it unspecified (DESIGN CHOICE, log 13). -/
def blank : Byte := 0

/-- The byte at address `a`. -/
def Memory.read (m : Memory) (a : Nat) : Byte :=
  match m with
  | [] => blank
  | (x, v) :: rest => if x = a then v else Memory.read rest a

/-- `m` with byte `b` at address `a`, in canonical form: writing `blank` removes the entry. -/
def Memory.write (m : Memory) (a : Nat) (b : Byte) : Memory :=
  match m with
  | [] => if b = blank then [] else [(a, b)]
  | (x, v) :: rest =>
    if a < x then (if b = blank then (x, v) :: rest else (a, b) :: (x, v) :: rest)
    else if a = x then (if b = blank then rest else (a, b) :: rest)
    else (x, v) :: Memory.write rest a b

/-- The canonical form: addresses strictly rising, no entry equal to `blank`. -/
def Memory.wf (m : Memory) : Bool := decide (m.Pairwise fun p q => p.1 < q.1) && m.all fun p => p.2 != blank

/-- Every listed address is below `size`. -/
def Memory.below (m : Memory) (size : Nat) : Bool := m.all fun p => decide (p.1 < size)

/-- The `n` bytes from address `a` upward. -/
def Memory.readBytes (m : Memory) (a n : Nat) : List Byte := (List.range n).map fun i => Memory.read m (a + i)

/-- `m` with the bytes `bs` from address `a` upward. -/
def Memory.writeBytes (m : Memory) (a : Nat) : List Byte → Memory
  | [] => m
  | b :: bs => Memory.writeBytes (Memory.write m a b) (a + 1) bs

/-! ## The byte spaces of rule R60 -/

/-- The byte-addressed spaces of rule R60. -/
inductive Space where
  | txb
  | rxb (k : Nat)
  | pay
deriving DecidableEq, Repr

/-- The size of a space (rule R60); a receive buffer that does not exist has none. -/
def State.sizeOf (s : State) : Space → Nat
  | .txb => s.cfg.txCap
  | .rxb k => if k < s.cfg.nRxBuf then s.cfg.rxCap else 0
  | .pay => s.cfg.payCap

/-- The content of a space. -/
def State.bytesOf (s : State) : Space → Memory
  | .txb => s.txb
  | .rxb k => s.rxb.getD k []
  | .pay => s.pay

/-- `s` with the content of a space replaced. -/
def State.withBytes (s : State) (sp : Space) (m : Memory) : State :=
  match sp with
  | .txb => { s with txb := m }
  | .rxb k => { s with rxb := s.rxb.set k m }
  | .pay => { s with pay := m }

/-- `MemRead(space, addr, n)` of rule R12; `none` when a byte lies outside the space (rule R61). -/
def State.memRead (s : State) (sp : Space) (a n : Nat) : Option (List Byte) :=
  if a + n ≤ s.sizeOf sp then some (Memory.readBytes (s.bytesOf sp) a n) else none

/-- `MemWrite(space, addr, n, bytes)` of rule R12; `none` when a byte lies outside the space (rule R61). -/
def State.memWrite (s : State) (sp : Space) (a : Nat) (bs : List Byte) : Option State :=
  if a + bs.length ≤ s.sizeOf sp then some (s.withBytes sp (Memory.writeBytes (s.bytesOf sp) a bs)) else none

/-! ## The registers -/

/-- `EPR[e]`: reading has no side effect (rules R30, R66). -/
def State.eprAt (s : State) (e : Nat) : Reg := s.epr.getD e 0

/-- `s` with the content of register `e` replaced. -/
def State.withEpr (s : State) (e : Nat) (v : Reg) : State := { s with epr := s.epr.set e v }

/-- `EPR[e] <- w` of rule R12: the new content is `HwWrite(EPR[e], w)`. -/
def State.eprWrite (s : State) (e : Nat) (w : Reg) : State := s.withEpr e (hwWrite s.cfg (s.eprAt e) w)

/-! ## The other named updates -/

/-- `s` with the transmit slot replaced. -/
def State.withTx (s : State) (t : TxSlot) : State := { s with tx := t }
/-- `s` with the receive slot replaced. -/
def State.withRx (s : State) (r : RxSlot) : State := { s with rx := r }
/-- `emit Line(b)` (rule R12). -/
def State.emitLine (s : State) (b : Byte) : State := { s with txLine := s.txLine ++ [b] }
/-- `emit Log(ev)` (rule R12). -/
def State.emitLog (s : State) (ev : LogEvent) : State := { s with log := s.log ++ [ev] }
/-- `RXLINE` replaced. -/
def State.withRxLine (s : State) (l : List Byte) : State := { s with rxLine := l }
/-- One more byte lost (rule R177). -/
def State.countLost (s : State) : State := { s with lost := s.lost + 1 }
/-- `LEDC.state <- NOT LEDC.state` (rule R231). -/
def State.flipLed (s : State) : State := { s with ledState := !s.ledState }
/-- One more free value used (log 11). -/
def State.tick (s : State) : State := { s with freeTick := s.freeTick + 1 }
/-- The inputs still to come, replaced. -/
def State.withInputs (s : State) (l : List Input) : State := { s with inputs := l }

/-! ## Contexts -/

/-- The context that a handler is. -/
def contextOf : Handler → Context
  | .rxIrq => .rxIrq
  | .txIrq => .txIrq

/-- The context on top of the stack: the only one that takes steps (rule R281). -/
def State.top (s : State) : Context :=
  match s.handlers with
  | [] => .main
  | h :: _ => contextOf h.handler

/-- What the top context's operation holds between two steps; `none` when it is between operations. -/
def State.topOp (s : State) : Option Pending :=
  match s.handlers with
  | [] => s.mainOp
  | h :: _ => h.op

/-- The last result given to a context. -/
def Answers.of (a : Answers) : Context → Option Result
  | .main => a.main
  | .rxIrq => a.rxIrq
  | .txIrq => a.txIrq

/-- The results with that of one context replaced. -/
def Answers.put (a : Answers) (c : Context) (r : Option Result) : Answers :=
  match c with
  | .main => { a with main := r }
  | .rxIrq => { a with rxIrq := r }
  | .txIrq => { a with txIrq := r }

/-- The end of an operation with result `r`: the presenting context, the top one, gets the result (rule R90); a handler's context is
popped and the one below resumes where it was, with nothing restored (rules R281, R284). -/
def State.finish (s : State) (r : Result) : State :=
  { s with
    answers := Answers.put s.answers s.top (some r)
    handlers := s.handlers.tail
    mainOp := if s.handlers = [] then none else s.mainOp }

/-- The mark `step` inside an operation (rule R12): the top context's operation holds `p` until its next step. -/
def State.suspend (s : State) (p : Pending) : State :=
  { s with
    answers := Answers.put s.answers s.top none
    handlers := match s.handlers with
      | [] => []
      | h :: rest => { h with op := some p } :: rest
    mainOp := if s.handlers = [] then some p else s.mainOp }

/-! ## Outcomes -/

/-- What a step answers. -/
abbrev Next := Host.Outcome State Fault Refusal

/-- What an operation answers inside a step: its result and the state it leaves. -/
abbrev Answered := Host.Outcome (Result × State) Fault Refusal

/-- An operation whose result ends the presenting context's operation. -/
def conclude : Answered → Next
  | .next (r, s) => .next (s.finish r)
  | .fault f => .fault f
  | .refused r => .refused r

/-! ## Faults (rule R271) -/

/-- The number of a fault code (rule R271). -/
def FaultRecord.number : FaultRecord → Nat
  | .illegalCommand _ => 1
  | .badEndpoint _ => 2
  | .sendTooLong _ => 3
  | .badBuffer _ => 4
  | .badLength _ => 5
  | .receiveBusy => 6
  | .noTransfer => 7
  | .finishNotReady => 8
  | .parseLengthZero _ => 9
  | .parseBounds _ _ => 10
  | .badMode _ => 11
  | .bufferNotOwned _ => 12

/-- `code` is added to `FAULT`, a set (rules R46, R271). -/
def State.addFault (s : State) (f : FaultRecord) : State :=
  { s with faults := if f ∈ s.faults then s.faults else s.faults ++ [f] }

/-- The numbers of the codes in `FAULT` (rule R46). -/
def State.faultCodes (s : State) : List Nat := (s.faults.map FaultRecord.number).dedup

/-- `raise Fault(code)` (rules R12, R271): the operation ends here, no state is written after it, the presenting context gets the
fault as its result and the code is added to `FAULT`. The one operation every fault of rule R271 goes through. -/
def State.raise (s : State) (f : FaultRecord) : Answered := .next (.fault f, s.addFault f)

/-! ## Interrupts (rules R280 to R284) -/

/-- The priority of a handler, `PRIO_RX` or `PRIO_TX` (rule R283). -/
def priorityOf (c : Config) : Handler → Nat
  | .rxIrq => c.prioRx
  | .txIrq => c.prioTx

/-- A handler's priority is above that of the top context; `Main` has the lowest (rule R281). -/
def State.outranksTop (s : State) (h : Handler) : Bool :=
  match s.handlers with
  | [] => true
  | top :: _ => decide (priorityOf s.cfg top.handler < priorityOf s.cfg h)

/-- The other handler. -/
def otherHandler : Handler → Handler
  | .rxIrq => .txIrq
  | .txIrq => .rxIrq

/-- No line of a higher priority is high: of two high lines the higher is taken first, either one when the priorities are
equal (rule R283). -/
def State.firstInLine (s : State) (h : Handler) : Bool :=
  !(s.lineHigh (otherHandler h) && decide (priorityOf s.cfg h < priorityOf s.cfg (otherHandler h)))

/-- A handler's context may be pushed (rules R281, R283): its line is high, it is not on the stack, it outranks the top, and no
line of a higher priority is high. -/
def State.canTake (s : State) (h : Handler) : Bool :=
  s.lineHigh h && !(s.handlers.any fun a => a.handler = h) && s.outranksTop h && s.firstInLine h

/-- The handler that an entry is of. -/
def Entry.handler : Entry → Handler
  | .rxIrq _ _ => .rxIrq
  | .txIrq => .txIrq

/-- `s` with a handler's context pushed on the stack (rule R281); it has presented nothing. -/
def State.pushHandler (s : State) (h : Handler) : State := { s with handlers := ⟨h, none⟩ :: s.handlers }

/-- Taking an interrupt (rules R281, R282): the handler's context is pushed; nothing is saved, masked or switched. What it presents
is `takeStep`'s. The return is `State.finish`. -/
def State.takeInterrupt (s : State) (h : Handler) : Next :=
  if s.canTake h then .next (s.pushHandler h) else .refused (.notEnabled .interrupt)

/-! ## The reset event -/

/-- The memory whose first bytes are `bs` and whose other bytes read as `blank`. -/
def memoryOf (bs : List Byte) : Memory := Memory.writeBytes [] 0 bs

/-- The state after a reset (rules R50, R310), what that rule leaves unspecified taken from `p` (the surplus of a list
ignored, what it lacks 0). `inputs` and `freeTick` are the run's, not the block's (log 3, log 38). -/
def State.powerUp (c : Config) (p : PowerUp) (inputs : List Input) (freeTick : Nat) : State where
  cfg := c
  epr := (List.range c.nEp).map fun e => p.epr.getD e 0
  tx := ⟨.empty, 0, 0⟩
  txb := memoryOf (p.txb.take c.txCap)
  rx := ⟨.empty, 0, 0, 0⟩
  rxb := (List.range c.nRxBuf).map fun k => memoryOf ((p.rxb.getD k []).take c.rxCap)
  pay := memoryOf (p.pay.take c.payCap)
  ks := (List.range c.nKeys).map fun i => p.ks.getD i false
  rxLine := []
  txLine := []
  lost := 0
  log := []
  ledState := false
  ind := p.ind
  faults := []
  mainOp := none
  handlers := []
  answers := ⟨none, none, none⟩
  inputs := inputs
  freeTick := freeTick

end Sys2Proof.Machine
end

