-- ==== Sys2Proof/Machine/Operands.lean ====
section
/-! DEFINITION. Operand forms: the range checks of endpoint, buffer, length and mode operands (rules R110, R273), the payloads an
operation takes from `PAY` and `KS` (rules R38, R243, R244, R246) and the Bluetooth payload (rule R251). -/
namespace Sys2Proof.Machine

/-- "an endpoint index `>= N_EP`" (rules R61, R110): the check of the EPSC operations. -/
def endpointOk (c : Config) (e : Byte) : Bool := decide (e.toNat < c.nEp)

/-- "a buffer index `>= N_RXBUF`" (rule R110). -/
def bufferOk (c : Config) (k : Byte) : Bool := decide (k.toNat < c.nRxBuf)

/-- "a length of 0 or above the capacity" (rule R110). -/
def lengthOk (c : Config) (len : Byte) : Bool := decide (0 < len.toNat) && decide (len.toNat ≤ c.rxCap)

/-- "a Bluetooth mode that is none of the three codes" (rule R110). -/
def modeOk (c : Config) (mode : Byte) : Bool := mode == c.btUnknown || mode == c.btBle || mode == c.btLegacy

/-- The first `n` bytes of `PAY` (rules R160, R246, R248). -/
def State.payload (s : State) (n : Nat) : Option (List Byte) := s.memRead .pay 0 n

/-- Byte `j` of `Pack(KS)` (rule R244): key `i` with `i div 8 = j` at bit `p(i)`, bits with no key 0. -/
def packByte (c : Config) (ks : List Bool) (j : Nat) : Byte :=
  (List.range 8).foldl
    (fun acc b =>
      let i := 8 * j + b
      if i < c.nKeys ∧ ks.getD i false then acc ||| ((1 : Byte) <<< c.keyPos i) else acc)
    0

/-- `Pack(KS)` (rules R103, R244). -/
def pack (c : Config) (ks : List Bool) : List Byte := (List.range c.keyBytes).map (packByte c ks)

/-- The status colour of a mode (rule R251). -/
def modeColor (c : Config) (mode : Byte) : Color :=
  if mode = c.btUnknown then c.colorBlue
  else if mode = c.btBle then ⟨0x00, 0xff, 0x00⟩
  else ⟨0xff, 0xff, 0x00⟩

/-- The ten records: `BT_PATTERN` with the colour of record `BT_STATUS_REC` replaced (rule R251). -/
def btRecords (c : Config) (mode : Byte) : List BtRecord :=
  c.btPattern.modify c.btStatusRec fun r => { r with color := modeColor c mode }

/-- `BtPayload(mode)` (rule R251). -/
def btPayload (c : Config) (mode : Byte) : List Byte := btBytes (btRecords c mode)

end Sys2Proof.Machine
end

