-- ==== Sys2Proof/Machine/Agents.lean ====
section
/-! DEFINITION. The hardware agents DmaTx, DmaRx, Peer (rules R175 to R178) and UsbHw (rule R150), the writes of a context to the
staging areas (rule R38) and the direct accesses that are refused (rule R75). -/
namespace Sys2Proof.Machine

/-- Agent `DmaTx` (rule R175): the next byte of `TXB` goes on the line. -/
def dmaTxStep (s : State) : Next :=
  if s.tx.st = .inFlight then
    match s.memRead .txb s.tx.pos 1 with
    | some [b] =>
      let pos := s.tx.pos + 1
      .next ((s.emitLine b).withTx ⟨if pos = s.tx.len then .complete else .inFlight, s.tx.len, pos⟩)
    | _ => .fault .outsideSpace
  else .refused (.notEnabled .dmaTx)

/-- Agent `DmaRx`, storing step (rule R176): byte `b`, taken from `RXLINE`, goes to the armed buffer. -/
def dmaRxStore (b : Byte) (s : State) : Next :=
  match s.memWrite (.rxb s.rx.buf) s.rx.cnt [b] with
  | some s' =>
    let cnt := s.rx.cnt + 1
    .next (s'.withRx ⟨if cnt = s.rx.len then .complete else .inFlight, s.rx.buf, s.rx.len, cnt⟩)
  | none => .fault .outsideSpace

/-- Agent `DmaRx` (rules R176, R177): the head of `RXLINE` is stored while a transfer is in flight and dropped otherwise. -/
def dmaRxStep (s : State) : Next :=
  match s.rxLine with
  | [] => .refused (.notEnabled .dmaRx)
  | b :: rest =>
    if s.rx.st = .inFlight then dmaRxStore b (s.withRxLine rest) else .next ((s.withRxLine rest).countLost)

/-- Agent `Peer` (rule R178). -/
def peerStep (b : Byte) (s : State) : Next := .next (s.withRxLine (s.rxLine ++ [b]))

/-- What an action of agent `UsbHw` makes of a register (rule R150); `none` when it has no such action: case 2 needs
`USBHW_MUTATES_STAT`, and a single bit must be one of `M_RO`. -/
def usbEffect (c : Config) (r : Reg) : UsbAction → Option Reg
  | .setFlag dir => some (r ||| ctrMask c dir)
  | .setStatus dir v => if c.usbHwMutatesStat then some (replaceUnder r (statMask c dir) (codeAt v (statLo c dir))) else none
  | .setDtog dir v =>
    if c.usbHwMutatesStat then some (replaceUnder r (dtogMask c dir) (if v then dtogMask c dir else 0)) else none
  | .flipReadOnly bit =>
    if c.usbHwMutatesStat && c.mRo.getLsbD bit then some (r ^^^ ((1 : Reg) <<< bit)) else none

/-- Agent `UsbHw` (rule R150). -/
def usbHwStep (e : Nat) (act : UsbAction) (s : State) : Next :=
  if e < s.epr.length then
    match usbEffect s.cfg (s.eprAt e) act with
    | some r => .next (s.withEpr e r)
    | none => .refused (.notEnabled .usbHw)
  else .refused (.notEnabled .usbHw)

/-- The top context, between operations, writes a byte of `PAY` (rule R38). -/
def stagePayStep (off : Nat) (b : Byte) (s : State) : Next :=
  if s.topOp = none then
    match s.memWrite .pay off [b] with
    | some s' => .next s'
    | none => .fault .outsideSpace
  else .refused (.notEnabled .staging)

/-- The top context, between operations, writes a bit of `KS` (rule R38). -/
def stageKeyStep (i : Nat) (pressed : Bool) (s : State) : Next :=
  if s.topOp = none then
    if i < s.ks.length then .next { s with ks := s.ks.set i pressed } else .fault .outsideSpace
  else .refused (.notEnabled .staging)

/-- Whether a DMA agent owns a buffer (rule R74). -/
def State.dmaOwns (s : State) : BufferName → Bool
  | .txb => s.tx.st == .inFlight
  | .rxb k => s.rx.st == .inFlight && s.rx.buf == k

/-- A direct access (rule R75, U5): refused, not answered. -/
def directAccessStep (buf : BufferName) (s : State) : Next :=
  if s.dmaOwns buf then .refused .unownedAccess else .refused .noDirectAccess

end Sys2Proof.Machine
end

