-- ==== Sys2Proof/Machine/Epsc.lean ====
section
/-! DEFINITION. The Endpoint Status Controller: SETTX, SETRX, CLRTX, CLRRX (rules R133 to R142), each a read step and a write step. -/
namespace Sys2Proof.Machine

/-- Step 1 of an EPSC operation (rule R133): the endpoint is checked, the register is read and what it held is kept in `p`. -/
def epscRead (s : State) (e : Byte) (p : Reg → Pending) : Next :=
  if endpointOk s.cfg e then
    if e.toNat < s.epr.length then .next (s.suspend (p (s.eprAt e.toNat))) else .fault .outsideSpace
  else conclude (s.raise (.badEndpoint e))

/-- Step 2 of an EPSC operation (rule R133): the register takes the write `w`, computed from the value read at step 1. -/
def epscWrite (s : State) (e : Byte) (w : Reg) : Next :=
  if e.toNat < s.epr.length then conclude (.next (.ok, s.eprWrite e.toNat w)) else .fault .outsideSpace

/-- SETTX, step 1 (rule R134). -/
def execSettx (e : Byte) (target : StatusCode) (d : DtogOp) (s : State) : Next :=
  epscRead s e fun r => .statusWrite .tx e target d r

/-- SETRX, step 1 (rule R136). -/
def execSetrx (e : Byte) (target : StatusCode) (d : DtogOp) (s : State) : Next :=
  epscRead s e fun r => .statusWrite .rx e target d r

/-- CLRTX, step 1 (rule R140). -/
def execClrtx (e : Byte) (s : State) : Next := epscRead s e fun r => .clearWrite .tx e r

/-- CLRRX, step 1 (rule R142). -/
def execClrrx (e : Byte) (s : State) : Next := epscRead s e fun r => .clearWrite .rx e r

/-- Step 2 of SETTX and SETRX (rules R134, R136): `EPR[e] <- StatusWrite(r, dir, target, d)`. -/
def resumeStatusWrite (dir : Dir) (e : Byte) (target : StatusCode) (d : DtogOp) (r : Reg) (s : State) : Next :=
  epscWrite s e (statusWrite s.cfg r dir target d)

/-- Step 2 of CLRTX and CLRRX (rules R140, R142): `EPR[e] <- ClearWrite(r, flag)`. -/
def resumeClearWrite (dir : Dir) (e : Byte) (r : Reg) (s : State) : Next := epscWrite s e (clearWrite s.cfg r dir)

end Sys2Proof.Machine
end

