-- ==== Sys2Proof/Machine/Framing.lean ====
section
/-! DEFINITION. The LED Link Protocol: PARSE (rules R210, R211) and DISPATCH (rules R213 to R216). ENCODE is `encodeFrame` (rule R200). -/
namespace Sys2Proof.Machine

/-- PARSE of buffer `k` (rule R210): it reads the header and the payload the header declares, whatever the transfer wrote (R211). -/
def parseBuffer (k : Nat) (s : State) : Answered :=
  if s.rx.st = .inFlight ∧ s.rx.buf = k then s.raise (.bufferNotOwned k)
  else
    match s.memRead (.rxb k) 0 3 with
    | some [t, l, o] =>
      if l.toNat = 0 then s.raise (.parseLengthZero k)
      else
        match s.memRead (.rxb k) 3 (l.toNat - 1) with
        | some data => .next (.okMessage ⟨t, o, data⟩, s)
        | none => if s.cfg.parseBoundsCheck then s.raise (.parseBounds k l.toNat) else .refused .parsePastBuffer
    | _ => .fault .outsideSpace

/-- The acknowledgement class (rule R213): a log event as `LOG_ACKS` allows, a free value per frame when it is free (rule R215, log 11). -/
def logAck (o : Byte) (s : State) : State :=
  match s.cfg.logAcks with
  | .always => s.emitLog (.ack o)
  | .never => s
  | .free => if Config.freeLogAck s.freeTick then (s.emitLog (.ack o)).tick else s.tick

/-- DISPATCH of a pair (rule R216): the acknowledgement class or the drop class (rules R213, R214). -/
def dispatchPair (t o : Byte) (s : State) : State :=
  if isAckPair s.cfg t o then logAck o s else s.emitLog (.drop t o)

/-- PARSE (rule R210). -/
def execParse (k : Byte) (s : State) : Next :=
  if bufferOk s.cfg k then conclude (parseBuffer k.toNat s) else conclude (s.raise (.badBuffer k))

/-- DISPATCH (rule R216). -/
def execDispatch (t o : Byte) (s : State) : Next := conclude (.next (.ok, dispatchPair t o s))

end Sys2Proof.Machine
end

