-- ==== Sys2Proof/Machine/LinkTransport.lean ====
section
/-! DEFINITION. The Link Transport: SEND, RECEIVE, POLL, FINISH, TXADV (rules R160 to R170). -/
namespace Sys2Proof.Machine

/-- SEND of a payload the operation supplies itself (rules R160, R230): length, then slot, then the frame into `TXB`. -/
def linkSend (t o : Byte) (p : List Byte) (s : State) : Answered :=
  if s.cfg.maxPay < p.length then s.raise (.sendTooLong p.length)
  else if s.tx.st ≠ .empty then .next (.wouldBlock, s)
  else
    match s.memWrite .txb 0 (encodeFrame t o p) with
    | some s' => .next (.ok, s'.withTx ⟨.inFlight, 3 + p.length, 0⟩)
    | none => .fault .outsideSpace

/-- SEND of the first `n` bytes of `PAY` (rule R160): the length is checked before the slot and before `PAY` is read (rule R273). -/
def linkSendStaged (t o n : Byte) (s : State) : Answered :=
  if s.cfg.maxPay < n.toNat then s.raise (.sendTooLong n.toNat)
  else
    match s.payload n.toNat with
    | some p => linkSend t o p s
    | none => .fault .outsideSpace

/-- RECEIVE (rule R165). -/
def linkReceive (k len : Byte) (s : State) : Answered :=
  if !bufferOk s.cfg k then s.raise (.badBuffer k)
  else if !lengthOk s.cfg len then s.raise (.badLength len)
  else if s.rx.st ≠ .empty then s.raise .receiveBusy
  else .next (.ok, s.withRx ⟨.inFlight, k.toNat, len.toNat, 0⟩)

/-- POLL (rule R167). -/
def linkPoll (s : State) : Answered :=
  match s.rx.st with
  | .empty => s.raise .noTransfer
  | .inFlight => .next (.wouldBlock, s)
  | .complete => .next (.ok, s)

/-- FINISH (rule R168). -/
def linkFinish (s : State) : Answered :=
  match s.rx.st with
  | .empty => s.raise .noTransfer
  | .inFlight => s.raise .finishNotReady
  | .complete => .next (.okBuffer s.rx.buf, s.withRx { s.rx with st := .empty })

/-- TXADV (rule R170). -/
def linkAdvance (s : State) : Answered :=
  match s.tx.st with
  | .complete => .next (.ok, s.withTx { s.tx with st := .empty })
  | .inFlight => .next (.wouldBlock, s)
  | .empty => .next (.ok, s)

/-- SEND (rule R160). -/
def execSend (t o n : Byte) (s : State) : Next := conclude (linkSendStaged t o n s)

/-- RECEIVE (rule R165). -/
def execReceive (k len : Byte) (s : State) : Next := conclude (linkReceive k len s)

/-- POLL (rule R167). -/
def execPoll (s : State) : Next := conclude (linkPoll s)

/-- FINISH (rule R168). -/
def execFinish (s : State) : Next := conclude (linkFinish s)

/-- TXADV (rule R170). -/
def execTxadv (s : State) : Next := conclude (linkAdvance s)

end Sys2Proof.Machine
end

