-- ==== Sys2Proof/Machine/LedController.lean ====
section
/-! DEFINITION. The LED Controller: its eleven commands, each one SEND (rules R230 to R250), and LEDCPOLL in four steps (rule R260). -/
namespace Sys2Proof.Machine

/-- Whether a result is a fault. -/
def Result.isFault : Result → Bool
  | .fault _ => true
  | _ => false

/-- `LEDC.state` flips after a SEND that did not fault (rule R231: "also when r = WouldBlock"). -/
def thenFlip : Answered → Answered
  | .next (r, s) => .next (r, if r.isFault then s else s.flipLed)
  | .fault f => .fault f
  | .refused r => .refused r

/-- TOGGLE (rule R231). -/
def execToggle (s : State) : Next :=
  conclude (thenFlip (linkSend s.cfg.mtLed s.cfg.opThemeMode (if s.ledState then [0x00] else []) s))

/-- THEMEMODE (rule R233). -/
def execThememode (s : State) : Next := conclude (linkSend s.cfg.mtLed s.cfg.opThemeMode [] s)

/-- SETTHEME (rule R234). -/
def execSettheme (id : Byte) (s : State) : Next := conclude (linkSend s.cfg.mtLed s.cfg.opThemeMode [id] s)

/-- NEXTTHEME (rule R236). -/
def execNexttheme (s : State) : Next := conclude (linkSend s.cfg.mtLed s.cfg.opConfigCmd [0x01, 0x00, 0x00] s)

/-- NEXTBRIGHT (rule R237). -/
def execNextbright (s : State) : Next := conclude (linkSend s.cfg.mtLed s.cfg.opConfigCmd [0x00, 0x00, 0x01] s)

/-- NEXTSPEED (rule R238). -/
def execNextspeed (s : State) : Next := conclude (linkSend s.cfg.mtLed s.cfg.opConfigCmd [0x00, 0x01, 0x00] s)

/-- SENDKEYS (rule R243). -/
def execSendkeys (s : State) : Next := conclude (linkSend s.cfg.mtLed s.cfg.opKey (pack s.cfg s.ks) s)

/-- SENDMUSIC (rule R246). -/
def execSendmusic (n : Byte) (s : State) : Next := conclude (linkSendStaged s.cfg.mtLed s.cfg.opMusic n s)

/-- GETTHEMEID (rule R247). -/
def execGetthemeid (s : State) : Next := conclude (linkSend s.cfg.mtLed s.cfg.opGetThemeId [] s)

/-- SETKEYS (rule R248). -/
def execSetkeys (n : Byte) (s : State) : Next := conclude (linkSendStaged s.cfg.mtLed s.cfg.opSetIndividualKeys n s)

/-- BTMODE (rule R250). -/
def execBtmode (mode : Byte) (s : State) : Next :=
  if modeOk s.cfg mode then conclude (linkSend s.cfg.mtLed s.cfg.opSetIndividualKeys (btPayload s.cfg mode) s)
  else conclude (s.raise (.badMode mode))

/-! ## LEDCPOLL (rule R260) -/

/-- LEDCPOLL, step 1: operands, then POLL. -/
def execLedcpoll (k len : Byte) (s : State) : Next :=
  if !bufferOk s.cfg k then conclude (s.raise (.badBuffer k))
  else if !lengthOk s.cfg len then conclude (s.raise (.badLength len))
  else
    match linkPoll s with
    | .next (.ok, s') => .next (s'.suspend (.pollFinish k len))
    | other => conclude other

/-- LEDCPOLL, step 2: FINISH. -/
def resumePollFinish (k len : Byte) (s : State) : Next :=
  match linkFinish s with
  | .next (.okBuffer j, s') => .next (s'.suspend (.pollParse j k len))
  | other => conclude other

/-- LEDCPOLL, step 3: PARSE of the buffer FINISH returned, and DISPATCH of its message. -/
def resumePollParse (j : Nat) (k len : Byte) (s : State) : Next :=
  match parseBuffer j s with
  | .next (.okMessage m, s') => .next ((dispatchPair m.msgType m.operation s').suspend (.pollRearm k len))
  | other => conclude other

/-- LEDCPOLL, step 4: the re-arming RECEIVE. -/
def resumePollRearm (k len : Byte) (s : State) : Next := conclude (linkReceive k len s)

end Sys2Proof.Machine
end

