-- ==== Sys2Proof/Machine/WireFrames.lean ====
section
/-! DEFINITION. The wire-frame rows of the opcode table (rule R99): an outgoing frame is put on the link by the SEND that its row's
rule makes of it, an incoming frame is dispatched as its row's rule says, its data ignored (log 17). -/
namespace Sys2Proof.Machine

/-- An outgoing frame with opcode `o` and payload `p` (rules R93, R230). -/
def frameOut (o : Byte) (p : List Byte) (s : State) : Next := conclude (linkSend s.cfg.mtLed o p s)

/-- An incoming frame with header `t`, `o` (rules R213, R214, R217). -/
def frameIn (t o : Byte) (s : State) : Next := conclude (.next (.ok, dispatchPair t o s))

/-- [MT_LED, 1, OP_THEMEMODE] (rule R233). -/
def execFrameThemeModeReassert (s : State) : Next := frameOut s.cfg.opThemeMode [] s

/-- [MT_LED, 2, OP_THEMEMODE, id] (rule R234). -/
def execFrameThemeModeSet (id : Byte) (s : State) : Next := frameOut s.cfg.opThemeMode [id] s

/-- [MT_LED, 4, OP_CONFIGCMD, 1, 0, 0] (rules R101, R236). -/
def execFrameConfigCmdTheme (s : State) : Next := frameOut s.cfg.opConfigCmd [1, 0, 0] s

/-- [MT_LED, 4, OP_CONFIGCMD, 0, 0, 1] (rules R101, R237). -/
def execFrameConfigCmdBrightness (s : State) : Next := frameOut s.cfg.opConfigCmd [0, 0, 1] s

/-- [MT_LED, 4, OP_CONFIGCMD, 0, 1, 0] (rules R101, R238). -/
def execFrameConfigCmdSpeed (s : State) : Next := frameOut s.cfg.opConfigCmd [0, 1, 0] s

/-- [MT_LED, 1 + ceil(N_KEYS/8), OP_KEY, packed...] (rules R103, R243). -/
def execFrameKey (packed : List Byte) (s : State) : Next := frameOut s.cfg.opKey packed s

/-- [MT_LED, 1 + n, OP_MUSIC, payload...] (rule R246). -/
def execFrameMusic (payload : List Byte) (s : State) : Next := frameOut s.cfg.opMusic payload s

/-- [MT_LED, 1, OP_GETTHEMEID] (rule R247). -/
def execFrameGetThemeId (s : State) : Next := frameOut s.cfg.opGetThemeId [] s

/-- [MT_LED, 1 + n, OP_SETINDIVIDUALKEYS, payload...] (rule R248). -/
def execFrameSetIndividualKeys (payload : List Byte) (s : State) : Next := frameOut s.cfg.opSetIndividualKeys payload s

/-- [MT_LED, 0x35, OP_SETINDIVIDUALKEYS, 0xCA, 0x0A, rec0, ..., rec9] (rules R102, R251). -/
def execFrameSetIndividualKeysBluetooth (recs : List BtRecord) (s : State) : Next :=
  frameOut s.cfg.opSetIndividualKeys (btBytes recs) s

/-- [MT_LED, length, OP_ACKTHEMEMODE, data...] (rule R213). -/
def execFrameAckThemeMode (_data : List Byte) (s : State) : Next := frameIn s.cfg.mtLed s.cfg.opAckThemeMode s

/-- [MT_LED, length, OP_ACKCONFIGCMD, data...] (rule R213). -/
def execFrameAckConfigCmd (_data : List Byte) (s : State) : Next := frameIn s.cfg.mtLed s.cfg.opAckConfigCmd s

/-- [MT_LED, length, OP_ACKSETINDIVIDUALKEYS, data...] (rule R213). -/
def execFrameAckSetIndividualKeys (_data : List Byte) (s : State) : Next :=
  frameIn s.cfg.mtLed s.cfg.opAckSetIndividualKeys s

/-- Any other (msg_type, operation) pair (rule R214). -/
def execFrameOther (t o : Byte) (_data : List Byte) (s : State) : Next := frameIn t o s

end Sys2Proof.Machine
end

