-- ==== Sys2Proof/Machine/Dispatch.lean ====
section
/-! DEFINITION. What each instruction does when the top context presents it: the first step of the operation (rule R72). -/
namespace Sys2Proof.Machine

def exec (i : Instr) (s : State) : Host.Outcome State Fault Refusal :=
  match i with
  -- 40_epsc.md
  | .settx e target d => Sys2Proof.Machine.execSettx e target d s
  | .setrx e target d => Sys2Proof.Machine.execSetrx e target d s
  | .clrtx e => Sys2Proof.Machine.execClrtx e s
  | .clrrx e => Sys2Proof.Machine.execClrrx e s
  -- 41_link_transport.md
  | .send t o n => Sys2Proof.Machine.execSend t o n s
  | .receive k len => Sys2Proof.Machine.execReceive k len s
  | .poll => Sys2Proof.Machine.execPoll s
  | .finish => Sys2Proof.Machine.execFinish s
  | .txadv => Sys2Proof.Machine.execTxadv s
  -- 42_framing.md
  | .parse k => Sys2Proof.Machine.execParse k s
  | .dispatch t o => Sys2Proof.Machine.execDispatch t o s
  -- 43_led_controller.md
  | .toggle => Sys2Proof.Machine.execToggle s
  | .thememode => Sys2Proof.Machine.execThememode s
  | .nexttheme => Sys2Proof.Machine.execNexttheme s
  | .nextbright => Sys2Proof.Machine.execNextbright s
  | .nextspeed => Sys2Proof.Machine.execNextspeed s
  | .settheme id => Sys2Proof.Machine.execSettheme id s
  | .sendkeys => Sys2Proof.Machine.execSendkeys s
  | .sendmusic n => Sys2Proof.Machine.execSendmusic n s
  | .getthemeid => Sys2Proof.Machine.execGetthemeid s
  | .setkeys n => Sys2Proof.Machine.execSetkeys n s
  | .btmode mode => Sys2Proof.Machine.execBtmode mode s
  | .ledcpoll k len => Sys2Proof.Machine.execLedcpoll k len s
  -- the wire frames of 30_encoding.md rule R99
  | .frameThemeModeReassert => Sys2Proof.Machine.execFrameThemeModeReassert s
  | .frameThemeModeSet id => Sys2Proof.Machine.execFrameThemeModeSet id s
  | .frameConfigCmdTheme => Sys2Proof.Machine.execFrameConfigCmdTheme s
  | .frameConfigCmdBrightness => Sys2Proof.Machine.execFrameConfigCmdBrightness s
  | .frameConfigCmdSpeed => Sys2Proof.Machine.execFrameConfigCmdSpeed s
  | .frameKey packed => Sys2Proof.Machine.execFrameKey packed s
  | .frameMusic payload => Sys2Proof.Machine.execFrameMusic payload s
  | .frameGetThemeId => Sys2Proof.Machine.execFrameGetThemeId s
  | .frameSetIndividualKeys payload => Sys2Proof.Machine.execFrameSetIndividualKeys payload s
  | .frameSetIndividualKeysBluetooth recs => Sys2Proof.Machine.execFrameSetIndividualKeysBluetooth recs s
  | .frameAckThemeMode data => Sys2Proof.Machine.execFrameAckThemeMode data s
  | .frameAckConfigCmd data => Sys2Proof.Machine.execFrameAckConfigCmd data s
  | .frameAckSetIndividualKeys data => Sys2Proof.Machine.execFrameAckSetIndividualKeys data s
  | .frameOther t o data => Sys2Proof.Machine.execFrameOther t o data s

end Sys2Proof.Machine
end

