-- ==== Sys2Proof/Machine/Port.lean ====
section
/-! DEFINITION. The command port (rules R90, R110), the later steps of an operation (rule R72), what each input of a run does,
and where a table word is placed for the next step (log 3). -/
namespace Sys2Proof.Machine

/-- An encoded instruction that decodes to none: an illegal command word faults (rule R110); a byte list that is no frame of its direction
is refused (log 18). -/
def presentRejected (enc : Encoded) (why : Reject) (s : State) : Next :=
  match enc with
  | .command cw => conclude (s.raise (.illegalCommand cw))
  | .wireOut _ => .refused (.notAFrame why)
  | .wireIn _ => .refused (.notAFrame why)

/-- The top context presents an encoded instruction (rule R90), which it can do only between two operations. -/
def presentStep (enc : Encoded) (s : State) : Next :=
  if s.topOp = none then
    match decode s.cfg enc with
    | .ok i => exec i s
    | .error why => presentRejected enc why s
  else .refused (.notEnabled .context)

/-- A later step of an operation. -/
def resumePending (p : Pending) (s : State) : Next :=
  match p with
  | .statusWrite dir e target d r => resumeStatusWrite dir e target d r s
  | .clearWrite dir e r => resumeClearWrite dir e r s
  | .pollFinish k len => resumePollFinish k len s
  | .pollParse j k len => resumePollParse j k len s
  | .pollRearm k len => resumePollRearm k len s

/-- The top context takes the next step of its operation (rule R72). -/
def resumeStep (s : State) : Next :=
  match s.topOp with
  | some p => resumePending p s
  | none => .refused (.notEnabled .context)

/-- The operation that a handler presents (rule R282). -/
def Entry.instr : Entry → Instr
  | .rxIrq k len => .ledcpoll k len
  | .txIrq => .txadv

/-- Taking an interrupt (rule R282): the handler's context is pushed and presents its operation, whose first step is taken. -/
def takeStep (e : Entry) (s : State) : Next :=
  match s.takeInterrupt e.handler with
  | .next s' => exec e.instr s'
  | .fault f => .fault f
  | .refused r => .refused r

/-- What an input does (rules R70, R281, R310). -/
def takeInput (i : Input) (s : State) : Next :=
  match i with
  | .present enc => presentStep enc s
  | .resume => resumeStep s
  | .take e => takeStep e s
  | .takeUnwired h => s.takeInterrupt h
  | .stagePay off b => stagePayStep off b s
  | .stageKey i pressed => stageKeyStep i pressed s
  | .dmaTx => dmaTxStep s
  | .dmaRx => dmaRxStep s
  | .peer b => peerStep b s
  | .usbHw e act => usbHwStep e act s
  | .directAccess buf => directAccessStep buf s
  | .reset p => .next (State.powerUp s.cfg p s.inputs s.freeTick)

/-- One step of the run: the next input is taken; with none left nothing moves (rule R312, log 4). A parameter record that breaks a
constraint of rule R9 is refused. -/
def runNext (s : State) : Next :=
  if s.cfg.valid then
    match s.inputs with
    | [] => .next s
    | i :: rest => takeInput i (s.withInputs rest)
  else .refused .badParameters

/-- `s` with an encoded instruction presented next by `Main`, between two operations (log 3). -/
def State.placeNext (s : State) (enc : Encoded) : State :=
  { s with inputs := .present enc :: s.inputs, handlers := [], mainOp := none }

end Sys2Proof.Machine
end

