-- ==== Sys2Proof/Machine/Step.lean ====
section
/-! DEFINITION. The step of the machine, and a table word placed where the next step takes it (log 3). -/
namespace Sys2Proof.Machine

/-- One step: the agent or context that the next input names takes one step (rules R70, R72). -/
def step (s : State) : Host.Outcome State Fault Refusal := runNext s

/-- `s` with the instruction of a table word presented next, so that `step` runs exactly it. -/
def State.withFetchWord (s : State) (nbits w : Nat) : State := s.placeNext (encodedOfTable nbits w)

end Sys2Proof.Machine
end

