-- ==== Sys2Proof/Safety.lean ====
section
/-! DEFINITION. The terms claims are stated in: what an operation's end or pause leaves of the context stack, the invariant of the
machine (rules R34, R35, R74, R281, R331), the final states (rule R46), the premises of rule R330 and the fairness of rule R179. -/
namespace Sys2Proof.Machine

/-! ## How an operation leaves the stack of contexts

What these say is unchanged never includes `IND`: rule R45 puts a claim about `IND` outside the spec (log 15). -/

/-- From `s` to `t` the top context's operation ended with result `r`: it got the result (rule R90) and, if it is a handler, it was
popped with the contexts below as they were (rules R281, R284). -/
def EndsWith (s t : State) (r : Result) : Prop :=
  t.answers = Answers.put s.answers s.top (some r)
    ∧ t.handlers = s.handlers.tail
    ∧ t.mainOp = if s.handlers = [] then none else s.mainOp

/-- From `s` to `t` the top context's operation reached a mark `step` of rule R12, holding `p`: no result yet, the stack as it was. -/
def PausesWith (s t : State) (p : Pending) : Prop :=
  t.topOp = some p ∧ t.top = s.top ∧ t.answers = Answers.put s.answers s.top none
    ∧ t.handlers.tail = s.handlers.tail ∧ t.handlers.map Active.handler = s.handlers.map Active.handler
    ∧ (s.handlers ≠ [] → t.mainOp = s.mainOp)

/-- Nothing of the block differs (`IND` apart: rule R45): the results and the stack of contexts may. -/
def KeepsBlock (s t : State) : Prop :=
  t = { s with ind := t.ind, answers := t.answers, handlers := t.handlers, mainOp := t.mainOp }

/-- From `s` to `t` the top context's operation raised `f` (rule R271): the result is the fault, its code is in `FAULT`, nothing else
of the block changed. -/
def Raises (s t : State) (f : FaultRecord) : Prop :=
  EndsWith s t (.fault f) ∧ (∀ g, g ∈ t.faults ↔ g = f ∨ g ∈ s.faults)
    ∧ t = { s with ind := t.ind, faults := t.faults, answers := t.answers, handlers := t.handlers, mainOp := t.mainOp }

/-- From `s` to `t` a frame with header `h`, `o` and payload `p` was accepted into the transmit slot (rule R160): its bytes stand in
`TXB` from 0, the bytes above as before, the slot holds it, nothing else of the block changed. -/
def AcceptsFrame (s t : State) (h o : Byte) (p : List Byte) : Prop :=
  t.tx = ⟨.inFlight, 3 + p.length, 0⟩
    ∧ Memory.read t.txb 0 = h ∧ (Memory.read t.txb 1).toNat = 1 + p.length ∧ Memory.read t.txb 2 = o
    ∧ (∀ i, i < p.length → Memory.read t.txb (3 + i) = p.getD i 0)
    ∧ (∀ a, 3 + p.length ≤ a → Memory.read t.txb a = Memory.read s.txb a)
    ∧ t = { s with ind := t.ind, tx := t.tx, txb := t.txb, answers := t.answers, handlers := t.handlers, mainOp := t.mainOp }

/-- Instruction `i` does on `s` what SEND does with header `h`, `o` and payload `p` (rules R160, R161, R230, R273): a payload past
`MAXPAY` raises SendTooLong, else a slot that is not empty answers WouldBlock with nothing changed, else the frame is
accepted and the result is `Ok`. -/
def BehavesAsSend (i : Instr) (s : State) (h o : Byte) (p : List Byte) : Prop :=
  (s.cfg.maxPay < p.length → ∃ t, exec i s = .next t ∧ Raises s t (.sendTooLong p.length))
    ∧ (p.length ≤ s.cfg.maxPay → s.tx.st ≠ .empty → ∃ t, exec i s = .next t ∧ EndsWith s t .wouldBlock ∧ KeepsBlock s t)
    ∧ (p.length ≤ s.cfg.maxPay → s.tx.st = .empty → ∃ t, exec i s = .next t ∧ EndsWith s t .ok ∧ AcceptsFrame s t h o p)

/-- From `s` to `t` the pair `(h, o)` was dispatched (rules R213 to R216): outside the acknowledgement class `LogDrop` is appended;
inside it `LogAck` is, as `LOG_ACKS` allows, either way when it is free; nothing else of the block changed (the count of the free
values used apart). -/
def DispatchesPair (s t : State) (h o : Byte) : Prop :=
  (¬(h = s.cfg.mtLed ∧ (o = s.cfg.opAckThemeMode ∨ o = s.cfg.opAckConfigCmd ∨ o = s.cfg.opAckSetIndividualKeys)) →
      t.log = s.log ++ [.drop h o] ∧ t.freeTick = s.freeTick)
    ∧ (h = s.cfg.mtLed ∧ (o = s.cfg.opAckThemeMode ∨ o = s.cfg.opAckConfigCmd ∨ o = s.cfg.opAckSetIndividualKeys) →
      (s.cfg.logAcks = .always → t.log = s.log ++ [.ack o])
        ∧ (s.cfg.logAcks = .never → t.log = s.log)
        ∧ (t.log = s.log ∨ t.log = s.log ++ [.ack o]))

/-- Instruction `i` on `s` ends with `Ok` after dispatching the pair `(h, o)`; only `LOG` changed. -/
def BehavesAsDispatch (i : Instr) (s : State) (h o : Byte) : Prop :=
  ∃ t, exec i s = .next t ∧ EndsWith s t .ok ∧ DispatchesPair s t h o
    ∧ t = { s with
        ind := t.ind, log := t.log, freeTick := t.freeTick, answers := t.answers, handlers := t.handlers, mainOp := t.mainOp }

/-- An instruction that ends in a SEND (rules R160, R230): the operations of rule R272's first clause, and the outgoing frames. -/
def isSend : Instr → Bool
  | .send _ _ _ => true
  | .toggle => true
  | .thememode => true
  | .nexttheme => true
  | .nextbright => true
  | .nextspeed => true
  | .settheme _ => true
  | .sendkeys => true
  | .sendmusic _ => true
  | .getthemeid => true
  | .setkeys _ => true
  | .btmode _ => true
  | .frameThemeModeReassert => true
  | .frameThemeModeSet _ => true
  | .frameConfigCmdTheme => true
  | .frameConfigCmdBrightness => true
  | .frameConfigCmdSpeed => true
  | .frameKey _ => true
  | .frameMusic _ => true
  | .frameGetThemeId => true
  | .frameSetIndividualKeys _ => true
  | .frameSetIndividualKeysBluetooth _ => true
  | _ => false

/-- Of a register that goes from `r` to `n`, only bits under `mask` changed. -/
def OnlyUnder (mask r n : Reg) : Prop := n &&& ~~~mask = r &&& ~~~mask

/-- From `s` to `t`, with `rest` the inputs left, register `e` changed under `mask` only, and nothing else of the block did. -/
def ChangesRegisterOnly (s t : State) (rest : List Input) (e : Nat) (mask : Reg) : Prop :=
  OnlyUnder mask (s.eprAt e) (t.eprAt e) ∧ (∀ e', e' ≠ e → t.eprAt e' = s.eprAt e')
    ∧ t = { s with ind := t.ind, inputs := rest, epr := t.epr }

/-! ## Final states -/

/-- "A state with a non-empty `FAULT` is never a final state of a run" (rule R46). -/
def State.mayBeFinal (s : State) : Bool := s.faults.isEmpty

/-! ## The invariant -/

/-- The operations in progress, of every context on the stack. -/
def State.pendings (s : State) : List Pending := s.mainOp.toList ++ s.handlers.filterMap Active.op

/-- A memory in canonical form whose entries lie inside its space. -/
def memoryOk (m : Memory) (size : Nat) : Bool := Memory.wf m && Memory.below m size

/-- Every space has its size and every memory its canonical form (rules R23, R33, R36, R38, R60). -/
def State.storageOk (s : State) : Bool :=
  s.epr.length == s.cfg.nEp && s.rxb.length == s.cfg.nRxBuf && s.ks.length == s.cfg.nKeys
    && memoryOk s.txb s.cfg.txCap && s.rxb.all (fun m => memoryOk m s.cfg.rxCap) && memoryOk s.pay s.cfg.payCap

/-- The transmit slot (rules R32, R34): its bounds, and in `TXB` a frame of its length (the length byte counts the opcode and the payload). -/
def State.txOk (s : State) : Bool :=
  match s.tx.st with
  | .empty => true
  | .inFlight =>
    decide (s.tx.pos < s.tx.len) && decide (s.tx.len ≤ s.cfg.txCap) && (Memory.read s.txb 1).toNat + 2 == s.tx.len
      && decide (3 ≤ s.tx.len)
  | .complete =>
    s.tx.pos == s.tx.len && decide (s.tx.len ≤ s.cfg.txCap) && (Memory.read s.txb 1).toNat + 2 == s.tx.len
      && decide (3 ≤ s.tx.len)

/-- The receive slot (rule R35). -/
def State.rxOk (s : State) : Bool :=
  match s.rx.st with
  | .empty => true
  | .inFlight => decide (s.rx.cnt < s.rx.len) && decide (s.rx.len ≤ s.cfg.rxCap) && decide (s.rx.buf < s.cfg.nRxBuf)
  | .complete =>
    s.rx.cnt == s.rx.len && decide (1 ≤ s.rx.len) && decide (s.rx.len ≤ s.cfg.rxCap) && decide (s.rx.buf < s.cfg.nRxBuf)

/-- The stack of contexts (rule R281): no handler twice, and each handler's priority above that of the handler it preempted. -/
def State.stackOk (s : State) : Bool :=
  decide (s.handlers.map Active.handler).Nodup
    && decide (s.handlers.Pairwise fun x y => priorityOf s.cfg y.handler < priorityOf s.cfg x.handler)

/-- What an operation in progress holds lies in range, and the plain bits it read are those the register still has (rules R133,
R331 item 4). -/
def State.pendingOk (s : State) : Pending → Bool
  | .statusWrite _ e _ _ r => endpointOk s.cfg e && (r &&& s.cfg.mRw) == (s.eprAt e.toNat &&& s.cfg.mRw)
  | .clearWrite _ e r => endpointOk s.cfg e && (r &&& s.cfg.mRw) == (s.eprAt e.toNat &&& s.cfg.mRw)
  | .pollFinish k len => bufferOk s.cfg k && lengthOk s.cfg len
  | .pollParse j k len => decide (j < s.cfg.nRxBuf) && bufferOk s.cfg k && lengthOk s.cfg len
  | .pollRearm k len => bufferOk s.cfg k && lengthOk s.cfg len

/-- A context whose operation is in progress has been given no result for it (rule R90). -/
def State.answersOk (s : State) : Bool :=
  (s.mainOp.isNone || (Answers.of s.answers .main).isNone)
    && s.handlers.all fun a => a.op.isNone || (Answers.of s.answers (contextOf a.handler)).isNone

/-- The invariant: the parameters meet rule R9, the storage, the slots, the stack, the operations in progress, the results and the fault
set are as the rules say. -/
def State.inv (s : State) : Bool :=
  s.cfg.valid && s.storageOk && s.txOk && s.rxOk && s.stackOk && s.pendings.all s.pendingOk && s.answersOk
    && decide s.faults.Nodup

/-! ## What the next input is -/

/-- The next input is a reset. -/
def State.resetNext (s : State) : Bool :=
  match s.inputs with
  | .reset _ :: _ => true
  | _ => false

/-- The instruction that the next input presents, if it presents one: by the top context, or by the handler of an interrupt that the
input takes (rule R282). -/
def State.presentsNext (s : State) : Option Instr :=
  match s.inputs with
  | .present enc :: _ => if s.topOp = none then (decode s.cfg enc).toOption else none
  | .take e :: _ => if s.canTake e.handler then some e.instr else none
  | _ => none

/-- The context that presents it. -/
def State.presenterNext (s : State) : Context :=
  match s.inputs with
  | .take e :: _ => contextOf e.handler
  | _ => s.top

/-- The operation that the next input takes a later step of. -/
def State.resumesNext (s : State) : Option Pending :=
  match s.inputs with
  | .resume :: _ => s.topOp
  | _ => none

/-- The next input is a staging write outside `PAY` or `KS`: the one input that reaches outside a space (rule R61). -/
def State.stagesOutside (s : State) : Bool :=
  match s.inputs with
  | .stagePay off _ :: _ => decide (s.cfg.payCap ≤ off)
  | .stageKey i _ :: _ => decide (s.cfg.nKeys ≤ i)
  | _ => false

/-! ## The transmit side of a run (rule R331 items 6 and 7) -/

/-- The frame in the transmit slot, `TXB[0 .. TX.len]`. -/
def State.slotFrame (s : State) : List Byte := Memory.readBytes s.txb 0 s.tx.len

/-- The bytes of the frame in the slot that are still to go on the line. -/
def State.unsent (s : State) : List Byte :=
  match s.tx.st with
  | .inFlight => s.slotFrame.drop s.tx.pos
  | _ => []

/-- The frame that a step from `s` to `t` accepted into the slot, empty when it accepted none. -/
def acceptedBy (s t : State) : List Byte :=
  if s.tx.st = .empty ∧ t.tx.st ≠ .empty then t.slotFrame else []

/-- The bytes of the frames accepted in `k` steps from `s`, in order of acceptance. -/
def acceptedIn : Nat → State → List Byte
  | 0, _ => []
  | k + 1, s =>
    match step s with
    | .next t => acceptedBy s t ++ acceptedIn k t
    | _ => []

/-- No input of the run to come is a reset. -/
def State.noReset (s : State) : Bool :=
  s.inputs.all fun i =>
    match i with
    | .reset _ => false
    | _ => true

/-- The next input is a step of agent `UsbHw`. -/
def State.usbHwNext (s : State) : Bool :=
  match s.inputs with
  | .usbHw _ _ :: _ => true
  | _ => false

/-! ## The premises of rule R330: conditions of claims, never facts of the machine -/

/-- The endpoint an operation in progress has read and not yet written. -/
def Pending.endpoint : Pending → Option Byte
  | .statusWrite _ e _ _ _ => some e
  | .clearWrite _ e _ => some e
  | _ => none

/-- The endpoint of an EPSC operation. -/
def epscEndpoint : Instr → Option Byte
  | .settx e _ _ => some e
  | .setrx e _ _ => some e
  | .clrtx e => some e
  | .clrrx e => some e
  | _ => none

/-- The operations in progress below the top of the stack. -/
def State.pendingsBelow (s : State) : List Pending :=
  match s.handlers with
  | [] => []
  | _ :: rest => s.mainOp.toList ++ rest.filterMap Active.op

/-- The endpoint of the EPSC step that the next input takes, if it takes one. -/
def State.epscStepNext (s : State) : Option Byte :=
  match s.presentsNext with
  | some i => epscEndpoint i
  | none => s.resumesNext.bind Pending.endpoint

/-- `P_EPR_EXCL` (rule R330), at one step: no context below holds the read-modify-write window of the register that the next step touches. -/
def State.eprExcl (s : State) : Bool :=
  match s.epscStepNext with
  | some e => s.pendingsBelow.all fun p => p.endpoint != some e
  | none => true

/-- `P_EPR_QUIET(e, I)` (rule R330), at one step of the interval: the next step is not `UsbHw`'s on `EPR[e]`. -/
def State.eprQuiet (s : State) (e : Nat) : Bool :=
  match s.inputs with
  | .usbHw e' _ :: _ => e' != e
  | _ => true

/-- An operation that reads or writes none of `RX`, `RXB`, `TX`, `TXB`, `PAY`, `KS`, `LEDC.state`: the EPSC and DISPATCH. -/
def sparesTransport : Instr → Bool
  | .settx _ _ _ => true
  | .setrx _ _ _ => true
  | .clrtx _ => true
  | .clrrx _ => true
  | .dispatch _ _ => true
  | .frameAckThemeMode _ => true
  | .frameAckConfigCmd _ => true
  | .frameAckSetIndividualKeys _ => true
  | .frameOther _ _ _ => true
  | _ => false

/-- Whether an operation in progress is a LEDCPOLL. -/
def Pending.isPoll : Pending → Bool
  | .pollFinish _ _ => true
  | .pollParse _ _ _ => true
  | .pollRearm _ _ => true
  | _ => false

/-- `P_LT_EXCL` (rule R330), its first half, at one step: while a context is inside a LEDCPOLL, no other context presents an operation
on the transport. The context that presents is itself between operations, so every operation in progress is another's. -/
def State.ltExcl (s : State) : Bool :=
  match s.presentsNext with
  | some i => sparesTransport i || s.pendings.all fun p => !p.isPoll
  | none => true

/-- The two staging areas (rule R38). -/
inductive Staging where
  | pay
  | ks
deriving DecidableEq, Repr

/-- The commands that read a staging area (rules R160, R243, R246, R248). -/
def readsStaging : Staging → Instr → Bool
  | .pay, .send _ _ _ => true
  | .pay, .sendmusic _ => true
  | .pay, .setkeys _ => true
  | .ks, .sendkeys => true
  | _, _ => false

/-- The context that the next input has write a staging area, and the area. -/
def State.stagesNext (s : State) : Option (Context × Staging) :=
  match s.inputs with
  | .stagePay _ _ :: _ => some (s.top, .pay)
  | .stageKey _ _ :: _ => some (s.top, .ks)
  | _ => none

/-- The next input has context `c` present a command that reads area `a`. -/
def State.readsNext (s : State) (c : Context) (a : Staging) : Prop :=
  s.presenterNext = c ∧ ∃ i, s.presentsNext = some i ∧ readsStaging a i = true

/-- In the steps of a run from `m` to `n` context `c` is between writing area `a`, at `m`, and presenting the command that reads it,
at `n`: the first it presents that reads `a`, with no reset between. -/
def StagedFrom (run : Nat → State) (c : Context) (a : Staging) (m n : Nat) : Prop :=
  (run m).stagesNext = some (c, a) ∧ (run n).readsNext c a
    ∧ ∀ l, m < l → l < n → ¬(run l).readsNext c a ∧ (run l).resetNext = false

/-- `P_LT_EXCL` (rule R330) over a run: its first half at every step, and its second: while a context is between writing `PAY` or `KS`
and presenting the command that reads it, no other context presents an operation on the transport. -/
def LtExcl (run : Nat → State) : Prop :=
  (∀ n, (run n).ltExcl = true)
    ∧ ∀ c a m n, StagedFrom run c a m n → ∀ l, m < l → l < n → (run l).presenterNext ≠ c →
        ∀ i, (run l).presentsNext = some i → sparesTransport i = true

/-! ## The wiring of rule R282 -/

/-- The next input does not take an interrupt in another way than rule R282 has it: without its operation. -/
def State.wiredAsR282 (s : State) : Bool :=
  match s.inputs with
  | .takeUnwired _ :: _ => false
  | _ => true

/-- Every handler on the stack is `RxIrq` inside its LEDCPOLL: under the wiring of rule R282 TXADV, one step, never leaves `TxIrq` there. -/
def State.handlersWired (s : State) : Bool :=
  s.handlers.all fun a => a.handler == .rxIrq && a.op.any Pending.isPoll

/-! ## Fairness (rule R179) -/

/-- Weak fairness for `DmaTx` and `DmaRx` over an infinite run, asked when `LINK_LIVE` is true (rule R179): an agent whose step
stays enabled eventually takes it. -/
def LinkFair (run : Nat → State) : Prop :=
  (run 0).cfg.linkLive = true →
    (∀ n, (∀ m, n ≤ m → (run m).tx.st = .inFlight) → ∃ m, n ≤ m ∧ (run m).inputs.head? = some .dmaTx)
      ∧ ∀ n, (∀ m, n ≤ m → (run m).rxLine ≠ []) → ∃ m, n ≤ m ∧ (run m).inputs.head? = some .dmaRx

end Sys2Proof.Machine
end

