-- ==== Sys2Proof/Certificates/Slice0/Obligations.lean ====
section
/-! DEFINITION. The statements for the provers, one definition each; OBLIGATIONS.json lists them. They hold for every parameter record that
meets the constraints of rule R9, not for REF alone. None of them says that `IND` is kept: every record equation leaves it open, since
rule R45 puts a claim about `IND` outside the spec (log 15). -/
open Sys2Proof Sys2Proof.Machine

/-! ## Encoding and decoding -/

/-- Decoding the encoding of a well-formed instruction gives it back, every operand at every value (rules R91 to R99). That a frame is
presented with its direction, and that a SetIndividualKeys frame of the Bluetooth shape is the Bluetooth row alone (`btShaped` in
`Instr.wf`), are the model's choices (log 18, log 19). -/
def Obligations.DecodeOfEncodeIsTheInstruction : Prop :=
  ∀ (c : Config) (i : Instr), c.valid = true → i.wf c = true → decode c (encode c i) = .ok i

/-- A command word that decodes is the encoding of what it decodes to: no bit of a legal word is ignored (rules R91, R110). -/
def Obligations.EncodeOfDecodedWordIsTheWord : Prop :=
  ∀ (c : Config) (cw : CommandWord) (i : Instr), decode c (.command cw) = .ok i → encode c i = .command cw

/-- A command word decodes exactly when it selects a row of the table by mask and match, and it selects at most one (rules R96, R110). -/
def Obligations.WordIsLegalExactlyOnATableRow : Prop :=
  ∀ cw : CommandWord,
    ((∃ i, decodeCommand cw = .ok i) ↔ ∃ row ∈ commandRows, cw &&& row.mask = row.pattern)
      ∧ ∀ row ∈ commandRows, ∀ row' ∈ commandRows,
          cw &&& row.mask = row.pattern → cw &&& row'.mask = row'.pattern → row = row'

/-- Words of 95_test_vectors.md read as the spec reads them. -/
def Obligations.SampleWordsDecode : Prop :=
  decodeCommand 0x01000301 = .ok (.settx 0 3 .set) ∧ decodeCommand 0x02000300 = .ok (.setrx 0 3 .keep)
    ∧ decodeCommand 0x04000000 = .ok (.clrrx 0) ∧ decodeCommand 0x1009063D = .ok (.send 9 6 61)
    ∧ decodeCommand 0x11000040 = .ok (.receive 0 64) ∧ decodeCommand 0x19098100 = .ok (.dispatch 9 0x81)
    ∧ decodeCommand 0x25030000 = .ok (.settheme 3) ∧ decodeCommand 0x2B000004 = .ok (.ledcpoll 0 4)
    ∧ decodeCommand 0x01000400 = .error .reservedB ∧ decodeCommand 0x01000002 = .error .reservedC
    ∧ decodeCommand 0x05000000 = .error (.unknownOpc 5)

/-! ## The step -/

/-- A step whose next input presents an encoding that decodes to `i`, by a top context between operations, is `exec` of `i` on the state with that
input taken; when the next input has the top context go on with an operation in progress, the step is that operation's next step. -/
def Obligations.StepRunsTheDecodedInstruction : Prop :=
  ∀ (s : State) (rest : List Input), s.cfg.valid = true →
    (∀ (enc : Encoded) (i : Instr), s.inputs = .present enc :: rest → s.topOp = none → decode s.cfg enc = .ok i →
      step s = exec i (s.withInputs rest))
    ∧ ∀ p : Pending, s.inputs = .resume :: rest → s.topOp = some p → step s = resumePending p (s.withInputs rest)

/-- A parameter record that breaks a constraint is refused (rule R9); with no input left nothing moves (log 4: the model's choice). -/
def Obligations.StepRefusesBadParametersAndRests : Prop :=
  ∀ s : State, (s.cfg.valid = false → step s = .refused .badParameters)
    ∧ (s.cfg.valid = true → s.inputs = [] → ∃ t, step s = .next t ∧ t = { s with ind := t.ind })

/-- An illegal command word raises IllegalCommand and changes no other state (rule R110). -/
def Obligations.IllegalWordRaisesIllegalCommand : Prop :=
  ∀ (s : State) (cw : CommandWord) (rest : List Input), s.cfg.valid = true → s.inputs = .present (.command cw) :: rest →
    s.topOp = none → (∀ row ∈ commandRows, cw &&& row.mask ≠ row.pattern) →
    ∃ t, step s = .next t ∧ Raises (s.withInputs rest) t (.illegalCommand cw)

/-! ## The endpoint control register -/

/-- The five laws of rule R132. -/
def Obligations.StatusWriteLaws : Prop :=
  ∀ (c : Config) (r : Reg) (dir : Dir) (target : StatusCode) (d : DtogOp), c.valid = true →
    let n := hwWrite c r (statusWrite c r dir target d)
    statusOf c n dir = target
      ∧ statusOf c n (otherDir dir) = statusOf c r (otherDir dir)
      ∧ n &&& (c.mCtrTx ||| c.mCtrRx) = r &&& (c.mCtrTx ||| c.mCtrRx)
      ∧ n &&& c.mKeep = r &&& c.mKeep
      ∧ dtogBitOf c n (otherDir dir) = dtogBitOf c r (otherDir dir)
      ∧ (d = .keep → dtogBitOf c n dir = dtogBitOf c r dir)
      ∧ (d = .set → c.dtogW1 = .toggle → dtogBitOf c n dir = !dtogBitOf c r dir)
      ∧ (d = .set → c.dtogW1 = .set → dtogBitOf c n dir = true)

/-- The closed form that rule R131 gives of StatusWrite, through CTW (rule R130). -/
def Obligations.StatusWriteIsKeepAndToggle : Prop :=
  ∀ (c : Config) (r : Reg) (dir : Dir) (target : StatusCode) (d : DtogOp), c.valid = true →
    statusWrite c r dir target d
      = (r &&& c.mKeep) ||| ctw r target (statMask c dir) (statLo c dir)
          ||| (match d with
               | .keep => 0
               | .set => dtogMask c dir)
          ||| c.mCtrTx ||| c.mCtrRx

/-- The laws of rule R144: ClearWrite onto the content it was computed from. -/
def Obligations.ClearWriteLaws : Prop :=
  ∀ (c : Config) (r : Reg) (dir : Dir), c.valid = true →
    let n := hwWrite c r (clearWrite c r dir)
    flagOf c n dir = false
      ∧ flagOf c n (otherDir dir) = flagOf c r (otherDir dir)
      ∧ (∀ x, statusOf c n x = statusOf c r x)
      ∧ (∀ x, dtogBitOf c n x = dtogBitOf c r x)
      ∧ n &&& c.mKeep = r &&& c.mKeep

/-- What holds of the write values on ANY content, for every interleaving (rule R331 items 1 to 3): a status write clears no flag, a
clear write leaves the other flag, every status and data-toggle bit, and no write changes a read-only bit. The named flag ends 0
even when it was set after the read (rule R140). A status that changed in the window is flipped from its new value by the old
difference, so the field ends at the target only when it did not change (rule R133). -/
def Obligations.WriteValuesInTheWindow : Prop :=
  ∀ (c : Config) (old r w : Reg) (dir x : Dir) (target : StatusCode) (d : DtogOp), c.valid = true →
    flagOf c (hwWrite c old (statusWrite c r dir target d)) x = flagOf c old x
      ∧ flagOf c (hwWrite c old (clearWrite c r dir)) dir = false
      ∧ flagOf c (hwWrite c old (clearWrite c r dir)) (otherDir dir) = flagOf c old (otherDir dir)
      ∧ statusOf c (hwWrite c old (clearWrite c r dir)) x = statusOf c old x
      ∧ dtogBitOf c (hwWrite c old (clearWrite c r dir)) x = dtogBitOf c old x
      ∧ hwWrite c old w &&& c.mRo = old &&& c.mRo
      ∧ statusOf c (hwWrite c old (statusWrite c r dir target d)) dir = statusOf c old dir ^^^ statusOf c r dir ^^^ target
      ∧ (statusOf c (hwWrite c old (statusWrite c r dir target d)) dir = target ↔ statusOf c old dir = statusOf c r dir)

/-- A write value replayed flips the status bits back; the whole operation repeated, which reads again, leaves the register as it is
when the data-toggle operand is `None` (rule R321). -/
def Obligations.ReplayUndoesAndRepeatIsSafe : Prop :=
  ∀ (c : Config) (r : Reg) (dir : Dir) (target : StatusCode) (d : DtogOp), c.valid = true →
    let w := statusWrite c r dir target d
    let n := hwWrite c r w
    statusOf c (hwWrite c n w) dir = statusOf c r dir
      ∧ hwWrite c n (statusWrite c n dir target .keep) = n

/-- SETTX and SETRX (rules R134, R136): a first step that reads and pauses, or BadEndpoint; a second step that writes
StatusWrite of the value read through HwWrite; no other register and nothing else of the block changes. -/
def Obligations.SetStatusReadsThenWrites : Prop :=
  ∀ (s : State) (e : Byte) (target : StatusCode) (d : DtogOp), s.inv = true →
    (s.cfg.nEp ≤ e.toNat →
      (∃ t, exec (.settx e target d) s = .next t ∧ Raises s t (.badEndpoint e))
        ∧ ∃ t, exec (.setrx e target d) s = .next t ∧ Raises s t (.badEndpoint e))
    ∧ (e.toNat < s.cfg.nEp →
      (∃ t, exec (.settx e target d) s = .next t ∧ PausesWith s t (.statusWrite .tx e target d (s.eprAt e.toNat))
        ∧ KeepsBlock s t)
      ∧ (∃ t, exec (.setrx e target d) s = .next t ∧ PausesWith s t (.statusWrite .rx e target d (s.eprAt e.toNat))
        ∧ KeepsBlock s t))
    ∧ ∀ (dir : Dir) (r : Reg), s.topOp = some (.statusWrite dir e target d r) →
      ∃ t, resumeStep s = .next t ∧ EndsWith s t .ok
        ∧ t.eprAt e.toNat = hwWrite s.cfg (s.eprAt e.toNat) (statusWrite s.cfg r dir target d)
        ∧ (∀ e', e' ≠ e.toNat → t.eprAt e' = s.eprAt e')
        ∧ t = { s with ind := t.ind, epr := t.epr, answers := t.answers, handlers := t.handlers, mainOp := t.mainOp }

/-- CLRTX and CLRRX (rules R140, R142), likewise with ClearWrite. -/
def Obligations.ClearFlagReadsThenWrites : Prop :=
  ∀ (s : State) (e : Byte), s.inv = true →
    (s.cfg.nEp ≤ e.toNat →
      (∃ t, exec (.clrtx e) s = .next t ∧ Raises s t (.badEndpoint e))
        ∧ ∃ t, exec (.clrrx e) s = .next t ∧ Raises s t (.badEndpoint e))
    ∧ (e.toNat < s.cfg.nEp →
      (∃ t, exec (.clrtx e) s = .next t ∧ PausesWith s t (.clearWrite .tx e (s.eprAt e.toNat)) ∧ KeepsBlock s t)
      ∧ (∃ t, exec (.clrrx e) s = .next t ∧ PausesWith s t (.clearWrite .rx e (s.eprAt e.toNat)) ∧ KeepsBlock s t))
    ∧ ∀ (dir : Dir) (r : Reg), s.topOp = some (.clearWrite dir e r) →
      ∃ t, resumeStep s = .next t ∧ EndsWith s t .ok
        ∧ t.eprAt e.toNat = hwWrite s.cfg (s.eprAt e.toNat) (clearWrite s.cfg r dir)
        ∧ (∀ e', e' ≠ e.toNat → t.eprAt e' = s.eprAt e')
        ∧ t = { s with ind := t.ind, epr := t.epr, answers := t.answers, handlers := t.handlers, mainOp := t.mainOp }

/-- With nothing between the two steps, SETTX and SETRX end at the target and CLRTX and CLRRX with their flag clear, with every other
field of the register as it was (rules R132, R134, R136, R140, R142, R144), but that a SETTX or SETRX with `d = Set` moves its own
data-toggle bit as law 5 of rule R132 has it. With steps between, under the premises `P_EPR_EXCL` and `P_EPR_QUIET` of rule R330, no
step but the operation's own second one, or a reset, changes the register inside the window. -/
def Obligations.UndisturbedEpscOperationsReachTheirGoal : Prop :=
  (∀ (s : State) (e : Byte) (target : StatusCode) (d : DtogOp) (dir : Dir), s.inv = true → e.toNat < s.cfg.nEp →
    (∃ t u, exec (match dir with | .tx => .settx e target d | .rx => .setrx e target d) s = .next t ∧ resumeStep t = .next u
      ∧ EndsWith s u .ok
      ∧ statusOf s.cfg (u.eprAt e.toNat) dir = target
      ∧ statusOf s.cfg (u.eprAt e.toNat) (otherDir dir) = statusOf s.cfg (s.eprAt e.toNat) (otherDir dir)
      ∧ (∀ x, flagOf s.cfg (u.eprAt e.toNat) x = flagOf s.cfg (s.eprAt e.toNat) x)
      ∧ dtogBitOf s.cfg (u.eprAt e.toNat) (otherDir dir) = dtogBitOf s.cfg (s.eprAt e.toNat) (otherDir dir)
      ∧ (d = .keep → dtogBitOf s.cfg (u.eprAt e.toNat) dir = dtogBitOf s.cfg (s.eprAt e.toNat) dir)
      ∧ (d = .set → s.cfg.dtogW1 = .toggle → dtogBitOf s.cfg (u.eprAt e.toNat) dir = !dtogBitOf s.cfg (s.eprAt e.toNat) dir)
      ∧ (d = .set → s.cfg.dtogW1 = .set → dtogBitOf s.cfg (u.eprAt e.toNat) dir = true)
      ∧ u.eprAt e.toNat &&& s.cfg.mKeep = s.eprAt e.toNat &&& s.cfg.mKeep)
    ∧ (∃ t u, exec (match dir with | .tx => .clrtx e | .rx => .clrrx e) s = .next t ∧ resumeStep t = .next u
      ∧ EndsWith s u .ok
      ∧ flagOf s.cfg (u.eprAt e.toNat) dir = false
      ∧ flagOf s.cfg (u.eprAt e.toNat) (otherDir dir) = flagOf s.cfg (s.eprAt e.toNat) (otherDir dir)
      ∧ (∀ x, statusOf s.cfg (u.eprAt e.toNat) x = statusOf s.cfg (s.eprAt e.toNat) x)
      ∧ (∀ x, dtogBitOf s.cfg (u.eprAt e.toNat) x = dtogBitOf s.cfg (s.eprAt e.toNat) x)
      ∧ u.eprAt e.toNat &&& s.cfg.mKeep = s.eprAt e.toNat &&& s.cfg.mKeep))
  ∧ ∀ (s t : State) (p : Pending) (e : Byte), p.endpoint = some e →
    p ∈ s.pendingsBelow ∨ (s.topOp = some p ∧ s.resumesNext = none) →
    s.eprExcl = true → s.eprQuiet e.toNat = true → s.resetNext = false → step s = .next t → t.eprAt e.toNat = s.eprAt e.toNat

/-- Agent UsbHw clears no flag, changes no plain bit and no other register, and touches nothing else (rule R150). -/
def Obligations.UsbHwKeepsFlagsAndPlainBits : Prop :=
  ∀ (s t : State) (e : Nat) (act : UsbAction) (rest : List Input), s.cfg.valid = true →
    s.inputs = .usbHw e act :: rest → step s = .next t →
    (∀ x, flagOf s.cfg (s.eprAt e) x = true → flagOf s.cfg (t.eprAt e) x = true)
      ∧ t.eprAt e &&& s.cfg.mRw = s.eprAt e &&& s.cfg.mRw
      ∧ (∀ e', e' ≠ e → t.eprAt e' = s.eprAt e')
      ∧ t = { s with ind := t.ind, inputs := rest, epr := t.epr }

/-- What agent UsbHw can do (rule R150), one field a step (log 24): it sets a flag always; when `USBHW_MUTATES_STAT` is true it replaces
a status field or a data-toggle bit, or changes a read-only bit; each leaves every other bit of the register, every other register and
the rest of the block as they were. An action it does not have is refused by notEnabled, the model's choice (log 5). -/
def Obligations.UsbHwActionsTakeEffect : Prop :=
  ∀ (s : State) (e : Nat) (dir : Dir) (v : StatusCode) (b : Bool) (bit : Nat) (rest : List Input), s.inv = true → e < s.cfg.nEp →
    (s.inputs = .usbHw e (.setFlag dir) :: rest → ∃ t, step s = .next t ∧ flagOf s.cfg (t.eprAt e) dir = true
      ∧ ChangesRegisterOnly s t rest e (ctrMask s.cfg dir))
    ∧ (s.cfg.usbHwMutatesStat = true → s.inputs = .usbHw e (.setStatus dir v) :: rest →
      ∃ t, step s = .next t ∧ statusOf s.cfg (t.eprAt e) dir = v ∧ ChangesRegisterOnly s t rest e (statMask s.cfg dir))
    ∧ (s.cfg.usbHwMutatesStat = true → s.inputs = .usbHw e (.setDtog dir b) :: rest →
      ∃ t, step s = .next t ∧ dtogBitOf s.cfg (t.eprAt e) dir = b ∧ ChangesRegisterOnly s t rest e (dtogMask s.cfg dir))
    ∧ (s.cfg.usbHwMutatesStat = true → s.cfg.mRo.getLsbD bit = true → s.inputs = .usbHw e (.flipReadOnly bit) :: rest →
      ∃ t, step s = .next t ∧ (t.eprAt e).getLsbD bit = !(s.eprAt e).getLsbD bit
        ∧ ChangesRegisterOnly s t rest e ((1 : Reg) <<< bit))
    ∧ (s.cfg.usbHwMutatesStat = false → ∀ act ∈ [.setStatus dir v, .setDtog dir b, .flipReadOnly bit],
      s.inputs = .usbHw e act :: rest → step s = .refused (.notEnabled .usbHw))
    ∧ (s.cfg.mRo.getLsbD bit = false → s.inputs = .usbHw e (.flipReadOnly bit) :: rest →
      step s = .refused (.notEnabled .usbHw))

/-! ## The Link Transport -/

/-- SEND (rules R160, R161, R162): the payload is `PAY[0 .. n]`. -/
def Obligations.SendQueuesOneFrame : Prop :=
  ∀ (s : State) (t o n : Byte), s.inv = true → BehavesAsSend (.send t o n) s t o (Memory.readBytes s.pay 0 n.toNat)

/-- RECEIVE (rule R165), with its checks in the order of rule R273. -/
def Obligations.ReceiveArmsTheSlot : Prop :=
  ∀ (s : State) (k len : Byte),
    (s.cfg.nRxBuf ≤ k.toNat → ∃ t, exec (.receive k len) s = .next t ∧ Raises s t (.badBuffer k))
    ∧ (k.toNat < s.cfg.nRxBuf → len.toNat = 0 ∨ s.cfg.rxCap < len.toNat →
        ∃ t, exec (.receive k len) s = .next t ∧ Raises s t (.badLength len))
    ∧ (k.toNat < s.cfg.nRxBuf → 0 < len.toNat → len.toNat ≤ s.cfg.rxCap →
        (s.rx.st ≠ .empty → ∃ t, exec (.receive k len) s = .next t ∧ Raises s t .receiveBusy)
        ∧ (s.rx.st = .empty → ∃ t, exec (.receive k len) s = .next t ∧ EndsWith s t .ok
            ∧ t.rx = ⟨.inFlight, k.toNat, len.toNat, 0⟩
            ∧ t = { s with ind := t.ind, rx := t.rx, answers := t.answers, handlers := t.handlers, mainOp := t.mainOp }))

/-- POLL (rule R167): it changes nothing. -/
def Obligations.PollReportsTheReceiveSlot : Prop :=
  ∀ s : State,
    (s.rx.st = .empty → ∃ t, exec .poll s = .next t ∧ Raises s t .noTransfer)
    ∧ (s.rx.st = .inFlight → ∃ t, exec .poll s = .next t ∧ EndsWith s t .wouldBlock ∧ KeepsBlock s t)
    ∧ (s.rx.st = .complete → ∃ t, exec .poll s = .next t ∧ EndsWith s t .ok ∧ KeepsBlock s t)

/-- FINISH (rule R168): the buffer index is the result, the slot is empty, RXIRQ falls. -/
def Obligations.FinishReclaimsTheBuffer : Prop :=
  ∀ s : State,
    (s.rx.st = .empty → ∃ t, exec .finish s = .next t ∧ Raises s t .noTransfer)
    ∧ (s.rx.st = .inFlight → ∃ t, exec .finish s = .next t ∧ Raises s t .finishNotReady)
    ∧ (s.rx.st = .complete → ∃ t, exec .finish s = .next t ∧ EndsWith s t (.okBuffer s.rx.buf)
        ∧ t.rx.st = .empty ∧ t.rxIrqLine = false
        ∧ t = { s with ind := t.ind, rx := t.rx, answers := t.answers, handlers := t.handlers, mainOp := t.mainOp })

/-- TXADV (rule R170): only a complete transfer is released; TXIRQ falls. -/
def Obligations.TxadvReleasesTheSlot : Prop :=
  ∀ s : State,
    (s.tx.st = .complete → ∃ t, exec .txadv s = .next t ∧ EndsWith s t .ok ∧ t.tx.st = .empty ∧ t.txIrqLine = false
        ∧ t = { s with ind := t.ind, tx := t.tx, answers := t.answers, handlers := t.handlers, mainOp := t.mainOp })
    ∧ (s.tx.st = .inFlight → ∃ t, exec .txadv s = .next t ∧ EndsWith s t .wouldBlock ∧ KeepsBlock s t)
    ∧ (s.tx.st = .empty → ∃ t, exec .txadv s = .next t ∧ EndsWith s t .ok ∧ KeepsBlock s t)

/-- Agent DmaTx (rule R175): one byte of `TXB` onto the line, in buffer order; the last one completes the slot. A
DmaTx scheduled while no frame is in flight is refused, the model's choice (log 5). -/
def Obligations.DmaTxMovesOneByte : Prop :=
  ∀ (s : State) (rest : List Input), s.inv = true → s.inputs = .dmaTx :: rest →
    (s.tx.st = .inFlight → ∃ t, step s = .next t ∧ t.txLine = s.txLine ++ [Memory.read s.txb s.tx.pos]
      ∧ t.tx = ⟨if s.tx.pos + 1 = s.tx.len then .complete else .inFlight, s.tx.len, s.tx.pos + 1⟩
      ∧ t = { s with ind := t.ind, inputs := rest, txLine := t.txLine, tx := t.tx })
    ∧ (s.tx.st ≠ .inFlight → step s = .refused (.notEnabled .dmaTx))

/-- Agent DmaRx (rules R176, R177): the head of `RXLINE` is stored at the next offset of the armed buffer, which completes the slot by
count alone, and is dropped and counted while no transfer is in flight. A DmaRx scheduled with nothing on the line is refused, the
model's choice (log 5). -/
def Obligations.DmaRxStoresOrDropsOneByte : Prop :=
  ∀ (s : State) (rest : List Input), s.inv = true → s.inputs = .dmaRx :: rest →
    (∀ (b : Byte) (line : List Byte), s.rxLine = b :: line → s.rx.st = .inFlight →
      ∃ t, step s = .next t ∧ t.rxLine = line
        ∧ Memory.read (t.rxb.getD s.rx.buf []) s.rx.cnt = b
        ∧ (∀ a, a ≠ s.rx.cnt → Memory.read (t.rxb.getD s.rx.buf []) a = Memory.read (s.rxb.getD s.rx.buf []) a)
        ∧ (∀ k, k ≠ s.rx.buf → t.rxb.getD k [] = s.rxb.getD k [])
        ∧ t.rx = ⟨if s.rx.cnt + 1 = s.rx.len then .complete else .inFlight, s.rx.buf, s.rx.len, s.rx.cnt + 1⟩
        ∧ t = { s with ind := t.ind, inputs := rest, rxLine := t.rxLine, rxb := t.rxb, rx := t.rx })
    ∧ (∀ (b : Byte) (line : List Byte), s.rxLine = b :: line → s.rx.st ≠ .inFlight →
      ∃ t, step s = .next t ∧ t.rxLine = line ∧ t.lost = s.lost + 1
        ∧ t = { s with ind := t.ind, inputs := rest, rxLine := t.rxLine, lost := t.lost })
    ∧ (s.rxLine = [] → step s = .refused (.notEnabled .dmaRx))

/-- Agent Peer (rule R178): one byte of any value is appended to `RXLINE`; the step is always enabled. -/
def Obligations.PeerAppendsOneByte : Prop :=
  ∀ (s : State) (b : Byte) (rest : List Input), s.cfg.valid = true → s.inputs = .peer b :: rest →
    ∃ t, step s = .next t ∧ t.rxLine = s.rxLine ++ [b] ∧ t = { s with ind := t.ind, inputs := rest, rxLine := t.rxLine }

/-! ## The LED Link Protocol -/

/-- PARSE (rules R210, R211), with its checks in the order of rule R273; it writes nothing. -/
def Obligations.ParseReadsTheBuffer : Prop :=
  ∀ (s : State) (k : Byte), s.inv = true →
    let m := s.rxb.getD k.toNat []
    let l := (Memory.read m 1).toNat
    (s.cfg.nRxBuf ≤ k.toNat → ∃ t, exec (.parse k) s = .next t ∧ Raises s t (.badBuffer k))
    ∧ (k.toNat < s.cfg.nRxBuf → s.rx.st = .inFlight ∧ s.rx.buf = k.toNat →
        ∃ t, exec (.parse k) s = .next t ∧ Raises s t (.bufferNotOwned k.toNat))
    ∧ (k.toNat < s.cfg.nRxBuf → ¬(s.rx.st = .inFlight ∧ s.rx.buf = k.toNat) →
        (l = 0 → ∃ t, exec (.parse k) s = .next t ∧ Raises s t (.parseLengthZero k.toNat))
        ∧ (l ≠ 0 → l + 2 ≤ s.cfg.rxCap → ∃ t, exec (.parse k) s = .next t ∧ KeepsBlock s t
            ∧ EndsWith s t (.okMessage ⟨Memory.read m 0, Memory.read m 2, Memory.readBytes m 3 (l - 1)⟩))
        ∧ (l ≠ 0 → s.cfg.rxCap < l + 2 →
            (s.cfg.parseBoundsCheck = true →
              ∃ t, exec (.parse k) s = .next t ∧ Raises s t (.parseBounds k.toNat l))
            ∧ (s.cfg.parseBoundsCheck = false → exec (.parse k) s = .refused .parsePastBuffer)))

/-- The round trip of rule R202: a frame ENCODE made, standing at the start of a buffer the core owns, parses back to its parts,
whatever the rest of the buffer holds. -/
def Obligations.ParseOfAnEncodedFrame : Prop :=
  ∀ (s : State) (k t o : Byte) (p : List Byte), s.inv = true → k.toNat < s.cfg.nRxBuf →
    ¬(s.rx.st = .inFlight ∧ s.rx.buf = k.toNat) → p.length ≤ min s.cfg.maxPay (s.cfg.rxCap - 3) →
    Memory.readBytes (s.rxb.getD k.toNat []) 0 (3 + p.length) = encodeFrame t o p →
    ∃ u, exec (.parse k) s = .next u ∧ EndsWith s u (.okMessage ⟨t, o, p⟩) ∧ KeepsBlock s u

/-- DISPATCH (rules R213, R214, R216): total, and it writes `LOG` alone. -/
def Obligations.DispatchLogsOrDrops : Prop :=
  ∀ (s : State) (t o : Byte), BehavesAsDispatch (.dispatch t o) s t o

/-! ## The LED Controller -/

/-- THEMEMODE, SETTHEME (rules R233, R234), NEXTTHEME, NEXTBRIGHT, NEXTSPEED (rules R236 to R238) and GETTHEMEID (rule R247); LEDC.state is
not touched. -/
def Obligations.FixedFrameCommandsSend : Prop :=
  ∀ s : State, s.inv = true →
    BehavesAsSend .thememode s s.cfg.mtLed s.cfg.opThemeMode []
    ∧ (∀ id : Byte, BehavesAsSend (.settheme id) s s.cfg.mtLed s.cfg.opThemeMode [id])
    ∧ BehavesAsSend .nexttheme s s.cfg.mtLed s.cfg.opConfigCmd [1, 0, 0]
    ∧ BehavesAsSend .nextbright s s.cfg.mtLed s.cfg.opConfigCmd [0, 0, 1]
    ∧ BehavesAsSend .nextspeed s s.cfg.mtLed s.cfg.opConfigCmd [0, 1, 0]
    ∧ BehavesAsSend .getthemeid s s.cfg.mtLed s.cfg.opGetThemeId []

/-- SENDMUSIC and SETKEYS (rules R246, R248): the payload is `PAY[0 .. n]`, not inspected. -/
def Obligations.PayloadCommandsSend : Prop :=
  ∀ (s : State) (n : Byte), s.inv = true →
    BehavesAsSend (.sendmusic n) s s.cfg.mtLed s.cfg.opMusic (Memory.readBytes s.pay 0 n.toNat)
    ∧ BehavesAsSend (.setkeys n) s s.cfg.mtLed s.cfg.opSetIndividualKeys (Memory.readBytes s.pay 0 n.toNat)

/-- SENDKEYS (rule R243). -/
def Obligations.SendkeysSendsThePackedKeys : Prop :=
  ∀ s : State, s.inv = true → BehavesAsSend .sendkeys s s.cfg.mtLed s.cfg.opKey (pack s.cfg s.ks)

/-- Pack(KS) (rule R244): `ceil(N_KEYS / 8)` bytes, key `i` at its bit of byte `i div 8`, bits with no key 0. -/
def Obligations.PackPlacesEveryKey : Prop :=
  ∀ (c : Config) (ks : List Bool),
    (pack c ks).length = (c.nKeys + 7) / 8
    ∧ (∀ i, i < c.nKeys → ((pack c ks).getD (i / 8) 0).getLsbD (if c.packLsbFirst then i % 8 else 7 - i % 8) = ks.getD i false)
    ∧ ∀ i, c.nKeys ≤ i → i < 8 * ((c.nKeys + 7) / 8) →
        ((pack c ks).getD (i / 8) 0).getLsbD (if c.packLsbFirst then i % 8 else 7 - i % 8) = false

/-- BTMODE (rule R250): BadMode for a mode that is none of the three, before the slot is looked at; else a SEND of 52 bytes. -/
def Obligations.BtmodeSendsItsPayload : Prop :=
  ∀ (s : State) (mode : Byte), s.inv = true →
    (mode ≠ s.cfg.btUnknown → mode ≠ s.cfg.btBle → mode ≠ s.cfg.btLegacy →
      ∃ t, exec (.btmode mode) s = .next t ∧ Raises s t (.badMode mode))
    ∧ (mode = s.cfg.btUnknown ∨ mode = s.cfg.btBle ∨ mode = s.cfg.btLegacy →
      BehavesAsSend (.btmode mode) s s.cfg.mtLed s.cfg.opSetIndividualKeys (btPayload s.cfg mode))
    ∧ (btPayload s.cfg mode).length = 52

/-- BtPayload (rules R102, R251): 52 bytes, magic byte, count byte, and record `r` of `BT_PATTERN` at bytes `2 + 5r` to `6 + 5r`, but for
the status record's colour, which is the mode's. -/
def Obligations.BtPayloadLayout : Prop :=
  ∀ (c : Config) (mode : Byte), c.valid = true →
    let p := btPayload c mode
    let col := if mode = c.btUnknown then c.colorBlue else if mode = c.btBle then ⟨0x00, 0xff, 0x00⟩ else ⟨0xff, 0xff, 0x00⟩
    p.length = 52 ∧ p.getD 0 0 = 0xCA ∧ p.getD 1 0 = 0x0A
    ∧ (∀ (r : Nat) (rec : BtRecord), c.btPattern[r]? = some rec →
        p.getD (2 + 5 * r) 0 = rec.keyIndex ∧ p.getD (6 + 5 * r) 0 = rec.ledMode
        ∧ (r ≠ c.btStatusRec → p.getD (3 + 5 * r) 0 = rec.color.red ∧ p.getD (4 + 5 * r) 0 = rec.color.green
            ∧ p.getD (5 + 5 * r) 0 = rec.color.blue))
    ∧ p.getD (3 + 5 * c.btStatusRec) 0 = col.red ∧ p.getD (4 + 5 * c.btStatusRec) 0 = col.green
    ∧ p.getD (5 + 5 * c.btStatusRec) 0 = col.blue

/-- TOGGLE (rule R231): the frame of THEMEMODE from Idle-Off, that of SETTHEME 0 from Idle-Theme; the flag flips also when the send
is refused by a slot that is not empty. A SEND that faults, which the constraints of rule R9 exclude (log 33), leaves the flag. -/
def Obligations.ToggleSendsAndFlips : Prop :=
  ∀ s : State,
    (s.inv = true → s.tx.st = .empty → ∃ t, exec .toggle s = .next t ∧ EndsWith s t .ok
      ∧ AcceptsFrame { s with ledState := !s.ledState } t s.cfg.mtLed s.cfg.opThemeMode (if s.ledState then [0] else []))
    ∧ (s.inv = true → s.tx.st ≠ .empty → ∃ t, exec .toggle s = .next t ∧ EndsWith s t .wouldBlock
      ∧ KeepsBlock { s with ledState := !s.ledState } t)
    ∧ (s.ledState = true → s.cfg.maxPay = 0 → ∃ t, exec .toggle s = .next t ∧ Raises s t (.sendTooLong 1))

/-- LEDCPOLL, step 1 (rule R260): operand checks, then POLL; it changes nothing of the block but FAULT on a fault. -/
def Obligations.LedcpollFirstStep : Prop :=
  ∀ (s : State) (k len : Byte),
    (s.cfg.nRxBuf ≤ k.toNat → ∃ t, exec (.ledcpoll k len) s = .next t ∧ Raises s t (.badBuffer k))
    ∧ (k.toNat < s.cfg.nRxBuf → len.toNat = 0 ∨ s.cfg.rxCap < len.toNat →
        ∃ t, exec (.ledcpoll k len) s = .next t ∧ Raises s t (.badLength len))
    ∧ (k.toNat < s.cfg.nRxBuf → 0 < len.toNat → len.toNat ≤ s.cfg.rxCap →
        (s.rx.st = .empty → ∃ t, exec (.ledcpoll k len) s = .next t ∧ Raises s t .noTransfer)
        ∧ (s.rx.st = .inFlight → ∃ t, exec (.ledcpoll k len) s = .next t ∧ EndsWith s t .wouldBlock ∧ KeepsBlock s t)
        ∧ (s.rx.st = .complete → ∃ t, exec (.ledcpoll k len) s = .next t ∧ PausesWith s t (.pollFinish k len)
            ∧ KeepsBlock s t))

/-- LEDCPOLL undisturbed on a completed transfer whose frame PARSE accepts (rules R260, R262): four steps; the slot is empty after the
second and the third; the pair is dispatched in the third; after the fourth the slot is armed with the operands and the result is
`Ok`. The later steps in EVERY state: what FINISH, PARSE and RECEIVE do there, also to a slot that another context changed (log 41; the
ways PARSE can end the operation are the next statement's). Under `P_LT_EXCL` (rule R330) no step but a LEDCPOLL's own, or a reset,
changes a slot that is not in flight, or a buffer, while a LEDCPOLL is in progress (rule R261). -/
def Obligations.LedcpollFinishesDispatchesAndRearms : Prop :=
  (∀ (s : State) (k len : Byte), s.inv = true → k.toNat < s.cfg.nRxBuf → 0 < len.toNat → len.toNat ≤ s.cfg.rxCap →
    s.rx.st = .complete → (Memory.read (s.rxb.getD s.rx.buf []) 1).toNat ≠ 0 →
    (Memory.read (s.rxb.getD s.rx.buf []) 1).toNat + 2 ≤ s.cfg.rxCap →
    ∃ t1 t2 t3 t4, exec (.ledcpoll k len) s = .next t1 ∧ resumeStep t1 = .next t2 ∧ resumeStep t2 = .next t3
      ∧ resumeStep t3 = .next t4
      ∧ t1.rx = s.rx ∧ t2.rx.st = .empty ∧ t2.log = s.log ∧ t3.rx.st = .empty
      ∧ DispatchesPair s t3 (Memory.read (s.rxb.getD s.rx.buf []) 0) (Memory.read (s.rxb.getD s.rx.buf []) 2)
      ∧ t4.rx = ⟨.inFlight, k.toNat, len.toNat, 0⟩ ∧ t4.log = t3.log ∧ EndsWith s t4 .ok
      ∧ t4 = { s with
          ind := t4.ind, rx := t4.rx, log := t4.log, freeTick := t4.freeTick, answers := t4.answers, handlers := t4.handlers,
          mainOp := t4.mainOp })
  ∧ (∀ (s : State) (k len : Byte), s.topOp = some (.pollFinish k len) →
      (s.rx.st = .empty → ∃ t, resumeStep s = .next t ∧ Raises s t .noTransfer)
      ∧ (s.rx.st = .inFlight → ∃ t, resumeStep s = .next t ∧ Raises s t .finishNotReady)
      ∧ (s.rx.st = .complete → ∃ t, resumeStep s = .next t ∧ PausesWith s t (.pollParse s.rx.buf k len) ∧ t.rx.st = .empty
          ∧ t = { s with ind := t.ind, rx := t.rx, answers := t.answers, handlers := t.handlers, mainOp := t.mainOp }))
  ∧ (∀ (s : State) (j : Nat) (k len : Byte), s.inv = true → s.topOp = some (.pollParse j k len) →
      ¬(s.rx.st = .inFlight ∧ s.rx.buf = j) → (Memory.read (s.rxb.getD j []) 1).toNat ≠ 0 →
      (Memory.read (s.rxb.getD j []) 1).toNat + 2 ≤ s.cfg.rxCap →
      ∃ t, resumeStep s = .next t ∧ PausesWith s t (.pollRearm k len)
        ∧ DispatchesPair s t (Memory.read (s.rxb.getD j []) 0) (Memory.read (s.rxb.getD j []) 2)
        ∧ t = { s with
            ind := t.ind, log := t.log, freeTick := t.freeTick, answers := t.answers, handlers := t.handlers, mainOp := t.mainOp })
  ∧ (∀ (s : State) (k len : Byte), s.topOp = some (.pollRearm k len) →
      (s.cfg.nRxBuf ≤ k.toNat → ∃ t, resumeStep s = .next t ∧ Raises s t (.badBuffer k))
      ∧ (k.toNat < s.cfg.nRxBuf → len.toNat = 0 ∨ s.cfg.rxCap < len.toNat →
          ∃ t, resumeStep s = .next t ∧ Raises s t (.badLength len))
      ∧ (k.toNat < s.cfg.nRxBuf → 0 < len.toNat → len.toNat ≤ s.cfg.rxCap →
          (s.rx.st ≠ .empty → ∃ t, resumeStep s = .next t ∧ Raises s t .receiveBusy)
          ∧ (s.rx.st = .empty → ∃ t, resumeStep s = .next t ∧ EndsWith s t .ok ∧ t.rx = ⟨.inFlight, k.toNat, len.toNat, 0⟩
              ∧ t = { s with ind := t.ind, rx := t.rx, answers := t.answers, handlers := t.handlers, mainOp := t.mainOp })))
  ∧ ∀ s t : State, (s.pendings.any Pending.isPoll) = true → s.ltExcl = true → s.resumesNext = none → s.resetNext = false →
      s.rx.st ≠ .inFlight → step s = .next t → t.rx = s.rx ∧ t.rxb = s.rxb

/-- A LEDCPOLL whose frame PARSE rejects ends at step 3 with the parse fault (rules R260, R262): the re-arm is not reached, so a
slot that FINISH emptied stays empty. In every state: a buffer armed again by another context is BufferNotOwned (log 41), a length byte
of 0 ParseLengthZero, one past the buffer ParseBounds or, with the check off, the refusal of U3 (log 25); the slot is as it was. -/
def Obligations.LedcpollParseFaultEndsIt : Prop :=
  ∀ (s : State) (j : Nat) (k len : Byte), s.inv = true → s.topOp = some (.pollParse j k len) →
    (s.rx.st = .inFlight ∧ s.rx.buf = j → ∃ t, resumeStep s = .next t ∧ Raises s t (.bufferNotOwned j) ∧ t.rx = s.rx)
    ∧ (¬(s.rx.st = .inFlight ∧ s.rx.buf = j) →
      ((Memory.read (s.rxb.getD j []) 1).toNat = 0 →
        ∃ t, resumeStep s = .next t ∧ Raises s t (.parseLengthZero j) ∧ t.rx = s.rx)
      ∧ ((Memory.read (s.rxb.getD j []) 1).toNat ≠ 0 → s.cfg.rxCap < (Memory.read (s.rxb.getD j []) 1).toNat + 2 →
        (s.cfg.parseBoundsCheck = true → ∃ t, resumeStep s = .next t
          ∧ Raises s t (.parseBounds j (Memory.read (s.rxb.getD j []) 1).toNat) ∧ t.rx = s.rx)
        ∧ (s.cfg.parseBoundsCheck = false → resumeStep s = .refused .parsePastBuffer)))

/-! ## The wire frames -/

/-- The outgoing rows of rule R99: the frame is put on the link by SEND as its row's rule makes it (log 17: the model's reading of a frame
row as an instruction). -/
def Obligations.OutgoingFramesAreSent : Prop :=
  ∀ (s : State) (id : Byte) (packed payload : List Byte) (recs : List BtRecord), s.inv = true →
    BehavesAsSend .frameThemeModeReassert s s.cfg.mtLed s.cfg.opThemeMode []
    ∧ BehavesAsSend (.frameThemeModeSet id) s s.cfg.mtLed s.cfg.opThemeMode [id]
    ∧ BehavesAsSend .frameConfigCmdTheme s s.cfg.mtLed s.cfg.opConfigCmd [1, 0, 0]
    ∧ BehavesAsSend .frameConfigCmdBrightness s s.cfg.mtLed s.cfg.opConfigCmd [0, 0, 1]
    ∧ BehavesAsSend .frameConfigCmdSpeed s s.cfg.mtLed s.cfg.opConfigCmd [0, 1, 0]
    ∧ BehavesAsSend (.frameKey packed) s s.cfg.mtLed s.cfg.opKey packed
    ∧ BehavesAsSend (.frameMusic payload) s s.cfg.mtLed s.cfg.opMusic payload
    ∧ BehavesAsSend .frameGetThemeId s s.cfg.mtLed s.cfg.opGetThemeId []
    ∧ BehavesAsSend (.frameSetIndividualKeys payload) s s.cfg.mtLed s.cfg.opSetIndividualKeys payload
    ∧ BehavesAsSend (.frameSetIndividualKeysBluetooth recs) s s.cfg.mtLed s.cfg.opSetIndividualKeys (btBytes recs)

/-- The incoming rows of rule R99: the pair is dispatched, the data ignored (rules R213, R214, R217; log 17). -/
def Obligations.IncomingFramesAreDispatched : Prop :=
  ∀ (s : State) (t o : Byte) (data : List Byte),
    BehavesAsDispatch (.frameAckThemeMode data) s s.cfg.mtLed s.cfg.opAckThemeMode
    ∧ BehavesAsDispatch (.frameAckConfigCmd data) s s.cfg.mtLed s.cfg.opAckConfigCmd
    ∧ BehavesAsDispatch (.frameAckSetIndividualKeys data) s s.cfg.mtLed s.cfg.opAckSetIndividualKeys
    ∧ BehavesAsDispatch (.frameOther t o data) s t o

/-! ## Faults, WouldBlock, contexts, interrupts -/

/-- A fault that an instruction, or a later step of one, answers is in FAULT and is all that changed (rule R271). -/
def Obligations.FaultingInstructionChangesNothingElse : Prop :=
  (∀ (i : Instr) (s t : State) (f : FaultRecord), exec i s = .next t → Answers.of t.answers s.top = some (.fault f) →
    Raises s t f)
  ∧ ∀ (p : Pending) (s t : State) (f : FaultRecord), resumePending p s = .next t →
    Answers.of t.answers s.top = some (.fault f) → Raises s t f

/-- WouldBlock comes from exactly the cases of rule R272 and changes nothing, but for TOGGLE's flag; no later step of an operation
answers it. -/
def Obligations.WouldBlockOnlyWhereTheRuleSays : Prop :=
  (∀ (i : Instr) (s t : State), exec i s = .next t → Answers.of t.answers s.top = some .wouldBlock →
    ((isSend i = true ∧ s.tx.st ≠ .empty)
      ∨ ((i = .poll ∨ ∃ k len, i = .ledcpoll k len) ∧ s.rx.st = .inFlight)
      ∨ (i = .txadv ∧ s.tx.st = .inFlight))
    ∧ (i ≠ .toggle → KeepsBlock s t) ∧ (i = .toggle → KeepsBlock { s with ledState := !s.ledState } t))
  ∧ ∀ (p : Pending) (s t : State), resumePending p s = .next t → Answers.of t.answers s.top ≠ some .wouldBlock

/-- An instruction, and each later step of one, does the same to the block, with the same result or the same pause (the same operation
held), whoever presents it (rules R180, R290). -/
def Obligations.PresentingContextDoesNotMatter : Prop :=
  ∀ (s t : State) (hs : List Active) (m : Option Pending),
    let s' : State := { s with handlers := hs, mainOp := m }
    let Same (t' : State) : Prop :=
      t' = { t with ind := t'.ind, answers := t'.answers, handlers := t'.handlers, mainOp := t'.mainOp }
        ∧ ((∃ r, EndsWith s t r ∧ EndsWith s' t' r) ∨ ∃ p, PausesWith s t p ∧ PausesWith s' t' p)
    (∀ i : Instr, exec i s = .next t → ∃ t', exec i s' = .next t' ∧ Same t')
    ∧ ∀ p : Pending, resumePending p s = .next t → ∃ t', resumePending p s' = .next t' ∧ Same t'

/-- An interrupt is taken exactly when its line is high, its handler is not on the stack and outranks the top (rule R281), and no line
of a higher priority is high (rule R283); else the input is refused, the model's choice (log 5). Taking it pushes the handler, which
presents its operation: `RxIrq` a LEDCPOLL, `TxIrq` a TXADV, which releases the slot and returns (rule R282; one step of the model:
log 22). An interrupt taken without the wiring of rule R282 pushes the handler and changes nothing else (log 21). Without such an input
every handler on the stack is `RxIrq` inside a LEDCPOLL, step after step. -/
def Obligations.InterruptIsTakenAsTheRuleSays : Prop :=
  (∀ (s : State) (k len : Byte) (h : Handler) (rest : List Input), s.cfg.valid = true →
    let line (x : Handler) : SlotState := match x with
      | .rxIrq => s.rx.st
      | .txIrq => s.tx.st
    let prio (x : Handler) : Nat := match x with
      | .rxIrq => s.cfg.prioRx
      | .txIrq => s.cfg.prioTx
    let allowed (h : Handler) : Prop := line h = .complete ∧ (∀ a ∈ s.handlers, a.handler ≠ h)
      ∧ (∀ a ∈ s.handlers.head?, prio a.handler < prio h) ∧ ∀ x, line x = .complete → prio x ≤ prio h
    let pushed (h : Handler) : State := { s with inputs := rest, handlers := ⟨h, none⟩ :: s.handlers }
    (s.inputs = .take (.rxIrq k len) :: rest → allowed .rxIrq →
      step s = exec (.ledcpoll k len) (pushed .rxIrq)
      ∧ (k.toNat < s.cfg.nRxBuf → 0 < len.toNat → len.toNat ≤ s.cfg.rxCap → ∃ t, step s = .next t
        ∧ t = { s with
            ind := t.ind, inputs := rest, handlers := ⟨.rxIrq, some (.pollFinish k len)⟩ :: s.handlers
            answers := Answers.put s.answers .rxIrq none }))
    ∧ (s.inputs = .take .txIrq :: rest → allowed .txIrq →
      step s = exec .txadv (pushed .txIrq)
      ∧ ∃ t, step s = .next t ∧ t.tx.st = .empty ∧ t.txIrqLine = false
        ∧ t = { s with ind := t.ind, inputs := rest, tx := t.tx, answers := Answers.put s.answers .txIrq (some .ok) })
    ∧ (s.inputs = .takeUnwired h :: rest → allowed h →
      ∃ t, step s = .next t ∧ t = { s with ind := t.ind, inputs := rest, handlers := ⟨h, none⟩ :: s.handlers })
    ∧ (s.inputs = .take (.rxIrq k len) :: rest ∧ ¬allowed .rxIrq ∨ s.inputs = .take .txIrq :: rest ∧ ¬allowed .txIrq
        ∨ s.inputs = .takeUnwired h :: rest ∧ ¬allowed h →
      step s = .refused (.notEnabled .interrupt)))
  ∧ ∀ s t : State, s.handlersWired = true → s.wiredAsR282 = true → step s = .next t → t.handlersWired = true

/-- A staging write of the top context, between operations (rule R38): one byte of `PAY` or one bit of `KS`, nothing else. -/
def Obligations.StagingWritesOneCell : Prop :=
  ∀ (s : State) (rest : List Input) (off i : Nat) (b : Byte) (v : Bool), s.inv = true → s.topOp = none →
    (s.inputs = .stagePay off b :: rest → off < s.cfg.payCap → ∃ t, step s = .next t ∧ Memory.read t.pay off = b
      ∧ (∀ a, a ≠ off → Memory.read t.pay a = Memory.read s.pay a) ∧ t = { s with ind := t.ind, inputs := rest, pay := t.pay })
    ∧ (s.inputs = .stageKey i v :: rest → i < s.cfg.nKeys → ∃ t, step s = .next t ∧ t.ks.getD i false = v
      ∧ (∀ j, j ≠ i → t.ks.getD j false = s.ks.getD j false) ∧ t = { s with ind := t.ind, inputs := rest, ks := t.ks })

/-- A direct access to a buffer a DMA agent owns is refused (rule R75). -/
def Obligations.UnownedAccessIsRefused : Prop :=
  ∀ (s : State) (rest : List Input), s.cfg.valid = true →
    (s.inputs = .directAccess .txb :: rest → s.tx.st = .inFlight → step s = .refused .unownedAccess)
    ∧ (∀ k, s.inputs = .directAccess (.rxb k) :: rest → s.rx.st = .inFlight → s.rx.buf = k → step s = .refused .unownedAccess)

/-! ## Whole-machine rules -/

/-- The invariant holds at reset. -/
def Obligations.InvariantHoldsAtReset : Prop := State.reset.inv = true

/-- Every step keeps the invariant, from every state that meets it (rules R34, R35, R281, R331). -/
def Obligations.EveryStepKeepsTheInvariant : Prop :=
  ∀ s t : State, s.inv = true → step s = .next t → t.inv = true

/-- From a state that meets the invariant no step reaches outside a space (rule R61), but for a staging write past its area. -/
def Obligations.NoStepReachesOutsideASpace : Prop :=
  ∀ s : State, s.inv = true → s.stagesOutside = false → ∀ f, step s ≠ .fault f

/-- What has gone on the line and what is still to go of the frame in the slot are the frames accepted, in order (rule R331 items 6
and 7), over every run without a reset. -/
def Obligations.LineCarriesTheAcceptedFrames : Prop :=
  ∀ (k : Nat) (s t : State), s.inv = true → s.noReset = true → Host.Core.run Sys2Proof.core k s = .next t →
    t.txLine ++ t.unsent = s.txLine ++ s.unsent ++ acceptedIn k s

/-- No step but a reset changes a plain bit of a register (rule R331 item 4). -/
def Obligations.PlainBitsNeverChange : Prop :=
  ∀ (s t : State) (e : Nat), s.inv = true → s.resetNext = false → step s = .next t →
    t.eprAt e &&& s.cfg.mRw = s.eprAt e &&& s.cfg.mRw

/-- No step of a context changes a read-only bit (rule R331 item 3). -/
def Obligations.ReadOnlyBitsBelongToUsbHw : Prop :=
  ∀ (s t : State) (e : Nat), s.cfg.valid = true → s.resetNext = false → s.usbHwNext = false → step s = .next t →
    t.eprAt e &&& s.cfg.mRo = s.eprAt e &&& s.cfg.mRo

/-- A completion flag falls only at the second step of the clear operation of its direction on its register and rises only at a step of
agent UsbHw, resets apart (rule R26). -/
def Obligations.FlagsMoveOnlyAsTheRuleSays : Prop :=
  ∀ (s t : State) (e : Nat) (dir : Dir), s.cfg.valid = true → s.resetNext = false → step s = .next t →
    (flagOf s.cfg (s.eprAt e) dir = true → flagOf s.cfg (t.eprAt e) dir = false →
      ∃ e' r, s.resumesNext = some (.clearWrite dir e' r) ∧ e'.toNat = e)
    ∧ (flagOf s.cfg (s.eprAt e) dir = false → flagOf s.cfg (t.eprAt e) dir = true → s.usbHwNext = true)

/-- LEDC.state changes only at a TOGGLE, or at a reset (rule R43). -/
def Obligations.LedStateChangesOnlyByToggle : Prop :=
  ∀ s t : State, s.resetNext = false → step s = .next t → t.ledState ≠ s.ledState → s.presentsNext = some .toggle

/-- The life of a receive transfer (rule R169): armed by RECEIVE or a LEDCPOLL's last step, completed by DmaRx, emptied by FINISH or a
LEDCPOLL's second step; no other change of `RX.st`. -/
def Obligations.ReceiveTransferLifecycle : Prop :=
  ∀ s t : State, s.resetNext = false → step s = .next t → t.rx.st ≠ s.rx.st →
    (s.rx.st = .empty ∧ t.rx.st = .inFlight
        ∧ ((∃ k len, s.presentsNext = some (.receive k len)) ∨ ∃ k len, s.resumesNext = some (.pollRearm k len)))
    ∨ (s.rx.st = .inFlight ∧ t.rx.st = .complete ∧ s.inputs.head? = some .dmaRx)
    ∨ (s.rx.st = .complete ∧ t.rx.st = .empty
        ∧ (s.presentsNext = some .finish ∨ ∃ k len, s.resumesNext = some (.pollFinish k len)))

/-- The life of a send (rules R160, R170, R175): accepted by an instruction that sends, completed by DmaTx, released by TXADV alone. -/
def Obligations.TransmitTransferLifecycle : Prop :=
  ∀ s t : State, s.resetNext = false → step s = .next t → t.tx.st ≠ s.tx.st →
    (s.tx.st = .empty ∧ t.tx.st = .inFlight ∧ ∃ i, s.presentsNext = some i ∧ isSend i = true)
    ∨ (s.tx.st = .inFlight ∧ t.tx.st = .complete ∧ s.inputs.head? = some .dmaTx)
    ∨ (s.tx.st = .complete ∧ t.tx.st = .empty ∧ s.presentsNext = some .txadv)

/-- Buffers are left to their owner (rule R74): no step writes `TXB` while the transmit slot is not empty, and a receive buffer is written
only by DmaRx, only while armed. -/
def Obligations.BuffersAreLeftToTheirOwner : Prop :=
  ∀ s t : State, s.resetNext = false → step s = .next t →
    (s.tx.st ≠ .empty → t.txb = s.txb)
    ∧ (t.rxb ≠ s.rxb → s.inputs.head? = some .dmaRx ∧ s.rx.st = .inFlight)

/-- FAULT, LOST, LOG and TXLINE only grow until the next reset (rule R310), and no step changes the parameters (rule R9). -/
def Obligations.TracesOnlyGrow : Prop :=
  ∀ s t : State, step s = .next t →
    t.cfg = s.cfg
    ∧ (s.resetNext = false → (∀ f ∈ s.faults, f ∈ t.faults) ∧ s.lost ≤ t.lost ∧ s.log <+: t.log ∧ s.txLine <+: t.txLine)

/-- The reset event gives the state the values of rule R50, whatever is in the unspecified places. That the contexts start anew, `Main`
alone and between operations, and that an input list too short reads as 0, are the model's choices (log 38). -/
def Obligations.ResetEventGivesTheTable : Prop :=
  ∀ (s : State) (p : PowerUp) (rest : List Input), s.cfg.valid = true → s.inputs = .reset p :: rest →
    ∃ t, step s = .next t ∧ t.ledState = false ∧ t.tx.st = .empty ∧ t.rx.st = .empty ∧ t.rxLine = [] ∧ t.txLine = []
      ∧ t.lost = 0 ∧ t.log = [] ∧ t.faults = [] ∧ t.rxIrqLine = false ∧ t.txIrqLine = false
      ∧ t.handlers = [] ∧ t.mainOp = none
      ∧ (∀ e, e < s.cfg.nEp → t.eprAt e = p.epr.getD e 0)
      ∧ (∀ a, a < s.cfg.txCap → Memory.read t.txb a = p.txb.getD a 0)
      ∧ (∀ k a, k < s.cfg.nRxBuf → a < s.cfg.rxCap → Memory.read (t.rxb.getD k []) a = (p.rxb.getD k []).getD a 0)
      ∧ (∀ a, a < s.cfg.payCap → Memory.read t.pay a = p.pay.getD a 0)
      ∧ (∀ i, i < s.cfg.nKeys → t.ks.getD i false = p.ks.getD i false)
      ∧ t.ind = p.ind

/-- The values that rule R50 states hold in the machine's reset state. -/
def Obligations.ResetStateHoldsTheStatedValues : Prop :=
  State.reset.ledState = false ∧ State.reset.tx.st = .empty ∧ State.reset.rx.st = .empty ∧ State.reset.rxLine = []
    ∧ State.reset.txLine = [] ∧ State.reset.lost = 0 ∧ State.reset.log = [] ∧ State.reset.faults = []
    ∧ State.reset.rxIrqLine = false ∧ State.reset.txIrqLine = false
end

