-- ==== Sys2Proof/Laws/State.lean ====
section
/-! SUPPORT. One lemma per field and named update of the state, so that no proof unfolds a record update, and what an update does to
the views of the context stack. -/
namespace Sys2Proof.Machine

/-! ## `State.withEpr` -/

@[simp] theorem State.withEpr_cfg (s : State) (e : Nat) (v : Reg) : (s.withEpr e v).cfg = s.cfg := rfl
@[simp] theorem State.withEpr_epr (s : State) (e : Nat) (v : Reg) : (s.withEpr e v).epr = s.epr.set e v := rfl
@[simp] theorem State.withEpr_tx (s : State) (e : Nat) (v : Reg) : (s.withEpr e v).tx = s.tx := rfl
@[simp] theorem State.withEpr_txb (s : State) (e : Nat) (v : Reg) : (s.withEpr e v).txb = s.txb := rfl
@[simp] theorem State.withEpr_rx (s : State) (e : Nat) (v : Reg) : (s.withEpr e v).rx = s.rx := rfl
@[simp] theorem State.withEpr_rxb (s : State) (e : Nat) (v : Reg) : (s.withEpr e v).rxb = s.rxb := rfl
@[simp] theorem State.withEpr_pay (s : State) (e : Nat) (v : Reg) : (s.withEpr e v).pay = s.pay := rfl
@[simp] theorem State.withEpr_ks (s : State) (e : Nat) (v : Reg) : (s.withEpr e v).ks = s.ks := rfl
@[simp] theorem State.withEpr_rxLine (s : State) (e : Nat) (v : Reg) : (s.withEpr e v).rxLine = s.rxLine := rfl
@[simp] theorem State.withEpr_txLine (s : State) (e : Nat) (v : Reg) : (s.withEpr e v).txLine = s.txLine := rfl
@[simp] theorem State.withEpr_lost (s : State) (e : Nat) (v : Reg) : (s.withEpr e v).lost = s.lost := rfl
@[simp] theorem State.withEpr_log (s : State) (e : Nat) (v : Reg) : (s.withEpr e v).log = s.log := rfl
@[simp] theorem State.withEpr_ledState (s : State) (e : Nat) (v : Reg) : (s.withEpr e v).ledState = s.ledState := rfl
@[simp] theorem State.withEpr_ind (s : State) (e : Nat) (v : Reg) : (s.withEpr e v).ind = s.ind := rfl
@[simp] theorem State.withEpr_faults (s : State) (e : Nat) (v : Reg) : (s.withEpr e v).faults = s.faults := rfl
@[simp] theorem State.withEpr_mainOp (s : State) (e : Nat) (v : Reg) : (s.withEpr e v).mainOp = s.mainOp := rfl
@[simp] theorem State.withEpr_handlers (s : State) (e : Nat) (v : Reg) : (s.withEpr e v).handlers = s.handlers := rfl
@[simp] theorem State.withEpr_answers (s : State) (e : Nat) (v : Reg) : (s.withEpr e v).answers = s.answers := rfl
@[simp] theorem State.withEpr_inputs (s : State) (e : Nat) (v : Reg) : (s.withEpr e v).inputs = s.inputs := rfl
@[simp] theorem State.withEpr_freeTick (s : State) (e : Nat) (v : Reg) : (s.withEpr e v).freeTick = s.freeTick := rfl

/-! ## `State.eprWrite` -/

@[simp] theorem State.eprWrite_cfg (s : State) (e : Nat) (w : Reg) : (s.eprWrite e w).cfg = s.cfg := rfl
@[simp] theorem State.eprWrite_epr (s : State) (e : Nat) (w : Reg) : (s.eprWrite e w).epr = s.epr.set e (hwWrite s.cfg (s.eprAt e) w) := rfl
@[simp] theorem State.eprWrite_tx (s : State) (e : Nat) (w : Reg) : (s.eprWrite e w).tx = s.tx := rfl
@[simp] theorem State.eprWrite_txb (s : State) (e : Nat) (w : Reg) : (s.eprWrite e w).txb = s.txb := rfl
@[simp] theorem State.eprWrite_rx (s : State) (e : Nat) (w : Reg) : (s.eprWrite e w).rx = s.rx := rfl
@[simp] theorem State.eprWrite_rxb (s : State) (e : Nat) (w : Reg) : (s.eprWrite e w).rxb = s.rxb := rfl
@[simp] theorem State.eprWrite_pay (s : State) (e : Nat) (w : Reg) : (s.eprWrite e w).pay = s.pay := rfl
@[simp] theorem State.eprWrite_ks (s : State) (e : Nat) (w : Reg) : (s.eprWrite e w).ks = s.ks := rfl
@[simp] theorem State.eprWrite_rxLine (s : State) (e : Nat) (w : Reg) : (s.eprWrite e w).rxLine = s.rxLine := rfl
@[simp] theorem State.eprWrite_txLine (s : State) (e : Nat) (w : Reg) : (s.eprWrite e w).txLine = s.txLine := rfl
@[simp] theorem State.eprWrite_lost (s : State) (e : Nat) (w : Reg) : (s.eprWrite e w).lost = s.lost := rfl
@[simp] theorem State.eprWrite_log (s : State) (e : Nat) (w : Reg) : (s.eprWrite e w).log = s.log := rfl
@[simp] theorem State.eprWrite_ledState (s : State) (e : Nat) (w : Reg) : (s.eprWrite e w).ledState = s.ledState := rfl
@[simp] theorem State.eprWrite_ind (s : State) (e : Nat) (w : Reg) : (s.eprWrite e w).ind = s.ind := rfl
@[simp] theorem State.eprWrite_faults (s : State) (e : Nat) (w : Reg) : (s.eprWrite e w).faults = s.faults := rfl
@[simp] theorem State.eprWrite_mainOp (s : State) (e : Nat) (w : Reg) : (s.eprWrite e w).mainOp = s.mainOp := rfl
@[simp] theorem State.eprWrite_handlers (s : State) (e : Nat) (w : Reg) : (s.eprWrite e w).handlers = s.handlers := rfl
@[simp] theorem State.eprWrite_answers (s : State) (e : Nat) (w : Reg) : (s.eprWrite e w).answers = s.answers := rfl
@[simp] theorem State.eprWrite_inputs (s : State) (e : Nat) (w : Reg) : (s.eprWrite e w).inputs = s.inputs := rfl
@[simp] theorem State.eprWrite_freeTick (s : State) (e : Nat) (w : Reg) : (s.eprWrite e w).freeTick = s.freeTick := rfl

/-! ## `State.withTx` -/

@[simp] theorem State.withTx_cfg (s : State) (t : TxSlot) : (s.withTx t).cfg = s.cfg := rfl
@[simp] theorem State.withTx_epr (s : State) (t : TxSlot) : (s.withTx t).epr = s.epr := rfl
@[simp] theorem State.withTx_tx (s : State) (t : TxSlot) : (s.withTx t).tx = t := rfl
@[simp] theorem State.withTx_txb (s : State) (t : TxSlot) : (s.withTx t).txb = s.txb := rfl
@[simp] theorem State.withTx_rx (s : State) (t : TxSlot) : (s.withTx t).rx = s.rx := rfl
@[simp] theorem State.withTx_rxb (s : State) (t : TxSlot) : (s.withTx t).rxb = s.rxb := rfl
@[simp] theorem State.withTx_pay (s : State) (t : TxSlot) : (s.withTx t).pay = s.pay := rfl
@[simp] theorem State.withTx_ks (s : State) (t : TxSlot) : (s.withTx t).ks = s.ks := rfl
@[simp] theorem State.withTx_rxLine (s : State) (t : TxSlot) : (s.withTx t).rxLine = s.rxLine := rfl
@[simp] theorem State.withTx_txLine (s : State) (t : TxSlot) : (s.withTx t).txLine = s.txLine := rfl
@[simp] theorem State.withTx_lost (s : State) (t : TxSlot) : (s.withTx t).lost = s.lost := rfl
@[simp] theorem State.withTx_log (s : State) (t : TxSlot) : (s.withTx t).log = s.log := rfl
@[simp] theorem State.withTx_ledState (s : State) (t : TxSlot) : (s.withTx t).ledState = s.ledState := rfl
@[simp] theorem State.withTx_ind (s : State) (t : TxSlot) : (s.withTx t).ind = s.ind := rfl
@[simp] theorem State.withTx_faults (s : State) (t : TxSlot) : (s.withTx t).faults = s.faults := rfl
@[simp] theorem State.withTx_mainOp (s : State) (t : TxSlot) : (s.withTx t).mainOp = s.mainOp := rfl
@[simp] theorem State.withTx_handlers (s : State) (t : TxSlot) : (s.withTx t).handlers = s.handlers := rfl
@[simp] theorem State.withTx_answers (s : State) (t : TxSlot) : (s.withTx t).answers = s.answers := rfl
@[simp] theorem State.withTx_inputs (s : State) (t : TxSlot) : (s.withTx t).inputs = s.inputs := rfl
@[simp] theorem State.withTx_freeTick (s : State) (t : TxSlot) : (s.withTx t).freeTick = s.freeTick := rfl

/-! ## `State.withRx` -/

@[simp] theorem State.withRx_cfg (s : State) (r : RxSlot) : (s.withRx r).cfg = s.cfg := rfl
@[simp] theorem State.withRx_epr (s : State) (r : RxSlot) : (s.withRx r).epr = s.epr := rfl
@[simp] theorem State.withRx_tx (s : State) (r : RxSlot) : (s.withRx r).tx = s.tx := rfl
@[simp] theorem State.withRx_txb (s : State) (r : RxSlot) : (s.withRx r).txb = s.txb := rfl
@[simp] theorem State.withRx_rx (s : State) (r : RxSlot) : (s.withRx r).rx = r := rfl
@[simp] theorem State.withRx_rxb (s : State) (r : RxSlot) : (s.withRx r).rxb = s.rxb := rfl
@[simp] theorem State.withRx_pay (s : State) (r : RxSlot) : (s.withRx r).pay = s.pay := rfl
@[simp] theorem State.withRx_ks (s : State) (r : RxSlot) : (s.withRx r).ks = s.ks := rfl
@[simp] theorem State.withRx_rxLine (s : State) (r : RxSlot) : (s.withRx r).rxLine = s.rxLine := rfl
@[simp] theorem State.withRx_txLine (s : State) (r : RxSlot) : (s.withRx r).txLine = s.txLine := rfl
@[simp] theorem State.withRx_lost (s : State) (r : RxSlot) : (s.withRx r).lost = s.lost := rfl
@[simp] theorem State.withRx_log (s : State) (r : RxSlot) : (s.withRx r).log = s.log := rfl
@[simp] theorem State.withRx_ledState (s : State) (r : RxSlot) : (s.withRx r).ledState = s.ledState := rfl
@[simp] theorem State.withRx_ind (s : State) (r : RxSlot) : (s.withRx r).ind = s.ind := rfl
@[simp] theorem State.withRx_faults (s : State) (r : RxSlot) : (s.withRx r).faults = s.faults := rfl
@[simp] theorem State.withRx_mainOp (s : State) (r : RxSlot) : (s.withRx r).mainOp = s.mainOp := rfl
@[simp] theorem State.withRx_handlers (s : State) (r : RxSlot) : (s.withRx r).handlers = s.handlers := rfl
@[simp] theorem State.withRx_answers (s : State) (r : RxSlot) : (s.withRx r).answers = s.answers := rfl
@[simp] theorem State.withRx_inputs (s : State) (r : RxSlot) : (s.withRx r).inputs = s.inputs := rfl
@[simp] theorem State.withRx_freeTick (s : State) (r : RxSlot) : (s.withRx r).freeTick = s.freeTick := rfl

/-! ## `State.emitLine` -/

@[simp] theorem State.emitLine_cfg (s : State) (b : Byte) : (s.emitLine b).cfg = s.cfg := rfl
@[simp] theorem State.emitLine_epr (s : State) (b : Byte) : (s.emitLine b).epr = s.epr := rfl
@[simp] theorem State.emitLine_tx (s : State) (b : Byte) : (s.emitLine b).tx = s.tx := rfl
@[simp] theorem State.emitLine_txb (s : State) (b : Byte) : (s.emitLine b).txb = s.txb := rfl
@[simp] theorem State.emitLine_rx (s : State) (b : Byte) : (s.emitLine b).rx = s.rx := rfl
@[simp] theorem State.emitLine_rxb (s : State) (b : Byte) : (s.emitLine b).rxb = s.rxb := rfl
@[simp] theorem State.emitLine_pay (s : State) (b : Byte) : (s.emitLine b).pay = s.pay := rfl
@[simp] theorem State.emitLine_ks (s : State) (b : Byte) : (s.emitLine b).ks = s.ks := rfl
@[simp] theorem State.emitLine_rxLine (s : State) (b : Byte) : (s.emitLine b).rxLine = s.rxLine := rfl
@[simp] theorem State.emitLine_txLine (s : State) (b : Byte) : (s.emitLine b).txLine = s.txLine ++ [b] := rfl
@[simp] theorem State.emitLine_lost (s : State) (b : Byte) : (s.emitLine b).lost = s.lost := rfl
@[simp] theorem State.emitLine_log (s : State) (b : Byte) : (s.emitLine b).log = s.log := rfl
@[simp] theorem State.emitLine_ledState (s : State) (b : Byte) : (s.emitLine b).ledState = s.ledState := rfl
@[simp] theorem State.emitLine_ind (s : State) (b : Byte) : (s.emitLine b).ind = s.ind := rfl
@[simp] theorem State.emitLine_faults (s : State) (b : Byte) : (s.emitLine b).faults = s.faults := rfl
@[simp] theorem State.emitLine_mainOp (s : State) (b : Byte) : (s.emitLine b).mainOp = s.mainOp := rfl
@[simp] theorem State.emitLine_handlers (s : State) (b : Byte) : (s.emitLine b).handlers = s.handlers := rfl
@[simp] theorem State.emitLine_answers (s : State) (b : Byte) : (s.emitLine b).answers = s.answers := rfl
@[simp] theorem State.emitLine_inputs (s : State) (b : Byte) : (s.emitLine b).inputs = s.inputs := rfl
@[simp] theorem State.emitLine_freeTick (s : State) (b : Byte) : (s.emitLine b).freeTick = s.freeTick := rfl

/-! ## `State.emitLog` -/

@[simp] theorem State.emitLog_cfg (s : State) (ev : LogEvent) : (s.emitLog ev).cfg = s.cfg := rfl
@[simp] theorem State.emitLog_epr (s : State) (ev : LogEvent) : (s.emitLog ev).epr = s.epr := rfl
@[simp] theorem State.emitLog_tx (s : State) (ev : LogEvent) : (s.emitLog ev).tx = s.tx := rfl
@[simp] theorem State.emitLog_txb (s : State) (ev : LogEvent) : (s.emitLog ev).txb = s.txb := rfl
@[simp] theorem State.emitLog_rx (s : State) (ev : LogEvent) : (s.emitLog ev).rx = s.rx := rfl
@[simp] theorem State.emitLog_rxb (s : State) (ev : LogEvent) : (s.emitLog ev).rxb = s.rxb := rfl
@[simp] theorem State.emitLog_pay (s : State) (ev : LogEvent) : (s.emitLog ev).pay = s.pay := rfl
@[simp] theorem State.emitLog_ks (s : State) (ev : LogEvent) : (s.emitLog ev).ks = s.ks := rfl
@[simp] theorem State.emitLog_rxLine (s : State) (ev : LogEvent) : (s.emitLog ev).rxLine = s.rxLine := rfl
@[simp] theorem State.emitLog_txLine (s : State) (ev : LogEvent) : (s.emitLog ev).txLine = s.txLine := rfl
@[simp] theorem State.emitLog_lost (s : State) (ev : LogEvent) : (s.emitLog ev).lost = s.lost := rfl
@[simp] theorem State.emitLog_log (s : State) (ev : LogEvent) : (s.emitLog ev).log = s.log ++ [ev] := rfl
@[simp] theorem State.emitLog_ledState (s : State) (ev : LogEvent) : (s.emitLog ev).ledState = s.ledState := rfl
@[simp] theorem State.emitLog_ind (s : State) (ev : LogEvent) : (s.emitLog ev).ind = s.ind := rfl
@[simp] theorem State.emitLog_faults (s : State) (ev : LogEvent) : (s.emitLog ev).faults = s.faults := rfl
@[simp] theorem State.emitLog_mainOp (s : State) (ev : LogEvent) : (s.emitLog ev).mainOp = s.mainOp := rfl
@[simp] theorem State.emitLog_handlers (s : State) (ev : LogEvent) : (s.emitLog ev).handlers = s.handlers := rfl
@[simp] theorem State.emitLog_answers (s : State) (ev : LogEvent) : (s.emitLog ev).answers = s.answers := rfl
@[simp] theorem State.emitLog_inputs (s : State) (ev : LogEvent) : (s.emitLog ev).inputs = s.inputs := rfl
@[simp] theorem State.emitLog_freeTick (s : State) (ev : LogEvent) : (s.emitLog ev).freeTick = s.freeTick := rfl

/-! ## `State.withRxLine` -/

@[simp] theorem State.withRxLine_cfg (s : State) (l : List Byte) : (s.withRxLine l).cfg = s.cfg := rfl
@[simp] theorem State.withRxLine_epr (s : State) (l : List Byte) : (s.withRxLine l).epr = s.epr := rfl
@[simp] theorem State.withRxLine_tx (s : State) (l : List Byte) : (s.withRxLine l).tx = s.tx := rfl
@[simp] theorem State.withRxLine_txb (s : State) (l : List Byte) : (s.withRxLine l).txb = s.txb := rfl
@[simp] theorem State.withRxLine_rx (s : State) (l : List Byte) : (s.withRxLine l).rx = s.rx := rfl
@[simp] theorem State.withRxLine_rxb (s : State) (l : List Byte) : (s.withRxLine l).rxb = s.rxb := rfl
@[simp] theorem State.withRxLine_pay (s : State) (l : List Byte) : (s.withRxLine l).pay = s.pay := rfl
@[simp] theorem State.withRxLine_ks (s : State) (l : List Byte) : (s.withRxLine l).ks = s.ks := rfl
@[simp] theorem State.withRxLine_rxLine (s : State) (l : List Byte) : (s.withRxLine l).rxLine = l := rfl
@[simp] theorem State.withRxLine_txLine (s : State) (l : List Byte) : (s.withRxLine l).txLine = s.txLine := rfl
@[simp] theorem State.withRxLine_lost (s : State) (l : List Byte) : (s.withRxLine l).lost = s.lost := rfl
@[simp] theorem State.withRxLine_log (s : State) (l : List Byte) : (s.withRxLine l).log = s.log := rfl
@[simp] theorem State.withRxLine_ledState (s : State) (l : List Byte) : (s.withRxLine l).ledState = s.ledState := rfl
@[simp] theorem State.withRxLine_ind (s : State) (l : List Byte) : (s.withRxLine l).ind = s.ind := rfl
@[simp] theorem State.withRxLine_faults (s : State) (l : List Byte) : (s.withRxLine l).faults = s.faults := rfl
@[simp] theorem State.withRxLine_mainOp (s : State) (l : List Byte) : (s.withRxLine l).mainOp = s.mainOp := rfl
@[simp] theorem State.withRxLine_handlers (s : State) (l : List Byte) : (s.withRxLine l).handlers = s.handlers := rfl
@[simp] theorem State.withRxLine_answers (s : State) (l : List Byte) : (s.withRxLine l).answers = s.answers := rfl
@[simp] theorem State.withRxLine_inputs (s : State) (l : List Byte) : (s.withRxLine l).inputs = s.inputs := rfl
@[simp] theorem State.withRxLine_freeTick (s : State) (l : List Byte) : (s.withRxLine l).freeTick = s.freeTick := rfl

/-! ## `State.countLost` -/

@[simp] theorem State.countLost_cfg (s : State) : s.countLost.cfg = s.cfg := rfl
@[simp] theorem State.countLost_epr (s : State) : s.countLost.epr = s.epr := rfl
@[simp] theorem State.countLost_tx (s : State) : s.countLost.tx = s.tx := rfl
@[simp] theorem State.countLost_txb (s : State) : s.countLost.txb = s.txb := rfl
@[simp] theorem State.countLost_rx (s : State) : s.countLost.rx = s.rx := rfl
@[simp] theorem State.countLost_rxb (s : State) : s.countLost.rxb = s.rxb := rfl
@[simp] theorem State.countLost_pay (s : State) : s.countLost.pay = s.pay := rfl
@[simp] theorem State.countLost_ks (s : State) : s.countLost.ks = s.ks := rfl
@[simp] theorem State.countLost_rxLine (s : State) : s.countLost.rxLine = s.rxLine := rfl
@[simp] theorem State.countLost_txLine (s : State) : s.countLost.txLine = s.txLine := rfl
@[simp] theorem State.countLost_lost (s : State) : s.countLost.lost = s.lost + 1 := rfl
@[simp] theorem State.countLost_log (s : State) : s.countLost.log = s.log := rfl
@[simp] theorem State.countLost_ledState (s : State) : s.countLost.ledState = s.ledState := rfl
@[simp] theorem State.countLost_ind (s : State) : s.countLost.ind = s.ind := rfl
@[simp] theorem State.countLost_faults (s : State) : s.countLost.faults = s.faults := rfl
@[simp] theorem State.countLost_mainOp (s : State) : s.countLost.mainOp = s.mainOp := rfl
@[simp] theorem State.countLost_handlers (s : State) : s.countLost.handlers = s.handlers := rfl
@[simp] theorem State.countLost_answers (s : State) : s.countLost.answers = s.answers := rfl
@[simp] theorem State.countLost_inputs (s : State) : s.countLost.inputs = s.inputs := rfl
@[simp] theorem State.countLost_freeTick (s : State) : s.countLost.freeTick = s.freeTick := rfl

/-! ## `State.flipLed` -/

@[simp] theorem State.flipLed_cfg (s : State) : s.flipLed.cfg = s.cfg := rfl
@[simp] theorem State.flipLed_epr (s : State) : s.flipLed.epr = s.epr := rfl
@[simp] theorem State.flipLed_tx (s : State) : s.flipLed.tx = s.tx := rfl
@[simp] theorem State.flipLed_txb (s : State) : s.flipLed.txb = s.txb := rfl
@[simp] theorem State.flipLed_rx (s : State) : s.flipLed.rx = s.rx := rfl
@[simp] theorem State.flipLed_rxb (s : State) : s.flipLed.rxb = s.rxb := rfl
@[simp] theorem State.flipLed_pay (s : State) : s.flipLed.pay = s.pay := rfl
@[simp] theorem State.flipLed_ks (s : State) : s.flipLed.ks = s.ks := rfl
@[simp] theorem State.flipLed_rxLine (s : State) : s.flipLed.rxLine = s.rxLine := rfl
@[simp] theorem State.flipLed_txLine (s : State) : s.flipLed.txLine = s.txLine := rfl
@[simp] theorem State.flipLed_lost (s : State) : s.flipLed.lost = s.lost := rfl
@[simp] theorem State.flipLed_log (s : State) : s.flipLed.log = s.log := rfl
@[simp] theorem State.flipLed_ledState (s : State) : s.flipLed.ledState = !s.ledState := rfl
@[simp] theorem State.flipLed_ind (s : State) : s.flipLed.ind = s.ind := rfl
@[simp] theorem State.flipLed_faults (s : State) : s.flipLed.faults = s.faults := rfl
@[simp] theorem State.flipLed_mainOp (s : State) : s.flipLed.mainOp = s.mainOp := rfl
@[simp] theorem State.flipLed_handlers (s : State) : s.flipLed.handlers = s.handlers := rfl
@[simp] theorem State.flipLed_answers (s : State) : s.flipLed.answers = s.answers := rfl
@[simp] theorem State.flipLed_inputs (s : State) : s.flipLed.inputs = s.inputs := rfl
@[simp] theorem State.flipLed_freeTick (s : State) : s.flipLed.freeTick = s.freeTick := rfl

/-! ## `State.tick` -/

@[simp] theorem State.tick_cfg (s : State) : s.tick.cfg = s.cfg := rfl
@[simp] theorem State.tick_epr (s : State) : s.tick.epr = s.epr := rfl
@[simp] theorem State.tick_tx (s : State) : s.tick.tx = s.tx := rfl
@[simp] theorem State.tick_txb (s : State) : s.tick.txb = s.txb := rfl
@[simp] theorem State.tick_rx (s : State) : s.tick.rx = s.rx := rfl
@[simp] theorem State.tick_rxb (s : State) : s.tick.rxb = s.rxb := rfl
@[simp] theorem State.tick_pay (s : State) : s.tick.pay = s.pay := rfl
@[simp] theorem State.tick_ks (s : State) : s.tick.ks = s.ks := rfl
@[simp] theorem State.tick_rxLine (s : State) : s.tick.rxLine = s.rxLine := rfl
@[simp] theorem State.tick_txLine (s : State) : s.tick.txLine = s.txLine := rfl
@[simp] theorem State.tick_lost (s : State) : s.tick.lost = s.lost := rfl
@[simp] theorem State.tick_log (s : State) : s.tick.log = s.log := rfl
@[simp] theorem State.tick_ledState (s : State) : s.tick.ledState = s.ledState := rfl
@[simp] theorem State.tick_ind (s : State) : s.tick.ind = s.ind := rfl
@[simp] theorem State.tick_faults (s : State) : s.tick.faults = s.faults := rfl
@[simp] theorem State.tick_mainOp (s : State) : s.tick.mainOp = s.mainOp := rfl
@[simp] theorem State.tick_handlers (s : State) : s.tick.handlers = s.handlers := rfl
@[simp] theorem State.tick_answers (s : State) : s.tick.answers = s.answers := rfl
@[simp] theorem State.tick_inputs (s : State) : s.tick.inputs = s.inputs := rfl
@[simp] theorem State.tick_freeTick (s : State) : s.tick.freeTick = s.freeTick + 1 := rfl

/-! ## `State.withInputs` -/

@[simp] theorem State.withInputs_cfg (s : State) (l : List Input) : (s.withInputs l).cfg = s.cfg := rfl
@[simp] theorem State.withInputs_epr (s : State) (l : List Input) : (s.withInputs l).epr = s.epr := rfl
@[simp] theorem State.withInputs_tx (s : State) (l : List Input) : (s.withInputs l).tx = s.tx := rfl
@[simp] theorem State.withInputs_txb (s : State) (l : List Input) : (s.withInputs l).txb = s.txb := rfl
@[simp] theorem State.withInputs_rx (s : State) (l : List Input) : (s.withInputs l).rx = s.rx := rfl
@[simp] theorem State.withInputs_rxb (s : State) (l : List Input) : (s.withInputs l).rxb = s.rxb := rfl
@[simp] theorem State.withInputs_pay (s : State) (l : List Input) : (s.withInputs l).pay = s.pay := rfl
@[simp] theorem State.withInputs_ks (s : State) (l : List Input) : (s.withInputs l).ks = s.ks := rfl
@[simp] theorem State.withInputs_rxLine (s : State) (l : List Input) : (s.withInputs l).rxLine = s.rxLine := rfl
@[simp] theorem State.withInputs_txLine (s : State) (l : List Input) : (s.withInputs l).txLine = s.txLine := rfl
@[simp] theorem State.withInputs_lost (s : State) (l : List Input) : (s.withInputs l).lost = s.lost := rfl
@[simp] theorem State.withInputs_log (s : State) (l : List Input) : (s.withInputs l).log = s.log := rfl
@[simp] theorem State.withInputs_ledState (s : State) (l : List Input) : (s.withInputs l).ledState = s.ledState := rfl
@[simp] theorem State.withInputs_ind (s : State) (l : List Input) : (s.withInputs l).ind = s.ind := rfl
@[simp] theorem State.withInputs_faults (s : State) (l : List Input) : (s.withInputs l).faults = s.faults := rfl
@[simp] theorem State.withInputs_mainOp (s : State) (l : List Input) : (s.withInputs l).mainOp = s.mainOp := rfl
@[simp] theorem State.withInputs_handlers (s : State) (l : List Input) : (s.withInputs l).handlers = s.handlers := rfl
@[simp] theorem State.withInputs_answers (s : State) (l : List Input) : (s.withInputs l).answers = s.answers := rfl
@[simp] theorem State.withInputs_inputs (s : State) (l : List Input) : (s.withInputs l).inputs = l := rfl
@[simp] theorem State.withInputs_freeTick (s : State) (l : List Input) : (s.withInputs l).freeTick = s.freeTick := rfl

/-! ## `State.finish` -/

@[simp] theorem State.finish_cfg (s : State) (r : Result) : (s.finish r).cfg = s.cfg := rfl
@[simp] theorem State.finish_epr (s : State) (r : Result) : (s.finish r).epr = s.epr := rfl
@[simp] theorem State.finish_tx (s : State) (r : Result) : (s.finish r).tx = s.tx := rfl
@[simp] theorem State.finish_txb (s : State) (r : Result) : (s.finish r).txb = s.txb := rfl
@[simp] theorem State.finish_rx (s : State) (r : Result) : (s.finish r).rx = s.rx := rfl
@[simp] theorem State.finish_rxb (s : State) (r : Result) : (s.finish r).rxb = s.rxb := rfl
@[simp] theorem State.finish_pay (s : State) (r : Result) : (s.finish r).pay = s.pay := rfl
@[simp] theorem State.finish_ks (s : State) (r : Result) : (s.finish r).ks = s.ks := rfl
@[simp] theorem State.finish_rxLine (s : State) (r : Result) : (s.finish r).rxLine = s.rxLine := rfl
@[simp] theorem State.finish_txLine (s : State) (r : Result) : (s.finish r).txLine = s.txLine := rfl
@[simp] theorem State.finish_lost (s : State) (r : Result) : (s.finish r).lost = s.lost := rfl
@[simp] theorem State.finish_log (s : State) (r : Result) : (s.finish r).log = s.log := rfl
@[simp] theorem State.finish_ledState (s : State) (r : Result) : (s.finish r).ledState = s.ledState := rfl
@[simp] theorem State.finish_ind (s : State) (r : Result) : (s.finish r).ind = s.ind := rfl
@[simp] theorem State.finish_faults (s : State) (r : Result) : (s.finish r).faults = s.faults := rfl
@[simp] theorem State.finish_mainOp (s : State) (r : Result) : (s.finish r).mainOp = if s.handlers = [] then none else s.mainOp := rfl
@[simp] theorem State.finish_handlers (s : State) (r : Result) : (s.finish r).handlers = s.handlers.tail := rfl
@[simp] theorem State.finish_answers (s : State) (r : Result) : (s.finish r).answers = Answers.put s.answers s.top (some r) := rfl
@[simp] theorem State.finish_inputs (s : State) (r : Result) : (s.finish r).inputs = s.inputs := rfl
@[simp] theorem State.finish_freeTick (s : State) (r : Result) : (s.finish r).freeTick = s.freeTick := rfl

/-! ## `State.suspend` -/

@[simp] theorem State.suspend_cfg (s : State) (p : Pending) : (s.suspend p).cfg = s.cfg := rfl
@[simp] theorem State.suspend_epr (s : State) (p : Pending) : (s.suspend p).epr = s.epr := rfl
@[simp] theorem State.suspend_tx (s : State) (p : Pending) : (s.suspend p).tx = s.tx := rfl
@[simp] theorem State.suspend_txb (s : State) (p : Pending) : (s.suspend p).txb = s.txb := rfl
@[simp] theorem State.suspend_rx (s : State) (p : Pending) : (s.suspend p).rx = s.rx := rfl
@[simp] theorem State.suspend_rxb (s : State) (p : Pending) : (s.suspend p).rxb = s.rxb := rfl
@[simp] theorem State.suspend_pay (s : State) (p : Pending) : (s.suspend p).pay = s.pay := rfl
@[simp] theorem State.suspend_ks (s : State) (p : Pending) : (s.suspend p).ks = s.ks := rfl
@[simp] theorem State.suspend_rxLine (s : State) (p : Pending) : (s.suspend p).rxLine = s.rxLine := rfl
@[simp] theorem State.suspend_txLine (s : State) (p : Pending) : (s.suspend p).txLine = s.txLine := rfl
@[simp] theorem State.suspend_lost (s : State) (p : Pending) : (s.suspend p).lost = s.lost := rfl
@[simp] theorem State.suspend_log (s : State) (p : Pending) : (s.suspend p).log = s.log := rfl
@[simp] theorem State.suspend_ledState (s : State) (p : Pending) : (s.suspend p).ledState = s.ledState := rfl
@[simp] theorem State.suspend_ind (s : State) (p : Pending) : (s.suspend p).ind = s.ind := rfl
@[simp] theorem State.suspend_faults (s : State) (p : Pending) : (s.suspend p).faults = s.faults := rfl
@[simp] theorem State.suspend_mainOp (s : State) (p : Pending) : (s.suspend p).mainOp = if s.handlers = [] then some p else s.mainOp := rfl
@[simp] theorem State.suspend_answers (s : State) (p : Pending) : (s.suspend p).answers = Answers.put s.answers s.top none := rfl
@[simp] theorem State.suspend_inputs (s : State) (p : Pending) : (s.suspend p).inputs = s.inputs := rfl
@[simp] theorem State.suspend_freeTick (s : State) (p : Pending) : (s.suspend p).freeTick = s.freeTick := rfl

/-! ## `State.addFault` -/

@[simp] theorem State.addFault_cfg (s : State) (f : FaultRecord) : (s.addFault f).cfg = s.cfg := rfl
@[simp] theorem State.addFault_epr (s : State) (f : FaultRecord) : (s.addFault f).epr = s.epr := rfl
@[simp] theorem State.addFault_tx (s : State) (f : FaultRecord) : (s.addFault f).tx = s.tx := rfl
@[simp] theorem State.addFault_txb (s : State) (f : FaultRecord) : (s.addFault f).txb = s.txb := rfl
@[simp] theorem State.addFault_rx (s : State) (f : FaultRecord) : (s.addFault f).rx = s.rx := rfl
@[simp] theorem State.addFault_rxb (s : State) (f : FaultRecord) : (s.addFault f).rxb = s.rxb := rfl
@[simp] theorem State.addFault_pay (s : State) (f : FaultRecord) : (s.addFault f).pay = s.pay := rfl
@[simp] theorem State.addFault_ks (s : State) (f : FaultRecord) : (s.addFault f).ks = s.ks := rfl
@[simp] theorem State.addFault_rxLine (s : State) (f : FaultRecord) : (s.addFault f).rxLine = s.rxLine := rfl
@[simp] theorem State.addFault_txLine (s : State) (f : FaultRecord) : (s.addFault f).txLine = s.txLine := rfl
@[simp] theorem State.addFault_lost (s : State) (f : FaultRecord) : (s.addFault f).lost = s.lost := rfl
@[simp] theorem State.addFault_log (s : State) (f : FaultRecord) : (s.addFault f).log = s.log := rfl
@[simp] theorem State.addFault_ledState (s : State) (f : FaultRecord) : (s.addFault f).ledState = s.ledState := rfl
@[simp] theorem State.addFault_ind (s : State) (f : FaultRecord) : (s.addFault f).ind = s.ind := rfl
@[simp] theorem State.addFault_faults (s : State) (f : FaultRecord) : (s.addFault f).faults = if f ∈ s.faults then s.faults else s.faults ++ [f] := rfl
@[simp] theorem State.addFault_mainOp (s : State) (f : FaultRecord) : (s.addFault f).mainOp = s.mainOp := rfl
@[simp] theorem State.addFault_handlers (s : State) (f : FaultRecord) : (s.addFault f).handlers = s.handlers := rfl
@[simp] theorem State.addFault_answers (s : State) (f : FaultRecord) : (s.addFault f).answers = s.answers := rfl
@[simp] theorem State.addFault_inputs (s : State) (f : FaultRecord) : (s.addFault f).inputs = s.inputs := rfl
@[simp] theorem State.addFault_freeTick (s : State) (f : FaultRecord) : (s.addFault f).freeTick = s.freeTick := rfl

/-! ## `State.withBytes` -/

@[simp] theorem State.withBytes_cfg (s : State) (sp : Space) (m : Memory) : (s.withBytes sp m).cfg = s.cfg := by
  cases sp <;> rfl
@[simp] theorem State.withBytes_epr (s : State) (sp : Space) (m : Memory) : (s.withBytes sp m).epr = s.epr := by
  cases sp <;> rfl
@[simp] theorem State.withBytes_tx (s : State) (sp : Space) (m : Memory) : (s.withBytes sp m).tx = s.tx := by
  cases sp <;> rfl
@[simp] theorem State.withBytes_rx (s : State) (sp : Space) (m : Memory) : (s.withBytes sp m).rx = s.rx := by
  cases sp <;> rfl
@[simp] theorem State.withBytes_ks (s : State) (sp : Space) (m : Memory) : (s.withBytes sp m).ks = s.ks := by
  cases sp <;> rfl
@[simp] theorem State.withBytes_rxLine (s : State) (sp : Space) (m : Memory) : (s.withBytes sp m).rxLine = s.rxLine := by
  cases sp <;> rfl
@[simp] theorem State.withBytes_txLine (s : State) (sp : Space) (m : Memory) : (s.withBytes sp m).txLine = s.txLine := by
  cases sp <;> rfl
@[simp] theorem State.withBytes_lost (s : State) (sp : Space) (m : Memory) : (s.withBytes sp m).lost = s.lost := by
  cases sp <;> rfl
@[simp] theorem State.withBytes_log (s : State) (sp : Space) (m : Memory) : (s.withBytes sp m).log = s.log := by
  cases sp <;> rfl
@[simp] theorem State.withBytes_ledState (s : State) (sp : Space) (m : Memory) : (s.withBytes sp m).ledState = s.ledState := by
  cases sp <;> rfl
@[simp] theorem State.withBytes_ind (s : State) (sp : Space) (m : Memory) : (s.withBytes sp m).ind = s.ind := by
  cases sp <;> rfl
@[simp] theorem State.withBytes_faults (s : State) (sp : Space) (m : Memory) : (s.withBytes sp m).faults = s.faults := by
  cases sp <;> rfl
@[simp] theorem State.withBytes_mainOp (s : State) (sp : Space) (m : Memory) : (s.withBytes sp m).mainOp = s.mainOp := by
  cases sp <;> rfl
@[simp] theorem State.withBytes_handlers (s : State) (sp : Space) (m : Memory) : (s.withBytes sp m).handlers = s.handlers := by
  cases sp <;> rfl
@[simp] theorem State.withBytes_answers (s : State) (sp : Space) (m : Memory) : (s.withBytes sp m).answers = s.answers := by
  cases sp <;> rfl
@[simp] theorem State.withBytes_inputs (s : State) (sp : Space) (m : Memory) : (s.withBytes sp m).inputs = s.inputs := by
  cases sp <;> rfl
@[simp] theorem State.withBytes_freeTick (s : State) (sp : Space) (m : Memory) : (s.withBytes sp m).freeTick = s.freeTick := by
  cases sp <;> rfl

@[simp] theorem State.withBytes_txb_self (s : State) (m : Memory) : (s.withBytes .txb m).txb = m := rfl
@[simp] theorem State.withBytes_txb_rxb (s : State) (m : Memory) : (s.withBytes .txb m).rxb = s.rxb := rfl
@[simp] theorem State.withBytes_txb_pay (s : State) (m : Memory) : (s.withBytes .txb m).pay = s.pay := rfl
@[simp] theorem State.withBytes_rxb_txb (s : State) (k : Nat) (m : Memory) : (s.withBytes (.rxb k) m).txb = s.txb := rfl
@[simp] theorem State.withBytes_rxb_rxb (s : State) (k : Nat) (m : Memory) : (s.withBytes (.rxb k) m).rxb = s.rxb.set k m := rfl
@[simp] theorem State.withBytes_rxb_pay (s : State) (k : Nat) (m : Memory) : (s.withBytes (.rxb k) m).pay = s.pay := rfl
@[simp] theorem State.withBytes_pay_txb (s : State) (m : Memory) : (s.withBytes .pay m).txb = s.txb := rfl
@[simp] theorem State.withBytes_pay_rxb (s : State) (m : Memory) : (s.withBytes .pay m).rxb = s.rxb := rfl
@[simp] theorem State.withBytes_pay_self (s : State) (m : Memory) : (s.withBytes .pay m).pay = m := rfl

/-! ## `State.pushHandler` -/

@[simp] theorem State.pushHandler_cfg (s : State) (h : Handler) : (s.pushHandler h).cfg = s.cfg := rfl
@[simp] theorem State.pushHandler_epr (s : State) (h : Handler) : (s.pushHandler h).epr = s.epr := rfl
@[simp] theorem State.pushHandler_tx (s : State) (h : Handler) : (s.pushHandler h).tx = s.tx := rfl
@[simp] theorem State.pushHandler_txb (s : State) (h : Handler) : (s.pushHandler h).txb = s.txb := rfl
@[simp] theorem State.pushHandler_rx (s : State) (h : Handler) : (s.pushHandler h).rx = s.rx := rfl
@[simp] theorem State.pushHandler_rxb (s : State) (h : Handler) : (s.pushHandler h).rxb = s.rxb := rfl
@[simp] theorem State.pushHandler_pay (s : State) (h : Handler) : (s.pushHandler h).pay = s.pay := rfl
@[simp] theorem State.pushHandler_ks (s : State) (h : Handler) : (s.pushHandler h).ks = s.ks := rfl
@[simp] theorem State.pushHandler_rxLine (s : State) (h : Handler) : (s.pushHandler h).rxLine = s.rxLine := rfl
@[simp] theorem State.pushHandler_txLine (s : State) (h : Handler) : (s.pushHandler h).txLine = s.txLine := rfl
@[simp] theorem State.pushHandler_lost (s : State) (h : Handler) : (s.pushHandler h).lost = s.lost := rfl
@[simp] theorem State.pushHandler_log (s : State) (h : Handler) : (s.pushHandler h).log = s.log := rfl
@[simp] theorem State.pushHandler_ledState (s : State) (h : Handler) : (s.pushHandler h).ledState = s.ledState := rfl
@[simp] theorem State.pushHandler_ind (s : State) (h : Handler) : (s.pushHandler h).ind = s.ind := rfl
@[simp] theorem State.pushHandler_faults (s : State) (h : Handler) : (s.pushHandler h).faults = s.faults := rfl
@[simp] theorem State.pushHandler_mainOp (s : State) (h : Handler) : (s.pushHandler h).mainOp = s.mainOp := rfl
@[simp] theorem State.pushHandler_handlers (s : State) (h : Handler) : (s.pushHandler h).handlers = ⟨h, none⟩ :: s.handlers := rfl
@[simp] theorem State.pushHandler_answers (s : State) (h : Handler) : (s.pushHandler h).answers = s.answers := rfl
@[simp] theorem State.pushHandler_inputs (s : State) (h : Handler) : (s.pushHandler h).inputs = s.inputs := rfl
@[simp] theorem State.pushHandler_freeTick (s : State) (h : Handler) : (s.pushHandler h).freeTick = s.freeTick := rfl

/-! ## The views of the context stack -/

/-- The top context and its operation depend on the stack alone. -/
theorem State.top_congr {s t : State} (h : t.handlers = s.handlers) : t.top = s.top := by
  simp only [State.top, h]

theorem State.topOp_congr {s t : State} (h : t.handlers = s.handlers) (hm : t.mainOp = s.mainOp) : t.topOp = s.topOp := by
  simp only [State.topOp, h, hm]

/-- `PausesWith`, field by field: the operation is held by the top context, which stays on top. -/
theorem State.suspend_topOp (s : State) (p : Pending) : (s.suspend p).topOp = some p := by
  cases hs : s.handlers <;> simp [State.suspend, State.topOp, hs]

theorem State.suspend_top (s : State) (p : Pending) : (s.suspend p).top = s.top := by
  cases hs : s.handlers <;> simp [State.suspend, State.top, hs]

theorem State.suspend_handlers_tail (s : State) (p : Pending) : (s.suspend p).handlers.tail = s.handlers.tail := by
  cases hs : s.handlers <;> simp [State.suspend, hs]

theorem State.suspend_handlers_names (s : State) (p : Pending) :
    (s.suspend p).handlers.map Active.handler = s.handlers.map Active.handler := by
  cases hs : s.handlers <;> simp [State.suspend, hs]

/-- The handler pushed is on top and between operations (rule R281). -/
theorem State.pushHandler_top (s : State) (h : Handler) : (s.pushHandler h).top = contextOf h := rfl

theorem State.pushHandler_topOp (s : State) (h : Handler) : (s.pushHandler h).topOp = none := rfl

/-- A handler that ends leaves the stack as it was before it was pushed (rules R281, R284). -/
theorem State.finish_pushHandler (s : State) (h : Handler) (r : Result) :
    (s.pushHandler h).finish r = { s with answers := Answers.put s.answers (contextOf h) (some r) } := rfl

/-- A fault code added is there, and no other is new (rule R271). -/
theorem State.mem_addFault (s : State) (f g : FaultRecord) : g ∈ (s.addFault f).faults ↔ g = f ∨ g ∈ s.faults := by
  simp only [State.addFault_faults]
  split
  · constructor
    · exact Or.inr
    · rintro (rfl | h)
      · assumption
      · exact h
  · simp [or_comm]

theorem State.nodup_addFault (s : State) (f : FaultRecord) (h : s.faults.Nodup) : (s.addFault f).faults.Nodup := by
  simp only [State.addFault_faults]
  split
  · exact h
  · rename_i hf
    exact List.nodup_append.mpr ⟨h, by simp, by rintro a ha b hb rfl; simp at hb; exact hf (hb ▸ ha)⟩

end Sys2Proof.Machine
end

