-- ==== Sys2Proof/Laws/Control.lean ====
section
/-! SUPPORT. What the end, the pause and the fault of an operation do to the stack of contexts (rules R12, R90, R271, R281, R284): the
lemmas a proof about an instruction cites instead of unfolding `finish`, `suspend` and `raise`. -/
namespace Sys2Proof.Machine

/-! ## Results -/

/-- A context's own result is the last one put there. -/
theorem Answers.of_put (a : Answers) (c : Context) (r : Option Result) : Answers.of (Answers.put a c r) c = r := by
  cases c <;> rfl

/-- Putting one context's result leaves the others'. -/
theorem Answers.of_put_other (a : Answers) {c c' : Context} (r : Option Result) (h : c' ≠ c) :
    Answers.of (Answers.put a c r) c' = Answers.of a c' := by
  cases c <;> cases c' <;> first | rfl | exact absurd rfl h

/-! ## Ending -/

/-- An operation that left the stack and the results alone and then ended with `r`. -/
theorem endsWith_finish {s s' : State} (r : Result) (ha : s'.answers = s.answers) (hh : s'.handlers = s.handlers)
    (hm : s'.mainOp = s.mainOp) : EndsWith s (s'.finish r) r := by
  refine ⟨?_, ?_, ?_⟩
  · rw [State.finish_answers, ha, State.top_congr hh]
  · rw [State.finish_handlers, hh]
  · rw [State.finish_mainOp, hh, hm]

/-- The presenting context has the result of an operation that ended. -/
theorem answer_of_endsWith {s t : State} {r : Result} (h : EndsWith s t r) : Answers.of t.answers s.top = some r := by
  rw [h.1, Answers.of_put]

theorem keepsBlock_finish (s : State) (r : Result) : KeepsBlock s (s.finish r) := rfl

/-! ## Pausing -/

/-- An operation that left the stack and the results alone and then paused at a mark `step`, holding `p`. -/
theorem pausesWith_suspend {s s' : State} (p : Pending) (ha : s'.answers = s.answers) (hh : s'.handlers = s.handlers)
    (hm : s'.mainOp = s.mainOp) : PausesWith s (s'.suspend p) p := by
  have ht := State.top_congr hh
  unfold PausesWith
  cases hs : s.handlers with
  | nil => simp_all [State.suspend, State.topOp, State.top]
  | cons a l => simp_all [State.suspend, State.topOp, State.top]

theorem keepsBlock_suspend (s : State) (p : Pending) : KeepsBlock s (s.suspend p) := rfl

/-- An operation that ended after a pause ended for the context that began it. -/
theorem endsWith_of_suspended {s s' u : State} {p : Pending} {r : Result} (ha : s'.answers = Answers.put s.answers s.top none)
    (hh : s'.handlers = (s.suspend p).handlers) (hm : s'.mainOp = (s.suspend p).mainOp) (h : EndsWith s' u r) :
    EndsWith s u r := by
  have ht : s'.top = s.top := (State.top_congr hh).trans (State.suspend_top s p)
  obtain ⟨h1, h2, h3⟩ := h
  have hput : ∀ a : Answers, ∀ c x y, Answers.put (Answers.put a c x) c y = Answers.put a c y := by
    intro a c x y; cases c <;> rfl
  refine ⟨?_, ?_, ?_⟩
  · rw [h1, ha, ht, hput]
  · rw [h2, hh]; cases hs : s.handlers <;> simp [State.suspend, hs]
  · rw [h3, hh, hm]; cases hs : s.handlers <;> simp [State.suspend, hs]

/-! ## Faults -/

/-- Everything `raise` does, once the operation is concluded. -/
theorem raises_raise (s : State) (f : FaultRecord) : Raises s ((s.addFault f).finish (.fault f)) f :=
  ⟨endsWith_finish _ rfl rfl rfl, fun g => State.mem_addFault s f g, rfl⟩

theorem conclude_raise (s : State) (f : FaultRecord) : ∃ t, conclude (s.raise f) = .next t ∧ Raises s t f :=
  ⟨_, rfl, raises_raise s f⟩

/-- What an operation that was concluded answered. -/
theorem conclude_next {a : Answered} {t : State} (h : conclude a = .next t) :
    ∃ r s', a = .next (r, s') ∧ t = s'.finish r := by
  match a, h with
  | .next (r, s'), h => exact ⟨r, s', rfl, by cases h; rfl⟩

end Sys2Proof.Machine
end

