-- ==== Sys2Proof/Laws/Encoding.lean ====
section
/-! SUPPORT. The fields of a command word and the parts of a wire frame (rules R91, R93, R102): what the encoder puts in, the decoder's
projections take out; and what the constraints of rule R9 say of the opcode bytes. -/
namespace Sys2Proof

/-! ## The command word (rule R91) -/

theorem getLsbD_commandWord (o a b c : Byte) (i : Nat) :
    (commandWord o a b c).getLsbD i =
      if i < 8 then c.getLsbD i else if i < 16 then b.getLsbD (i - 8)
      else if i < 24 then a.getLsbD (i - 16) else o.getLsbD (i - 24) := by
  have h3 := BitVec.getLsbD_append (x := o ++ a ++ b) (y := c) (i := i)
  have h2 := BitVec.getLsbD_append (x := o ++ a) (y := b) (i := i - 8)
  have h1 := BitVec.getLsbD_append (x := o) (y := a) (i := i - 8 - 8)
  refine h3.trans ?_
  rw [h2, h1]
  simp only [Nat.sub_sub, show (i - 8 < 8) = (i < 16) by simp; omega, show (i - (8 + 8) < 8) = (i < 24) by simp; omega]

@[simp] theorem opcOf_commandWord (o a b c : Byte) : opcOf (commandWord o a b c) = o := by
  apply BitVec.eq_of_getLsbD_eq; intro i hi
  rw [opcOf, BitVec.getLsbD_extractLsb', getLsbD_commandWord, if_neg (by omega), if_neg (by omega), if_neg (by omega)]
  simp [hi]

@[simp] theorem aOf_commandWord (o a b c : Byte) : aOf (commandWord o a b c) = a := by
  apply BitVec.eq_of_getLsbD_eq; intro i hi
  rw [aOf, BitVec.getLsbD_extractLsb', getLsbD_commandWord, if_neg (by omega), if_neg (by omega), if_pos (by omega)]
  simp [hi]

@[simp] theorem bOf_commandWord (o a b c : Byte) : bOf (commandWord o a b c) = b := by
  apply BitVec.eq_of_getLsbD_eq; intro i hi
  rw [bOf, BitVec.getLsbD_extractLsb', getLsbD_commandWord, if_neg (by omega), if_pos (by omega)]
  simp [hi]

@[simp] theorem cOf_commandWord (o a b c : Byte) : cOf (commandWord o a b c) = c := by
  apply BitVec.eq_of_getLsbD_eq; intro i hi
  rw [cOf, BitVec.getLsbD_extractLsb', getLsbD_commandWord, if_pos (by omega)]
  simp [hi]

/-- A word is its four fields. -/
theorem commandWord_fields (cw : CommandWord) : commandWord (opcOf cw) (aOf cw) (bOf cw) (cOf cw) = cw := by
  apply BitVec.eq_of_getLsbD_eq; intro i hi
  rw [getLsbD_commandWord]
  simp only [opcOf, aOf, bOf, cOf, BitVec.getLsbD_extractLsb']
  split
  · simp [*]
  · split
    · rw [show 8 + (i - 8) = i by omega]; simp; omega
    · split
      · rw [show 16 + (i - 16) = i by omega]; simp; omega
      · rw [show 24 + (i - 24) = i by omega]; simp; omega

/-- Two words are equal when their fields are. -/
theorem commandWord_ext {x y : CommandWord} :
    x = y ↔ opcOf x = opcOf y ∧ aOf x = aOf y ∧ bOf x = bOf y ∧ cOf x = cOf y := by
  constructor
  · rintro rfl; simp
  · rintro ⟨h1, h2, h3, h4⟩
    rw [← commandWord_fields x, h1, h2, h3, h4, commandWord_fields]

theorem opcOf_and (x y : CommandWord) : opcOf (x &&& y) = opcOf x &&& opcOf y := by
  apply BitVec.eq_of_getLsbD_eq; intro i hi; simp [opcOf, hi]

theorem aOf_and (x y : CommandWord) : aOf (x &&& y) = aOf x &&& aOf y := by
  apply BitVec.eq_of_getLsbD_eq; intro i hi; simp [aOf, hi]

theorem bOf_and (x y : CommandWord) : bOf (x &&& y) = bOf x &&& bOf y := by
  apply BitVec.eq_of_getLsbD_eq; intro i hi; simp [bOf, hi]

theorem cOf_and (x y : CommandWord) : cOf (x &&& y) = cOf x &&& cOf y := by
  apply BitVec.eq_of_getLsbD_eq; intro i hi; simp [cOf, hi]

/-- A row accepts exactly the words whose reserved fields are 0 (rule R110). -/
theorem whenZero_eq_ok {ra rb rc : Byte} {i j : Instr} :
    whenZero ra rb rc i = .ok j ↔ (ra = 0 ∧ rb = 0 ∧ rc = 0) ∧ i = j := by
  simp only [whenZero]
  split
  · rename_i h; simp only [reduceCtorEq, false_iff]; exact fun hh => h hh.1.1
  · split
    · rename_i h; simp only [reduceCtorEq, false_iff]; exact fun hh => h hh.1.2.1
    · split
      · rename_i h; simp only [reduceCtorEq, false_iff]; exact fun hh => h hh.1.2.2
      · simp_all

/-- The target field of rule R92 carries the two bits of the code and zeros. -/
theorem target_field : ∀ t : StatusCode, (t.setWidth 8).extractLsb' 0 2 = t ∧ (t.setWidth 8 : Byte) &&& 252#8 = 0#8 := by
  decide

theorem target_of_field : ∀ b : Byte, b &&& 252#8 = 0#8 → (b.extractLsb' 0 2).setWidth 8 = b := by decide

/-- The data-toggle field of rule R92. -/
theorem dtog_field : ∀ d : DtogOp, dtogOf (dtogField d) = d ∧ dtogField d &&& 254#8 = 0#8 := by
  intro d; cases d <;> decide

theorem dtog_of_field : ∀ b : Byte, b &&& 254#8 = 0#8 → dtogField (dtogOf b) = b := by decide

/-! ## The wire frame (rules R93 to R95) -/

theorem splitFrame_encodeFrame {t o : Byte} {p : List Byte} (h : p.length ≤ 254) :
    splitFrame (encodeFrame t o p) = .ok (t, o, p) := by
  simp [splitFrame, encodeFrame]; omega

/-- A frame that splits is the encoding of its parts. -/
theorem encodeFrame_of_splitFrame {bytes : List Byte} {t o : Byte} {p : List Byte} (h : splitFrame bytes = .ok (t, o, p)) :
    bytes = encodeFrame t o p ∧ p.length ≤ 254 := by
  match bytes, h with
  | t' :: l :: o' :: p', h =>
    simp only [splitFrame] at h
    split at h
    · rename_i hl
      cases h
      have := l.isLt
      refine ⟨?_, by omega⟩
      simp only [encodeFrame, ← hl, BitVec.ofNat_toNat, BitVec.setWidth_eq]
    · cases h

/-! ## The Bluetooth payload (rule R102) -/

theorem length_flatMap_recordBytes (rs : List BtRecord) : (rs.flatMap recordBytes).length = 5 * rs.length := by
  induction rs with
  | nil => rfl
  | cons r rs ih => simp only [List.flatMap_cons, List.length_append, ih, recordBytes, List.length_cons, List.length_nil]; omega

theorem length_btBytes (rs : List BtRecord) : (btBytes rs).length = 2 + 5 * rs.length := by
  simp only [btBytes, List.length_cons, length_flatMap_recordBytes]; omega

theorem recordsOf_flatMap (rs : List BtRecord) : recordsOf (rs.flatMap recordBytes) = rs := by
  induction rs with
  | nil => rfl
  | cons r rs ih => simp [recordBytes, recordsOf, ih]

/-- Byte `j` of record `r`. -/
theorem getElem?_flatMap_recordBytes (rs : List BtRecord) (r j : Nat) (hj : j < 5) :
    (rs.flatMap recordBytes)[5 * r + j]? = rs[r]?.bind fun x => (recordBytes x)[j]? := by
  induction rs generalizing r with
  | nil => simp
  | cons x rs ih =>
    cases r with
    | zero =>
      rw [List.flatMap_cons, List.getElem?_append_left (by simp [recordBytes]; omega)]
      simp
    | succ r =>
      rw [List.flatMap_cons, List.getElem?_append_right (by simp [recordBytes]; omega)]
      rw [show 5 * (r + 1) + j - (recordBytes x).length = 5 * r + j by simp [recordBytes]; omega, ih]
      simp

/-! ## The opcode bytes (rule R9) -/

theorem codesOk_of_valid {c : Config} (h : c.valid = true) : c.codesOk = true := by
  simp only [Config.valid, Bool.and_eq_true] at h; exact h.1.2

/-- The twelve opcodes are pairwise distinct; the pairs a decoder meets. -/
theorem opcodes_distinct {c : Config} (h : c.valid = true) :
    (c.opConfigCmd ≠ c.opThemeMode ∧ c.opKey ≠ c.opThemeMode ∧ c.opMusic ≠ c.opThemeMode ∧ c.opGetThemeId ≠ c.opThemeMode
      ∧ c.opSetIndividualKeys ≠ c.opThemeMode)
      ∧ (c.opKey ≠ c.opConfigCmd ∧ c.opMusic ≠ c.opConfigCmd ∧ c.opGetThemeId ≠ c.opConfigCmd
        ∧ c.opSetIndividualKeys ≠ c.opConfigCmd)
      ∧ (c.opMusic ≠ c.opKey ∧ c.opGetThemeId ≠ c.opKey ∧ c.opSetIndividualKeys ≠ c.opKey)
      ∧ (c.opGetThemeId ≠ c.opMusic ∧ c.opSetIndividualKeys ≠ c.opMusic) ∧ c.opSetIndividualKeys ≠ c.opGetThemeId
      ∧ c.opAckConfigCmd ≠ c.opAckThemeMode ∧ c.opAckSetIndividualKeys ≠ c.opAckThemeMode
      ∧ c.opAckSetIndividualKeys ≠ c.opAckConfigCmd := by
  have hc := codesOk_of_valid h
  simp only [Config.codesOk, Bool.and_eq_true, decide_eq_true_eq] at hc
  have hn := hc.1.1.1.2
  simp only [Config.requestOps, Config.ackOps, List.cons_append, List.nil_append, List.nodup_cons, List.mem_cons,
    List.not_mem_nil, not_or] at hn
  obtain ⟨⟨t1, t2, t3, t4, t5, -⟩, ⟨c1, c2, c3, c4, -⟩, ⟨m1, m2, m3, -⟩, ⟨k1, k2, -⟩, ⟨i1, -⟩, -, ⟨a1, -, -, a2, -⟩,
    ⟨-, -, a3, -⟩, -⟩ := hn
  refine ⟨⟨Ne.symm t1, Ne.symm t3, Ne.symm t2, Ne.symm t5, Ne.symm t4⟩, ⟨Ne.symm c2, Ne.symm c1, Ne.symm c4, Ne.symm c3⟩,
    ⟨m1, Ne.symm k2, Ne.symm k1⟩, ⟨Ne.symm m3, Ne.symm m2⟩, i1, Ne.symm a1, Ne.symm a2, Ne.symm a3⟩

end Sys2Proof
end

