-- ==== Sys2Proof/Laws/Memory.lean ====
section
/-! SUPPORT. The laws of the memories: a read after a write, and that every memory operation keeps the canonical form and the bound. -/
namespace Sys2Proof.Machine

@[simp] theorem Memory.read_nil (a : Nat) : Memory.read [] a = blank := rfl

/-- Reading past every listed address, of a memory whose addresses are above `a`, gives the unlisted byte. -/
theorem Memory.read_of_all_gt {m : Memory} {a : Nat} (h : ∀ p ∈ m, a < p.1) : Memory.read m a = blank := by
  induction m with
  | nil => rfl
  | cons p rest ih =>
    obtain ⟨x, v⟩ := p
    have hx : a < x := h (x, v) (by simp)
    simp only [Memory.read]
    rw [if_neg (by omega)]
    exact ih fun q hq => h q (by simp [hq])

theorem Memory.mem_write {m : Memory} {a : Nat} {b : Byte} {p : Host.Cell} (h : p ∈ Memory.write m a b) :
    p = (a, b) ∨ p ∈ m := by
  induction m with
  | nil =>
    simp only [Memory.write] at h
    split at h <;> simp_all
  | cons q rest ih =>
    obtain ⟨x, v⟩ := q
    simp only [Memory.write] at h
    split at h
    · split at h <;> simp_all
    · split at h
      · split at h
        · exact Or.inr (List.mem_cons_of_mem _ h)
        · rename_i hax _
          rcases List.mem_cons.mp h with h | h
          · exact Or.inl (hax ▸ h)
          · exact Or.inr (List.mem_cons_of_mem _ h)
      · rcases List.mem_cons.mp h with h | h
        · simp [h]
        · rcases ih h with h | h <;> simp [h]

theorem Memory.wf_iff {m : Memory} :
    Memory.wf m = true ↔ m.Pairwise (fun p q => p.1 < q.1) ∧ ∀ p ∈ m, p.2 ≠ blank := by
  simp [Memory.wf]

theorem Memory.wf_nil : Memory.wf [] = true := rfl

/-- A write keeps the canonical form. -/
theorem Memory.wf_write {m : Memory} (a : Nat) (b : Byte) (h : Memory.wf m = true) :
    Memory.wf (Memory.write m a b) = true := by
  rw [Memory.wf_iff] at h ⊢
  induction m with
  | nil =>
    simp only [Memory.write]
    split <;> simp_all
  | cons q rest ih =>
    obtain ⟨x, v⟩ := q
    obtain ⟨hp, hb⟩ := h
    rw [List.pairwise_cons] at hp
    have hrest := ih ⟨hp.2, fun p hpm => hb p (by simp [hpm])⟩
    simp only [Memory.write]
    split
    · split
      · exact ⟨List.pairwise_cons.mpr hp, hb⟩
      · rename_i hlt hne
        refine ⟨List.pairwise_cons.mpr ⟨fun p hpm => ?_, List.pairwise_cons.mpr hp⟩, fun p hpm => ?_⟩
        · rcases List.mem_cons.mp hpm with rfl | hpm
          · exact hlt
          · exact Nat.lt_trans hlt (hp.1 p hpm)
        · rcases List.mem_cons.mp hpm with rfl | hpm
          · exact hne
          · exact hb p hpm
    · split
      · rename_i hlt heq
        subst heq
        split
        · exact ⟨hp.2, fun p hpm => hb p (by simp [hpm])⟩
        · rename_i hne
          refine ⟨List.pairwise_cons.mpr hp, fun p hpm => ?_⟩
          rcases List.mem_cons.mp hpm with rfl | hpm
          · exact hne
          · exact hb p (by simp [hpm])
      · rename_i hlt hne
        refine ⟨List.pairwise_cons.mpr ⟨fun p hpm => ?_, hrest.1⟩, fun p hpm => ?_⟩
        · rcases Memory.mem_write hpm with rfl | hpm
          · show x < a
            omega
          · exact hp.1 p hpm
        · rcases List.mem_cons.mp hpm with rfl | hpm
          · exact hb _ (by simp)
          · exact hrest.2 p hpm

/-- A write at an address below the bound keeps the bound. -/
theorem Memory.below_write {m : Memory} {n a : Nat} (b : Byte) (ha : a < n) (h : Memory.below m n = true) :
    Memory.below (Memory.write m a b) n = true := by
  simp only [Memory.below, List.all_eq_true, decide_eq_true_eq] at h ⊢
  intro p hp
  rcases Memory.mem_write hp with rfl | hp
  · exact ha
  · exact h p hp

/-- Reading the byte just written (canonical memories). -/
theorem Memory.read_write_self {m : Memory} (a : Nat) (b : Byte) (h : Memory.wf m = true) :
    Memory.read (Memory.write m a b) a = b := by
  rw [Memory.wf_iff] at h
  induction m with
  | nil =>
    simp only [Memory.write]
    split <;> simp_all [Memory.read]
  | cons q rest ih =>
    obtain ⟨x, v⟩ := q
    obtain ⟨hp, hb⟩ := h
    rw [List.pairwise_cons] at hp
    simp only [Memory.write]
    split
    · rename_i hlt
      split
      · rename_i hbl
        rw [hbl]
        refine Memory.read_of_all_gt fun p hpm => ?_
        rcases List.mem_cons.mp hpm with rfl | hpm
        · exact hlt
        · exact Nat.lt_trans hlt (hp.1 p hpm)
      · simp [Memory.read]
    · split
      · rename_i hlt heq
        subst heq
        split
        · rename_i hbl
          rw [hbl]
          exact Memory.read_of_all_gt fun p hpm => hp.1 p hpm
        · simp [Memory.read]
      · rename_i hlt hne
        simp only [Memory.read]
        rw [if_neg (fun hxa => hne hxa.symm)]
        exact ih ⟨hp.2, fun p hpm => hb p (by simp [hpm])⟩

/-- Every other byte is as before. -/
theorem Memory.read_write_other {m : Memory} {a a' : Nat} (b : Byte) (hne : a' ≠ a) (h : Memory.wf m = true) :
    Memory.read (Memory.write m a b) a' = Memory.read m a' := by
  rw [Memory.wf_iff] at h
  induction m with
  | nil =>
    simp only [Memory.write]
    split
    · rfl
    · simp only [Memory.read]
      rw [if_neg (fun e => hne e.symm)]
  | cons q rest ih =>
    obtain ⟨x, v⟩ := q
    obtain ⟨hp, hb⟩ := h
    rw [List.pairwise_cons] at hp
    simp only [Memory.write]
    split
    · split
      · rfl
      · rw [Memory.read, if_neg (fun e => hne e.symm)]
    · split
      · rename_i hlt heq
        subst heq
        split
        · rename_i hbl
          conv_rhs => rw [Memory.read]
          rw [if_neg (fun e => hne e.symm)]
        · simp only [Memory.read]
          rw [if_neg (fun e => hne e.symm), if_neg (fun e => hne e.symm)]
      · rename_i hlt hne'
        simp only [Memory.read]
        split
        · rfl
        · exact ih ⟨hp.2, fun p hpm => hb p (by simp [hpm])⟩

theorem Memory.wf_writeBytes {m : Memory} (a : Nat) (bs : List Byte) (h : Memory.wf m = true) :
    Memory.wf (Memory.writeBytes m a bs) = true := by
  induction bs generalizing m a with
  | nil => exact h
  | cons b bs ih => exact ih (a + 1) (Memory.wf_write a b h)

theorem Memory.below_writeBytes {m : Memory} {n : Nat} (a : Nat) (bs : List Byte) (ha : a + bs.length ≤ n)
    (h : Memory.below m n = true) : Memory.below (Memory.writeBytes m a bs) n = true := by
  induction bs generalizing m a with
  | nil => exact h
  | cons b bs ih =>
    simp only [List.length_cons] at ha
    exact ih (a + 1) (by omega) (Memory.below_write b (by omega) h)

/-- A byte outside the run written is as before. -/
theorem Memory.read_writeBytes_outside {m : Memory} {a a' : Nat} (bs : List Byte) (hout : a' < a ∨ a + bs.length ≤ a')
    (h : Memory.wf m = true) : Memory.read (Memory.writeBytes m a bs) a' = Memory.read m a' := by
  induction bs generalizing m a with
  | nil => rfl
  | cons b bs ih =>
    simp only [List.length_cons] at hout
    simp only [Memory.writeBytes]
    rw [ih (by omega) (Memory.wf_write a b h), Memory.read_write_other b (by omega) h]

/-- A byte inside the run written is the one written. -/
theorem Memory.read_writeBytes_inside {m : Memory} {a i : Nat} (bs : List Byte) (hi : i < bs.length)
    (h : Memory.wf m = true) : Memory.read (Memory.writeBytes m a bs) (a + i) = bs.getD i 0 := by
  induction bs generalizing m a i with
  | nil => simp at hi
  | cons b bs ih =>
    simp only [Memory.writeBytes]
    cases i with
    | zero =>
      rw [Memory.read_writeBytes_outside bs (Or.inl (by omega)) (Memory.wf_write a b h), Nat.add_zero,
        Memory.read_write_self a b h]
      rfl
    | succ i =>
      simp only [List.length_cons] at hi
      rw [show a + (i + 1) = (a + 1) + i from by omega, ih (by omega) (Memory.wf_write a b h)]
      rfl

@[simp] theorem Memory.length_readBytes (m : Memory) (a n : Nat) : (Memory.readBytes m a n).length = n := by
  simp [Memory.readBytes]

theorem Memory.getD_readBytes (m : Memory) {a n i : Nat} (hi : i < n) :
    (Memory.readBytes m a n).getD i 0 = Memory.read m (a + i) := by
  simp [Memory.readBytes, List.getD_eq_getElem?_getD, hi]

/-- Reading back the whole run written. -/
theorem Memory.readBytes_writeBytes {m : Memory} (a : Nat) (bs : List Byte) (h : Memory.wf m = true) :
    Memory.readBytes (Memory.writeBytes m a bs) a bs.length = bs := by
  apply List.ext_getElem
  · simp
  · intro i h1 h2
    have := Memory.read_writeBytes_inside (a := a) bs h2 h
    simp only [Memory.readBytes, List.getElem_map, List.getElem_range, this]
    simp [List.getD_eq_getElem?_getD, h2]

theorem wf_memoryOf (bs : List Byte) : Memory.wf (memoryOf bs) = true := Memory.wf_writeBytes 0 bs Memory.wf_nil

theorem below_memoryOf {bs : List Byte} {n : Nat} (h : bs.length ≤ n) : Memory.below (memoryOf bs) n = true :=
  Memory.below_writeBytes 0 bs (by omega) rfl

/-- Canonical memories that read alike are equal data. -/
theorem Memory.ext_read {m m' : Memory} (h : Memory.wf m = true) (h' : Memory.wf m' = true)
    (hr : ∀ a, Memory.read m a = Memory.read m' a) : m = m' := by
  rw [Memory.wf_iff] at h h'
  induction m generalizing m' with
  | nil =>
    cases m' with
    | nil => rfl
    | cons q rest =>
      obtain ⟨y, w⟩ := q
      have := hr y
      simp only [Memory.read, if_pos] at this
      exact absurd this.symm (h'.2 (y, w) (by simp))
  | cons p rest ih =>
    obtain ⟨x, v⟩ := p
    obtain ⟨hp, hb⟩ := h
    rw [List.pairwise_cons] at hp
    cases m' with
    | nil =>
      have := hr x
      simp only [Memory.read, if_pos] at this
      exact absurd this (hb (x, v) (by simp))
    | cons q rest' =>
      obtain ⟨y, w⟩ := q
      obtain ⟨hp', hb'⟩ := h'
      rw [List.pairwise_cons] at hp'
      have hxy : x = y := by
        rcases Nat.lt_trichotomy x y with hlt | heq | hgt
        · have := hr x
          rw [Memory.read_of_all_gt (m := (y, w) :: rest') (a := x)] at this
          · simp only [Memory.read, if_pos] at this
            exact absurd this (hb (x, v) (by simp))
          · intro q hq
            rcases List.mem_cons.mp hq with rfl | hq
            · exact hlt
            · exact Nat.lt_trans hlt (hp'.1 q hq)
        · exact heq
        · have := hr y
          rw [Memory.read_of_all_gt (m := (x, v) :: rest) (a := y)] at this
          · simp only [Memory.read, if_pos] at this
            exact absurd this.symm (hb' (y, w) (by simp))
          · intro q hq
            rcases List.mem_cons.mp hq with rfl | hq
            · exact hgt
            · exact Nat.lt_trans hgt (hp.1 q hq)
      subst hxy
      have hv : v = w := by simpa [Memory.read] using hr x
      subst hv
      rw [ih ⟨hp.2, fun p hpm => hb p (by simp [hpm])⟩ (m' := rest') ⟨hp'.2, fun p hpm => hb' p (by simp [hpm])⟩ ?_]
      intro a
      by_cases hax : a = x
      · subst hax
        rw [Memory.read_of_all_gt hp.1, Memory.read_of_all_gt hp'.1]
      · have := hr a
        simp only [Memory.read] at this
        rwa [if_neg (fun e => hax e.symm), if_neg (fun e => hax e.symm)] at this

end Sys2Proof.Machine
end

