-- ==== Sys2Proof/Laws/Link.lean ====
section
/-! SUPPORT. What the operations on the two slots answer (rules R160, R165, R167, R168, R170, R210, R216), one lemma per case, and the
parts of the invariant they need. -/
namespace Sys2Proof.Machine

/-! ## The parts of the invariant -/

/-- The eight parts of the invariant. -/
theorem State.inv_iff {s : State} :
    s.inv = true ↔ s.cfg.valid = true ∧ s.storageOk = true ∧ s.txOk = true ∧ s.rxOk = true ∧ s.stackOk = true
      ∧ s.pendings.all s.pendingOk = true ∧ s.answersOk = true ∧ s.faults.Nodup := by
  simp [State.inv, and_assoc]

/-- The storage part, spelled out. -/
theorem State.storageOk_iff {s : State} :
    s.storageOk = true ↔ s.epr.length = s.cfg.nEp ∧ s.rxb.length = s.cfg.nRxBuf ∧ s.ks.length = s.cfg.nKeys
      ∧ (Memory.wf s.txb = true ∧ Memory.below s.txb s.cfg.txCap = true)
      ∧ (∀ m ∈ s.rxb, Memory.wf m = true ∧ Memory.below m s.cfg.rxCap = true)
      ∧ (Memory.wf s.pay = true ∧ Memory.below s.pay s.cfg.payCap = true) := by
  simp [State.storageOk, memoryOk, and_assoc]

theorem inv_valid {s : State} (h : s.inv = true) : s.cfg.valid = true := (State.inv_iff.1 h).1

theorem inv_storage {s : State} (h : s.inv = true) : s.storageOk = true := (State.inv_iff.1 h).2.1

theorem wf_txb {s : State} (h : s.inv = true) : Memory.wf s.txb = true := (State.storageOk_iff.1 (inv_storage h)).2.2.2.1.1

theorem wf_pay {s : State} (h : s.inv = true) : Memory.wf s.pay = true := (State.storageOk_iff.1 (inv_storage h)).2.2.2.2.2.1

theorem wf_rxb {s : State} (h : s.inv = true) (k : Nat) : Memory.wf (s.rxb.getD k []) = true := by
  rw [List.getD_eq_getElem?_getD]
  cases hk : s.rxb[k]? with
  | none => rfl
  | some m => exact ((State.storageOk_iff.1 (inv_storage h)).2.2.2.2.1 m (List.mem_of_getElem? hk)).1

/-! ## Capacities (rules R9, R162) -/

theorem sizes_of_valid {c : Config} (h : c.valid = true) :
    1 ≤ c.nEp ∧ c.nEp ≤ 256 ∧ 3 ≤ c.txCap ∧ c.txCap ≤ 257 ∧ 3 ≤ c.rxCap ∧ 1 ≤ c.nRxBuf ∧ 1 ≤ c.nKeys
      ∧ c.nKeys ≤ 8 * c.maxPay := by
  simp [Config.valid, Config.sizesOk] at h
  omega

/-- A payload that `MAXPAY` admits fits `TXB` with its header, and its length byte does not overflow. -/
theorem fits_of_le_maxPay {c : Config} (h : c.valid = true) {n : Nat} (hn : n ≤ c.maxPay) : 3 + n ≤ c.txCap ∧ n ≤ 254 := by
  have := sizes_of_valid h
  simp only [Config.maxPay] at hn
  omega

/-- From `PAY[0 .. n]`, an admitted payload. -/
theorem payload_of_le {s : State} {n : Nat} (hn : n ≤ s.cfg.maxPay) : s.payload n = some (Memory.readBytes s.pay 0 n) := by
  simp [State.payload, State.memRead, State.sizeOf, State.bytesOf, Config.payCap, hn]

/-! ## SEND (rules R160 to R162) -/

@[simp] theorem length_encodeFrame (t o : Byte) (p : List Byte) : (encodeFrame t o p).length = 3 + p.length := by
  simp [encodeFrame]; omega

theorem linkSend_tooLong {t o : Byte} {p : List Byte} {s : State} (h : s.cfg.maxPay < p.length) :
    linkSend t o p s = s.raise (.sendTooLong p.length) := by
  simp [linkSend, h]

theorem linkSend_busy {t o : Byte} {p : List Byte} {s : State} (h : p.length ≤ s.cfg.maxPay) (hs : s.tx.st ≠ .empty) :
    linkSend t o p s = .next (.wouldBlock, s) := by
  simp [linkSend, Nat.not_lt.2 h, hs]

theorem linkSend_accepts {t o : Byte} {p : List Byte} {s : State} (hv : s.cfg.valid = true) (h : p.length ≤ s.cfg.maxPay)
    (hs : s.tx.st = .empty) :
    linkSend t o p s = .next (.ok,
      { s with txb := Memory.writeBytes s.txb 0 (encodeFrame t o p), tx := ⟨.inFlight, 3 + p.length, 0⟩ }) := by
  have hf := (fits_of_le_maxPay hv h).1
  simp [linkSend, Nat.not_lt.2 h, hs, State.memWrite, State.sizeOf, State.bytesOf, State.withBytes, State.withTx, hf]

/-- The three outcomes of SEND. -/
theorem linkSend_cases {t o : Byte} {p : List Byte} {s : State} {r : Result} {s' : State}
    (h : linkSend t o p s = .next (r, s')) :
    (r = .fault (.sendTooLong p.length) ∧ s.cfg.maxPay < p.length ∧ s' = s.addFault (.sendTooLong p.length))
      ∨ (r = .wouldBlock ∧ p.length ≤ s.cfg.maxPay ∧ s.tx.st ≠ .empty ∧ s' = s)
      ∨ (r = .ok ∧ p.length ≤ s.cfg.maxPay ∧ s.tx.st = .empty ∧ 3 + p.length ≤ s.cfg.txCap
          ∧ s' = { s with txb := Memory.writeBytes s.txb 0 (encodeFrame t o p), tx := ⟨.inFlight, 3 + p.length, 0⟩ }) := by
  by_cases hl : s.cfg.maxPay < p.length
  · rw [linkSend_tooLong hl, State.raise] at h
    cases h; exact .inl ⟨rfl, hl, rfl⟩
  · by_cases hs : s.tx.st = .empty
    · by_cases hf : 3 + p.length ≤ s.cfg.txCap
      · simp [linkSend, hl, hs, State.memWrite, State.sizeOf, State.bytesOf, State.withBytes, State.withTx, hf] at h
        obtain ⟨rfl, rfl⟩ := h
        exact .inr (.inr ⟨rfl, Nat.not_lt.1 hl, hs, hf, rfl⟩)
      · simp [linkSend, hl, hs, State.memWrite, State.sizeOf, hf] at h
    · rw [linkSend_busy (Nat.not_lt.1 hl) hs] at h
      cases h; exact .inr (.inl ⟨rfl, Nat.not_lt.1 hl, hs, rfl⟩)

theorem linkSendStaged_tooLong {t o n : Byte} {s : State} (h : s.cfg.maxPay < n.toNat) :
    linkSendStaged t o n s = s.raise (.sendTooLong n.toNat) := by
  simp [linkSendStaged, h]

theorem linkSendStaged_of_le {t o n : Byte} {s : State} (h : n.toNat ≤ s.cfg.maxPay) :
    linkSendStaged t o n s = linkSend t o (Memory.readBytes s.pay 0 n.toNat) s := by
  simp [linkSendStaged, Nat.not_lt.2 h, payload_of_le h]

/-- In a state whose `PAY` and parameters are in order, a staged SEND is the SEND of the staged bytes. -/
theorem linkSendStaged_eq {t o n : Byte} {s : State} :
    linkSendStaged t o n s = linkSend t o (Memory.readBytes s.pay 0 n.toNat) s := by
  by_cases h : s.cfg.maxPay < n.toNat
  · rw [linkSendStaged_tooLong h, linkSend_tooLong (by simpa using h), Memory.length_readBytes]
  · exact linkSendStaged_of_le (Nat.not_lt.1 h)

/-- A frame written at the start of `TXB` reads back byte by byte, and the bytes above it are as before. -/
theorem acceptsFrame_of_written {s t : State} {h o : Byte} {p : List Byte} (hw : Memory.wf s.txb = true) (hp : p.length ≤ 254)
    (htx : t.tx = ⟨.inFlight, 3 + p.length, 0⟩) (htxb : t.txb = Memory.writeBytes s.txb 0 (encodeFrame h o p))
    (hrest : t = { s with ind := t.ind, tx := t.tx, txb := t.txb, answers := t.answers, handlers := t.handlers, mainOp := t.mainOp }) :
    AcceptsFrame s t h o p := by
  have hin : ∀ i, i < 3 + p.length → Memory.read t.txb i = (encodeFrame h o p).getD i 0 := by
    intro i hi
    have := Memory.read_writeBytes_inside (m := s.txb) (a := 0) (i := i) (encodeFrame h o p) (by simpa using hi) hw
    rw [htxb]; simpa using this
  refine ⟨htx, ?_, ?_, ?_, ?_, ?_, hrest⟩
  · simpa [encodeFrame] using hin 0 (by omega)
  · rw [hin 1 (by omega)]
    simp [encodeFrame]; omega
  · simpa [encodeFrame] using hin 2 (by omega)
  · intro i hi
    rw [hin (3 + i) (by omega)]
    simp [encodeFrame, Nat.add_comm 3 i]
  · intro a ha
    rw [htxb]
    exact Memory.read_writeBytes_outside _ (by simp; omega) hw

/-- An instruction that is one SEND. -/
theorem behavesAsSend_of_linkSend {i : Instr} {s : State} {h o : Byte} {p : List Byte} (hinv : s.inv = true)
    (he : exec i s = conclude (linkSend h o p s)) : BehavesAsSend i s h o p := by
  have hv := inv_valid hinv
  refine ⟨fun hl => ?_, fun hl hs => ?_, fun hl hs => ?_⟩
  · rw [he, linkSend_tooLong hl]; exact conclude_raise s _
  · rw [he, linkSend_busy hl hs]
    exact ⟨_, rfl, endsWith_finish _ rfl rfl rfl, keepsBlock_finish s _⟩
  · rw [he, linkSend_accepts hv hl hs]
    exact ⟨_, rfl, endsWith_finish _ rfl rfl rfl,
      acceptsFrame_of_written (wf_txb hinv) (fits_of_le_maxPay hv hl).2 rfl rfl rfl⟩

/-! ## DISPATCH (rules R213 to R216) -/

theorem isAckPair_iff {c : Config} {t o : Byte} :
    isAckPair c t o = true
      ↔ t = c.mtLed ∧ (o = c.opAckThemeMode ∨ o = c.opAckConfigCmd ∨ o = c.opAckSetIndividualKeys) := by
  simp [isAckPair, or_assoc]

/-- Everything DISPATCH does: `LOG` and the count of free values aside, nothing. -/
theorem dispatchPair_frame (t o : Byte) (s : State) :
    dispatchPair t o s = { s with log := (dispatchPair t o s).log, freeTick := (dispatchPair t o s).freeTick } := by
  unfold dispatchPair logAck
  split
  · split
    · rfl
    · rfl
    · split <;> rfl
  · rfl

theorem dispatchPair_drop {t o : Byte} {s : State} (h : isAckPair s.cfg t o = false) :
    dispatchPair t o s = s.emitLog (.drop t o) := by
  simp [dispatchPair, h]

theorem dispatchPair_ack {t o : Byte} {s : State} (h : isAckPair s.cfg t o = true) : dispatchPair t o s = logAck o s := by
  simp [dispatchPair, h]

/-! ## The other operations of the Link Transport and PARSE -/

/-- Only FINISH's own case changes the receive slot. -/
theorem linkFinish_cases {s s' : State} {r : Result} (h : linkFinish s = .next (r, s')) :
    (s.rx.st = .empty ∧ r = .fault .noTransfer ∧ s' = s.addFault .noTransfer)
      ∨ (s.rx.st = .inFlight ∧ r = .fault .finishNotReady ∧ s' = s.addFault .finishNotReady)
      ∨ (s.rx.st = .complete ∧ r = .okBuffer s.rx.buf ∧ s' = s.withRx { s.rx with st := .empty }) := by
  unfold linkFinish at h
  cases hs : s.rx.st <;> simp only [hs, State.raise] at h <;> cases h <;> simp

theorem linkPoll_cases {s s' : State} {r : Result} (h : linkPoll s = .next (r, s')) :
    (s.rx.st = .empty ∧ r = .fault .noTransfer ∧ s' = s.addFault .noTransfer)
      ∨ (s.rx.st = .inFlight ∧ r = .wouldBlock ∧ s' = s)
      ∨ (s.rx.st = .complete ∧ r = .ok ∧ s' = s) := by
  unfold linkPoll at h
  cases hs : s.rx.st <;> simp only [hs, State.raise] at h <;> cases h <;> simp

theorem linkAdvance_cases {s s' : State} {r : Result} (h : linkAdvance s = .next (r, s')) :
    (s.tx.st = .complete ∧ r = .ok ∧ s' = s.withTx { s.tx with st := .empty })
      ∨ (s.tx.st = .inFlight ∧ r = .wouldBlock ∧ s' = s)
      ∨ (s.tx.st = .empty ∧ r = .ok ∧ s' = s) := by
  unfold linkAdvance at h
  cases hs : s.tx.st <;> simp only [hs] at h <;> cases h <;> simp

/-- RECEIVE faults, or arms the empty slot with operands in range. -/
theorem linkReceive_cases {k len : Byte} {s s' : State} {r : Result} (h : linkReceive k len s = .next (r, s')) :
    (∃ f, r = .fault f ∧ s' = s.addFault f)
      ∨ (r = .ok ∧ bufferOk s.cfg k = true ∧ lengthOk s.cfg len = true ∧ s.rx.st = .empty
          ∧ s' = s.withRx ⟨.inFlight, k.toNat, len.toNat, 0⟩) := by
  unfold linkReceive at h
  simp only [State.raise] at h
  split at h
  · cases h; exact .inl ⟨_, rfl, rfl⟩
  · split at h
    · cases h; exact .inl ⟨_, rfl, rfl⟩
    · split at h
      · cases h; exact .inl ⟨_, rfl, rfl⟩
      · cases h; simp_all

/-- The three header bytes of an existing buffer. -/
theorem memRead_header {s : State} (hv : s.cfg.valid = true) {k : Nat} (hk : k < s.cfg.nRxBuf) :
    s.memRead (.rxb k) 0 3
      = some [Memory.read (s.rxb.getD k []) 0, Memory.read (s.rxb.getD k []) 1, Memory.read (s.rxb.getD k []) 2] := by
  have := (sizes_of_valid hv).2.2.2.2.1
  simp [State.memRead, State.sizeOf, State.bytesOf, hk, this, Memory.readBytes, List.range_succ]

/-- PARSE of an existing buffer the core owns, in the order of rule R273. -/
theorem parseBuffer_eq {s : State} (hv : s.cfg.valid = true) {k : Nat} (hk : k < s.cfg.nRxBuf)
    (ho : ¬(s.rx.st = .inFlight ∧ s.rx.buf = k)) :
    parseBuffer k s =
      (if (Memory.read (s.rxb.getD k []) 1).toNat = 0 then s.raise (.parseLengthZero k)
       else if (Memory.read (s.rxb.getD k []) 1).toNat + 2 ≤ s.cfg.rxCap then
         .next (.okMessage ⟨Memory.read (s.rxb.getD k []) 0, Memory.read (s.rxb.getD k []) 2,
           Memory.readBytes (s.rxb.getD k []) 3 ((Memory.read (s.rxb.getD k []) 1).toNat - 1)⟩, s)
       else if s.cfg.parseBoundsCheck then s.raise (.parseBounds k (Memory.read (s.rxb.getD k []) 1).toNat)
       else .refused .parsePastBuffer) := by
  unfold parseBuffer
  rw [if_neg ho, memRead_header hv hk]
  simp only
  split
  · rfl
  · rename_i h0
    by_cases hl : (Memory.read (s.rxb.getD k []) 1).toNat + 2 ≤ s.cfg.rxCap
    · have : 3 + ((Memory.read (s.rxb.getD k []) 1).toNat - 1) ≤ s.cfg.rxCap := by omega
      simp only [State.memRead, State.sizeOf, State.bytesOf, hk, this, hl, if_true]
    · have : ¬(3 + ((Memory.read (s.rxb.getD k []) 1).toNat - 1) ≤ s.cfg.rxCap) := by omega
      simp only [State.memRead, State.sizeOf, hk, this, hl, if_true, if_false]

/-- PARSE writes nothing but FAULT. -/
theorem parseBuffer_cases {s s' : State} {k : Nat} {r : Result} (h : parseBuffer k s = .next (r, s')) :
    (∃ f, r = .fault f ∧ s' = s.addFault f) ∨ (∃ m, r = .okMessage m ∧ s' = s) := by
  unfold parseBuffer at h
  simp only [State.raise] at h
  split at h
  · cases h; exact .inl ⟨_, rfl, rfl⟩
  · split at h
    · split at h
      · cases h; exact .inl ⟨_, rfl, rfl⟩
      · split at h
        · cases h; exact .inr ⟨_, rfl, rfl⟩
        · split at h
          · cases h; exact .inl ⟨_, rfl, rfl⟩
          · cases h
    · cases h

end Sys2Proof.Machine
end

