-- ==== Sys2Proof/Laws/PerInstr.lean ====
section
/-! SUPPORT. One lemma per constructor: the encoding of every well-formed instruction lies on the row of the opcode table that its
constructor names (rules R96, R98, R99). -/
namespace Sys2Proof.Laws.TableRow

/-- The mnemonic of an operation in rule R96; empty for a wire frame. -/
def opName : Instr → String
  | .settx _ _ _ => "SETTX"
  | .setrx _ _ _ => "SETRX"
  | .clrtx _ => "CLRTX"
  | .clrrx _ => "CLRRX"
  | .send _ _ _ => "SEND"
  | .receive _ _ => "RECEIVE"
  | .poll => "POLL"
  | .finish => "FINISH"
  | .txadv => "TXADV"
  | .parse _ => "PARSE"
  | .dispatch _ _ => "DISPATCH"
  | .toggle => "TOGGLE"
  | .thememode => "THEMEMODE"
  | .nexttheme => "NEXTTHEME"
  | .nextbright => "NEXTBRIGHT"
  | .nextspeed => "NEXTSPEED"
  | .settheme _ => "SETTHEME"
  | .sendkeys => "SENDKEYS"
  | .sendmusic _ => "SENDMUSIC"
  | .getthemeid => "GETTHEMEID"
  | .setkeys _ => "SETKEYS"
  | .btmode _ => "BTMODE"
  | .ledcpoll _ _ => "LEDCPOLL"
  | .frameThemeModeReassert => ""
  | .frameThemeModeSet _ => ""
  | .frameConfigCmdTheme => ""
  | .frameConfigCmdBrightness => ""
  | .frameConfigCmdSpeed => ""
  | .frameKey _ => ""
  | .frameMusic _ => ""
  | .frameGetThemeId => ""
  | .frameSetIndividualKeys _ => ""
  | .frameSetIndividualKeysBluetooth _ => ""
  | .frameAckThemeMode _ => ""
  | .frameAckConfigCmd _ => ""
  | .frameAckSetIndividualKeys _ => ""
  | .frameOther _ _ _ => ""

/-- An operation's word selects the row of its own name by mask and match; an outgoing frame is a whole frame on channel `MT_LED` with a
request opcode; an incoming frame is a whole frame. -/
def Statement (i : Instr) : Prop :=
  ∀ c : Config, c.valid = true → i.wf c = true →
    match encode c i with
    | .command cw => ∃ row ∈ commandRows, row.mnemonic = opName i ∧ cw &&& row.mask = row.pattern
    | .wireOut bytes => ∃ o p, splitFrame bytes = .ok (c.mtLed, o, p) ∧ o ∈ c.requestOps
    | .wireIn bytes => ∃ t o p, splitFrame bytes = .ok (t, o, p)

/-- A word selects a row when each of its fields does. -/
theorem selects {o a b c : Byte} {mask pattern : CommandWord} (h0 : o &&& opcOf mask = opcOf pattern)
    (h1 : a &&& aOf mask = aOf pattern) (h2 : b &&& bOf mask = bOf pattern) (h3 : c &&& cOf mask = cOf pattern) :
    commandWord o a b c &&& mask = pattern := by
  rw [commandWord_ext, opcOf_and, aOf_and, bOf_and, cOf_and]; simp [h0, h1, h2, h3]

/-- A byte under a mask of zeros. -/
theorem free_field : ∀ x : Byte, x &&& 0#8 = 0#8 := by decide

theorem settx (e : Byte) (target : StatusCode) (d : DtogOp) : Statement (.settx e target d) := fun _ _ _ =>
  ⟨commandRows[0], by decide, rfl, selects rfl (free_field _) (target_field _).2 (dtog_field _).2⟩
theorem setrx (e : Byte) (target : StatusCode) (d : DtogOp) : Statement (.setrx e target d) := fun _ _ _ =>
  ⟨commandRows[1], by decide, rfl, selects rfl (free_field _) (target_field _).2 (dtog_field _).2⟩
theorem clrtx (e : Byte) : Statement (.clrtx e) := fun _ _ _ =>
  ⟨commandRows[2], by decide, rfl, selects rfl (free_field _) rfl rfl⟩
theorem clrrx (e : Byte) : Statement (.clrrx e) := fun _ _ _ =>
  ⟨commandRows[3], by decide, rfl, selects rfl (free_field _) rfl rfl⟩
theorem send (t : Byte) (o : Byte) (n : Byte) : Statement (.send t o n) := fun _ _ _ =>
  ⟨commandRows[4], by decide, rfl, selects rfl (free_field _) (free_field _) (free_field _)⟩
theorem receive (k : Byte) (len : Byte) : Statement (.receive k len) := fun _ _ _ =>
  ⟨commandRows[5], by decide, rfl, selects rfl (free_field _) rfl (free_field _)⟩
theorem poll : Statement (.poll) := fun _ _ _ =>
  ⟨commandRows[6], by decide, rfl, selects rfl rfl rfl rfl⟩
theorem finish : Statement (.finish) := fun _ _ _ =>
  ⟨commandRows[7], by decide, rfl, selects rfl rfl rfl rfl⟩
theorem txadv : Statement (.txadv) := fun _ _ _ =>
  ⟨commandRows[8], by decide, rfl, selects rfl rfl rfl rfl⟩
theorem parse (k : Byte) : Statement (.parse k) := fun _ _ _ =>
  ⟨commandRows[9], by decide, rfl, selects rfl (free_field _) rfl rfl⟩
theorem dispatch (t : Byte) (o : Byte) : Statement (.dispatch t o) := fun _ _ _ =>
  ⟨commandRows[10], by decide, rfl, selects rfl (free_field _) (free_field _) rfl⟩
theorem toggle : Statement (.toggle) := fun _ _ _ =>
  ⟨commandRows[11], by decide, rfl, selects rfl rfl rfl rfl⟩
theorem thememode : Statement (.thememode) := fun _ _ _ =>
  ⟨commandRows[12], by decide, rfl, selects rfl rfl rfl rfl⟩
theorem nexttheme : Statement (.nexttheme) := fun _ _ _ =>
  ⟨commandRows[13], by decide, rfl, selects rfl rfl rfl rfl⟩
theorem nextbright : Statement (.nextbright) := fun _ _ _ =>
  ⟨commandRows[14], by decide, rfl, selects rfl rfl rfl rfl⟩
theorem nextspeed : Statement (.nextspeed) := fun _ _ _ =>
  ⟨commandRows[15], by decide, rfl, selects rfl rfl rfl rfl⟩
theorem settheme (id : Byte) : Statement (.settheme id) := fun _ _ _ =>
  ⟨commandRows[16], by decide, rfl, selects rfl (free_field _) rfl rfl⟩
theorem sendkeys : Statement (.sendkeys) := fun _ _ _ =>
  ⟨commandRows[17], by decide, rfl, selects rfl rfl rfl rfl⟩
theorem sendmusic (n : Byte) : Statement (.sendmusic n) := fun _ _ _ =>
  ⟨commandRows[18], by decide, rfl, selects rfl rfl rfl (free_field _)⟩
theorem getthemeid : Statement (.getthemeid) := fun _ _ _ =>
  ⟨commandRows[19], by decide, rfl, selects rfl rfl rfl rfl⟩
theorem setkeys (n : Byte) : Statement (.setkeys n) := fun _ _ _ =>
  ⟨commandRows[20], by decide, rfl, selects rfl rfl rfl (free_field _)⟩
theorem btmode (mode : Byte) : Statement (.btmode mode) := fun _ _ _ =>
  ⟨commandRows[21], by decide, rfl, selects rfl (free_field _) rfl rfl⟩
theorem ledcpoll (k : Byte) (len : Byte) : Statement (.ledcpoll k len) := fun _ _ _ =>
  ⟨commandRows[22], by decide, rfl, selects rfl (free_field _) rfl (free_field _)⟩

/-- The frame that ENCODE makes of a payload of at most 254 bytes is a whole frame (rules R95, R200). -/
theorem whole {t o : Byte} {p : List Byte} (h : p.length ≤ 254) : splitFrame (encodeFrame t o p) = .ok (t, o, p) :=
  splitFrame_encodeFrame h

theorem frameThemeModeReassert : Statement (.frameThemeModeReassert) := fun _ _ _ => ⟨_, _, whole (by simp), by simp [Config.requestOps]⟩
theorem frameThemeModeSet (id : Byte) : Statement (.frameThemeModeSet id) := fun _ _ _ => ⟨_, _, whole (by simp), by simp [Config.requestOps]⟩
theorem frameConfigCmdTheme : Statement (.frameConfigCmdTheme) := fun _ _ _ => ⟨_, _, whole (by simp), by simp [Config.requestOps]⟩
theorem frameConfigCmdBrightness : Statement (.frameConfigCmdBrightness) := fun _ _ _ => ⟨_, _, whole (by simp), by simp [Config.requestOps]⟩
theorem frameConfigCmdSpeed : Statement (.frameConfigCmdSpeed) := fun _ _ _ => ⟨_, _, whole (by simp), by simp [Config.requestOps]⟩
theorem frameKey (packed : List Byte) : Statement (.frameKey packed) := fun _ _ h => by
  simp only [Instr.wf, keyPayloadOk, payloadFits, Bool.and_eq_true, decide_eq_true_eq] at h
  exact ⟨_, _, whole h.1.2, by simp [Config.requestOps]⟩
theorem frameMusic (payload : List Byte) : Statement (.frameMusic payload) := fun _ _ h =>
  ⟨_, _, whole (of_decide_eq_true h), by simp [Config.requestOps]⟩
theorem frameGetThemeId : Statement (.frameGetThemeId) := fun _ _ _ => ⟨_, _, whole (by simp), by simp [Config.requestOps]⟩
theorem frameSetIndividualKeys (payload : List Byte) : Statement (.frameSetIndividualKeys payload) := fun _ _ h => by
  simp only [Instr.wf, payloadFits, Bool.and_eq_true, decide_eq_true_eq] at h
  exact ⟨_, _, whole h.1, by simp [Config.requestOps]⟩
theorem frameSetIndividualKeysBluetooth (recs : List BtRecord) : Statement (.frameSetIndividualKeysBluetooth recs) := fun _ _ h => by
  have hl : recs.length = 10 := of_decide_eq_true h
  exact ⟨_, _, whole (by rw [length_btBytes]; omega), by simp [Config.requestOps]⟩
theorem frameAckThemeMode (data : List Byte) : Statement (.frameAckThemeMode data) := fun _ _ h =>
  ⟨_, _, _, whole (of_decide_eq_true h)⟩
theorem frameAckConfigCmd (data : List Byte) : Statement (.frameAckConfigCmd data) := fun _ _ h =>
  ⟨_, _, _, whole (of_decide_eq_true h)⟩
theorem frameAckSetIndividualKeys (data : List Byte) : Statement (.frameAckSetIndividualKeys data) := fun _ _ h =>
  ⟨_, _, _, whole (of_decide_eq_true h)⟩
theorem frameOther (t : Byte) (o : Byte) (data : List Byte) : Statement (.frameOther t o data) := fun _ _ h => by
  simp only [Instr.wf, payloadFits, Bool.and_eq_true, decide_eq_true_eq] at h
  exact ⟨_, _, _, whole h.1⟩

end Sys2Proof.Laws.TableRow
end

