-- ==== Sys2Proof/Laws/Register.lean ====
section
/-! SUPPORT. The endpoint control register bit by bit: the eight masks of rule R10 split the sixteen bits, and what `hwWrite`,
`statusWrite` and `clearWrite` do to each bit. -/
namespace Sys2Proof.Machine

/-- The eight mask bits at one position: exactly one is 1 (rule R10). -/
structure OneClass (st sr dt dr ct cr rw ro : Bool) : Prop where
  pick : (st = true ∧ sr = false ∧ dt = false ∧ dr = false ∧ ct = false ∧ cr = false ∧ rw = false ∧ ro = false)
    ∨ (st = false ∧ sr = true ∧ dt = false ∧ dr = false ∧ ct = false ∧ cr = false ∧ rw = false ∧ ro = false)
    ∨ (st = false ∧ sr = false ∧ dt = true ∧ dr = false ∧ ct = false ∧ cr = false ∧ rw = false ∧ ro = false)
    ∨ (st = false ∧ sr = false ∧ dt = false ∧ dr = true ∧ ct = false ∧ cr = false ∧ rw = false ∧ ro = false)
    ∨ (st = false ∧ sr = false ∧ dt = false ∧ dr = false ∧ ct = true ∧ cr = false ∧ rw = false ∧ ro = false)
    ∨ (st = false ∧ sr = false ∧ dt = false ∧ dr = false ∧ ct = false ∧ cr = true ∧ rw = false ∧ ro = false)
    ∨ (st = false ∧ sr = false ∧ dt = false ∧ dr = false ∧ ct = false ∧ cr = false ∧ rw = true ∧ ro = false)
    ∨ (st = false ∧ sr = false ∧ dt = false ∧ dr = false ∧ ct = false ∧ cr = false ∧ rw = false ∧ ro = true)

theorem masksOk_of_valid {c : Config} (h : c.valid = true) : c.masksOk = true := by
  simp only [Config.valid, Bool.and_eq_true] at h
  exact h.1.1

/-- Two disjoint masks share no bit. -/
theorem bit_and_eq_false {x y : Reg} (h : x &&& y = 0) (i : Nat) : (x.getLsbD i && y.getLsbD i) = false := by
  have := congrArg (fun z => BitVec.getLsbD z i) h
  simpa using this

/-- Every bit of the register belongs to exactly one mask (rules R10, R112). -/
theorem oneClass_of_masksOk {c : Config} (h : c.masksOk = true) {i : Nat} (hi : i < 16) :
    OneClass (c.mStatTx.getLsbD i) (c.mStatRx.getLsbD i) (c.mDtogTx.getLsbD i) (c.mDtogRx.getLsbD i) (c.mCtrTx.getLsbD i)
      (c.mCtrRx.getLsbD i) (c.mRw.getLsbD i) (c.mRo.getLsbD i) := by
  simp only [Config.masksOk, Config.masks, Bool.and_eq_true, decide_eq_true_eq, List.pairwise_cons, List.mem_cons,
    List.not_mem_nil, or_false, forall_eq_or_imp, forall_eq, List.foldl_cons, List.foldl_nil, beq_iff_eq] at h
  obtain ⟨⟨_, h1, h2, h3, h4, h5, h6, h7, _⟩, hor⟩ := h
  have hor := congrArg (fun z => BitVec.getLsbD z i) hor
  simp only [BitVec.getLsbD_or, BitVec.getLsbD_allOnes, hi, decide_true] at hor
  have d := @bit_and_eq_false
  have a1 := d h1.1 i
  have a2 := d h1.2.1 i
  have a3 := d h1.2.2.1 i
  have a4 := d h1.2.2.2.1 i
  have a5 := d h1.2.2.2.2.1 i
  have a6 := d h1.2.2.2.2.2.1 i
  have a7 := d h1.2.2.2.2.2.2 i
  have b1 := d h2.1 i
  have b2 := d h2.2.1 i
  have b3 := d h2.2.2.1 i
  have b4 := d h2.2.2.2.1 i
  have b5 := d h2.2.2.2.2.1 i
  have b6 := d h2.2.2.2.2.2 i
  have c1 := d h3.1 i
  have c2 := d h3.2.1 i
  have c3 := d h3.2.2.1 i
  have c4 := d h3.2.2.2.1 i
  have c5 := d h3.2.2.2.2 i
  have e1 := d h4.1 i
  have e2 := d h4.2.1 i
  have e3 := d h4.2.2.1 i
  have e4 := d h4.2.2.2 i
  have f1 := d h5.1 i
  have f2 := d h5.2.1 i
  have f3 := d h5.2.2 i
  have g1 := d h6.1 i
  have g2 := d h6.2 i
  have g3 := d h7 i
  constructor
  generalize c.mStatTx.getLsbD i = p1 at *
  generalize c.mStatRx.getLsbD i = p2 at *
  generalize c.mDtogTx.getLsbD i = p3 at *
  generalize c.mDtogRx.getLsbD i = p4 at *
  generalize c.mCtrTx.getLsbD i = p5 at *
  generalize c.mCtrRx.getLsbD i = p6 at *
  generalize c.mRw.getLsbD i = p7 at *
  generalize c.mRo.getLsbD i = p8 at *
  clear h1 h2 h3 h4 h5 h6 h7 d
  cases p1 <;> cases p2 <;> cases p3 <;> cases p4 <;> first | contradiction | skip
  all_goals cases p5 <;> cases p6 <;> cases p7 <;> cases p8 <;> first | contradiction | simp_all

/-! ## Masks bit by bit -/

theorem statMask_eq {c : Config} (h : c.masksOk = true) (dir : Dir) : statMask c dir = (3 : Reg) <<< statLo c dir := by
  simp only [Config.masksOk, Bool.and_eq_true, beq_iff_eq] at h
  obtain ⟨⟨⟨⟨⟨⟨⟨⟨_, h1⟩, h2⟩, _⟩, _⟩, _⟩, _⟩, _⟩, _⟩ := h
  cases dir
  · exact h1
  · exact h2

theorem statLo_le {c : Config} (h : c.masksOk = true) (dir : Dir) : statLo c dir ≤ 14 := by
  simp only [Config.masksOk, Bool.and_eq_true, decide_eq_true_eq] at h
  obtain ⟨⟨⟨⟨⟨⟨⟨⟨⟨h1, h2⟩, _⟩, _⟩, _⟩, _⟩, _⟩, _⟩, _⟩, _⟩ := h
  cases dir
  · exact h1
  · exact h2

theorem getLsbD_three (j : Nat) : (3 : Reg).getLsbD j = decide (j < 2) := by
  rcases j with _ | _ | j
  · rfl
  · rfl
  · have : ¬ (j + 1 + 1 < 2) := by omega
    simp only [this, decide_false]
    by_cases hj : j < 14
    · interval_cases j <;> rfl
    · exact BitVec.getLsbD_of_ge _ _ (by omega)

theorem statMask_bit {c : Config} (h : c.masksOk = true) (dir : Dir) (i : Nat) :
    (statMask c dir).getLsbD i = (decide (statLo c dir ≤ i) && decide (i < statLo c dir + 2)) := by
  have hlo := statLo_le h dir
  rw [statMask_eq h, BitVec.getLsbD_shiftLeft, getLsbD_three]
  rw [Bool.eq_iff_iff]
  simp only [Bool.and_eq_true, Bool.not_eq_true', decide_eq_true_eq, decide_eq_false_iff_not]
  omega

/-- A target code at its place: bit `i` of the register is bit `i - lo` of the code. -/
theorem codeAt_bit (target : StatusCode) {lo i : Nat} (hi : i < 16) :
    (codeAt target lo).getLsbD i = (decide (lo ≤ i) && target.getLsbD (i - lo)) := by
  simp only [codeAt, BitVec.getLsbD_shiftLeft, BitVec.getLsbD_setWidth]
  rw [Bool.eq_iff_iff]
  simp only [Bool.and_eq_true, Bool.not_eq_true', decide_eq_true_eq, decide_eq_false_iff_not]
  constructor
  · rintro ⟨⟨_, _⟩, _, h⟩
    exact ⟨by omega, h⟩
  · rintro ⟨_, h⟩
    exact ⟨⟨hi, by omega⟩, by omega, h⟩

/-- Outside the field of its direction a code has no bit. -/
theorem codeAt_bit_outside {c : Config} (h : c.masksOk = true) (target : StatusCode) (dir : Dir) {i : Nat} (hi : i < 16)
    (hm : (statMask c dir).getLsbD i = false) : (codeAt target (statLo c dir)).getLsbD i = false := by
  rw [codeAt_bit target hi]
  rw [statMask_bit h] at hm
  by_cases hlo : statLo c dir ≤ i
  · simp only [hlo, decide_true, Bool.true_and, decide_eq_false_iff_not] at hm ⊢
    exact BitVec.getLsbD_of_ge _ _ (by omega)
  · simp [hlo]

/-- Bit `j` of a status code is bit `lo + j` of the register. -/
theorem statusOf_bit {c : Config} (h : c.masksOk = true) (r : Reg) (dir : Dir) {j : Nat} (hj : j < 2) :
    (statusOf c r dir).getLsbD j = r.getLsbD (statLo c dir + j) := by
  simp only [statusOf, BitVec.getLsbD_setWidth, BitVec.getLsbD_ushiftRight, BitVec.getLsbD_and, statMask_bit h, hj]
  have : statLo c dir + j < statLo c dir + 2 := by omega
  simp [this]

/-- Two registers that agree under the status mask have the same code. -/
theorem statusOf_congr {c : Config} {r r' : Reg} {dir : Dir} (h : r &&& statMask c dir = r' &&& statMask c dir) :
    statusOf c r dir = statusOf c r' dir := by
  simp only [statusOf, h]

theorem flagOf_congr {c : Config} {r r' : Reg} {dir : Dir} (h : r &&& ctrMask c dir = r' &&& ctrMask c dir) :
    flagOf c r dir = flagOf c r' dir := by
  simp only [flagOf, h]

theorem dtogBitOf_congr {c : Config} {r r' : Reg} {dir : Dir} (h : r &&& dtogMask c dir = r' &&& dtogMask c dir) :
    dtogBitOf c r dir = dtogBitOf c r' dir := by
  simp only [dtogBitOf, h]

/-- A one-bit mask is not 0 (rule R9). -/
theorem exists_of_isOneBit {m : Reg} (h : isOneBit m = true) : ∃ p, p < 16 ∧ m = (1 : Reg) <<< p := by
  simp only [isOneBit, List.any_eq_true, List.mem_range, beq_iff_eq] at h
  exact h

theorem dtogMask_isOneBit {c : Config} (h : c.masksOk = true) (dir : Dir) : isOneBit (dtogMask c dir) = true := by
  simp only [Config.masksOk, Bool.and_eq_true] at h
  obtain ⟨⟨⟨⟨⟨⟨_, h1⟩, h2⟩, _⟩, _⟩, _⟩, _⟩ := h
  cases dir
  · exact h1
  · exact h2

theorem ctrMask_isOneBit {c : Config} (h : c.masksOk = true) (dir : Dir) : isOneBit (ctrMask c dir) = true := by
  simp only [Config.masksOk, Bool.and_eq_true] at h
  obtain ⟨⟨⟨⟨_, h1⟩, h2⟩, _⟩, _⟩ := h
  cases dir
  · exact h1
  · exact h2

/-- The one bit of a register under a one-bit mask. -/
theorem and_oneBit_ne_zero {r : Reg} {p : Nat} (hp : p < 16) :
    (r &&& (1 : Reg) <<< p != 0) = r.getLsbD p := by
  have key : ∀ i, (r &&& (1 : Reg) <<< p).getLsbD i = (decide (i = p) && r.getLsbD p) := by
    intro i
    have h1 : ∀ k, (1 : Reg).getLsbD k = decide (k = 0) := by
      intro k
      rcases k with _ | k
      · rfl
      · by_cases hk : k < 15
        · interval_cases k <;> rfl
        · rw [BitVec.getLsbD_of_ge _ _ (by omega)]
          simp
    rw [BitVec.getLsbD_and, BitVec.getLsbD_shiftLeft, h1]
    by_cases hip : i = p
    · subst hip
      simp [hp]
    · have : ¬ (p ≤ i ∧ i - p = 0) := by omega
      by_cases hle : i < p
      · simp [hip, hle]
      · have : i - p ≠ 0 := by omega
        simp [hip, this]
  cases hr : r.getLsbD p
  · have : r &&& (1 : Reg) <<< p = 0 := by
      apply BitVec.eq_of_getLsbD_eq
      intro i _
      rw [key, hr]
      simp
    rw [this]
    rfl
  · have hk := key p
    rw [hr] at hk
    rw [bne_iff_ne]
    intro h0
    rw [h0] at hk
    simp at hk

/-! ## What a write does under each mask (rule R28) -/

section
variable {c : Config} (h : c.masksOk = true) (old w r : Reg) (dir : Dir)
include h

theorem hwWrite_and_stat : hwWrite c old w &&& statMask c dir = (old ^^^ w) &&& statMask c dir := by
  apply BitVec.eq_of_getLsbD_eq
  intro i hi
  have ⟨hc⟩ := oneClass_of_masksOk h hi
  cases dir <;> cases hd : c.dtogW1 <;>
    simp only [hwWrite, hd, statMask, BitVec.getLsbD_and, BitVec.getLsbD_or, BitVec.getLsbD_xor] <;>
    rcases hc with hc | hc | hc | hc | hc | hc | hc | hc <;> simp [hc]

theorem hwWrite_and_dtog_toggle (hd : c.dtogW1 = .toggle) :
    hwWrite c old w &&& dtogMask c dir = (old ^^^ w) &&& dtogMask c dir := by
  apply BitVec.eq_of_getLsbD_eq
  intro i hi
  have ⟨hc⟩ := oneClass_of_masksOk h hi
  cases dir <;> simp only [hwWrite, hd, dtogMask, BitVec.getLsbD_and, BitVec.getLsbD_or, BitVec.getLsbD_xor] <;>
    rcases hc with hc | hc | hc | hc | hc | hc | hc | hc <;> simp [hc]

theorem hwWrite_and_dtog_set (hd : c.dtogW1 = .set) :
    hwWrite c old w &&& dtogMask c dir = (old ||| w) &&& dtogMask c dir := by
  apply BitVec.eq_of_getLsbD_eq
  intro i hi
  have ⟨hc⟩ := oneClass_of_masksOk h hi
  cases dir <;> simp only [hwWrite, hd, dtogMask, BitVec.getLsbD_and, BitVec.getLsbD_or, BitVec.getLsbD_xor] <;>
    rcases hc with hc | hc | hc | hc | hc | hc | hc | hc <;> simp [hc]

/-- A data-toggle bit written 0 keeps, under either value of `DTOG_W1` (rule R27). -/
theorem hwWrite_and_dtog_zero (hw : w &&& dtogMask c dir = 0) :
    hwWrite c old w &&& dtogMask c dir = old &&& dtogMask c dir := by
  cases hd : c.dtogW1
  · rw [hwWrite_and_dtog_toggle h _ _ _ hd]
    apply BitVec.eq_of_getLsbD_eq
    intro i hi
    have := congrArg (fun z => BitVec.getLsbD z i) hw
    simp only [BitVec.getLsbD_and, BitVec.getLsbD_xor] at this ⊢
    cases hm : (dtogMask c dir).getLsbD i <;> simp_all
  · rw [hwWrite_and_dtog_set h _ _ _ hd]
    apply BitVec.eq_of_getLsbD_eq
    intro i hi
    have := congrArg (fun z => BitVec.getLsbD z i) hw
    simp only [BitVec.getLsbD_and, BitVec.getLsbD_or] at this ⊢
    cases hm : (dtogMask c dir).getLsbD i <;> simp_all

theorem hwWrite_and_ctr : hwWrite c old w &&& ctrMask c dir = (old &&& w) &&& ctrMask c dir := by
  apply BitVec.eq_of_getLsbD_eq
  intro i hi
  have ⟨hc⟩ := oneClass_of_masksOk h hi
  cases dir <;> cases hd : c.dtogW1 <;>
    simp only [hwWrite, hd, ctrMask, BitVec.getLsbD_and, BitVec.getLsbD_or, BitVec.getLsbD_xor] <;>
    rcases hc with hc | hc | hc | hc | hc | hc | hc | hc <;> simp [hc]

theorem hwWrite_and_rw : hwWrite c old w &&& c.mRw = w &&& c.mRw := by
  apply BitVec.eq_of_getLsbD_eq
  intro i hi
  have ⟨hc⟩ := oneClass_of_masksOk h hi
  cases hd : c.dtogW1 <;> simp only [hwWrite, hd, BitVec.getLsbD_and, BitVec.getLsbD_or, BitVec.getLsbD_xor] <;>
    rcases hc with hc | hc | hc | hc | hc | hc | hc | hc <;> simp [hc]

theorem hwWrite_and_ro : hwWrite c old w &&& c.mRo = old &&& c.mRo := by
  apply BitVec.eq_of_getLsbD_eq
  intro i hi
  have ⟨hc⟩ := oneClass_of_masksOk h hi
  cases hd : c.dtogW1 <;> simp only [hwWrite, hd, BitVec.getLsbD_and, BitVec.getLsbD_or, BitVec.getLsbD_xor] <;>
    rcases hc with hc | hc | hc | hc | hc | hc | hc | hc <;> simp [hc]

/-- Two registers that agree under the eight masks are equal (rule R112). -/
theorem eq_of_and_masks {x y : Reg} (hs : ∀ d, x &&& statMask c d = y &&& statMask c d)
    (hd : ∀ d, x &&& dtogMask c d = y &&& dtogMask c d) (hf : ∀ d, x &&& ctrMask c d = y &&& ctrMask c d)
    (hrw : x &&& c.mRw = y &&& c.mRw) (hro : x &&& c.mRo = y &&& c.mRo) : x = y := by
  apply BitVec.eq_of_getLsbD_eq
  intro i hi
  have ⟨hc⟩ := oneClass_of_masksOk h hi
  have b : ∀ {m : Reg}, x &&& m = y &&& m → m.getLsbD i = true → x.getLsbD i = y.getLsbD i := by
    intro m hm hmi
    have := congrArg (fun z => BitVec.getLsbD z i) hm
    simpa [hmi] using this
  rcases hc with hc | hc | hc | hc | hc | hc | hc | hc
  · exact b (hs .tx) (by simp [statMask, hc])
  · exact b (hs .rx) (by simp [statMask, hc])
  · exact b (hd .tx) (by simp [dtogMask, hc])
  · exact b (hd .rx) (by simp [dtogMask, hc])
  · exact b (hf .tx) (by simp [ctrMask, hc])
  · exact b (hf .rx) (by simp [ctrMask, hc])
  · exact b hrw (by simp [hc])
  · exact b hro (by simp [hc])

end

/-! ## The write values under each mask (rules R131, R139) -/

section
variable {c : Config} (h : c.masksOk = true) (r : Reg) (dir : Dir) (target : StatusCode) (d : DtogOp)
include h

theorem statusWrite_and_stat :
    statusWrite c r dir target d &&& statMask c dir = (r ^^^ codeAt target (statLo c dir)) &&& statMask c dir := by
  apply BitVec.eq_of_getLsbD_eq
  intro i hi
  have ⟨hc⟩ := oneClass_of_masksOk h hi
  cases dir <;> cases d <;>
    simp only [statusWrite, Config.mKeep, statMask, dtogMask, BitVec.getLsbD_and, BitVec.getLsbD_or, BitVec.getLsbD_xor] <;>
    rcases hc with hc | hc | hc | hc | hc | hc | hc | hc <;> simp [hc]

theorem statusWrite_and_stat_other : statusWrite c r dir target d &&& statMask c (otherDir dir) = 0 := by
  apply BitVec.eq_of_getLsbD_eq
  intro i hi
  have ⟨hc⟩ := oneClass_of_masksOk h hi
  have ho := codeAt_bit_outside h target dir hi
  cases dir <;> cases d <;>
    simp only [statusWrite, Config.mKeep, statMask, dtogMask, otherDir, BitVec.getLsbD_and, BitVec.getLsbD_or,
      BitVec.getLsbD_xor] at ho ⊢ <;>
    rcases hc with hc | hc | hc | hc | hc | hc | hc | hc <;> simp [hc] at ho ⊢ <;> simp [ho]

theorem statusWrite_and_dtog_other : statusWrite c r dir target d &&& dtogMask c (otherDir dir) = 0 := by
  apply BitVec.eq_of_getLsbD_eq
  intro i hi
  have ⟨hc⟩ := oneClass_of_masksOk h hi
  have ho := codeAt_bit_outside h target dir hi
  cases dir <;> cases d <;>
    simp only [statusWrite, Config.mKeep, statMask, dtogMask, otherDir, BitVec.getLsbD_and, BitVec.getLsbD_or,
      BitVec.getLsbD_xor] at ho ⊢ <;>
    rcases hc with hc | hc | hc | hc | hc | hc | hc | hc <;> simp [hc] at ho ⊢ <;> simp [ho]

theorem statusWrite_keep_and_dtog : statusWrite c r dir target .keep &&& dtogMask c dir = 0 := by
  apply BitVec.eq_of_getLsbD_eq
  intro i hi
  have ⟨hc⟩ := oneClass_of_masksOk h hi
  have ho := codeAt_bit_outside h target dir hi
  cases dir <;>
    simp only [statusWrite, Config.mKeep, statMask, dtogMask, BitVec.getLsbD_and, BitVec.getLsbD_or, BitVec.getLsbD_xor] at ho ⊢ <;>
    rcases hc with hc | hc | hc | hc | hc | hc | hc | hc <;> simp [hc] at ho ⊢ <;> simp [ho]

omit h in
theorem statusWrite_set_and_dtog : statusWrite c r dir target .set &&& dtogMask c dir = dtogMask c dir := by
  apply BitVec.eq_of_getLsbD_eq
  intro i hi
  cases dir <;>
    simp only [statusWrite, dtogMask, BitVec.getLsbD_and, BitVec.getLsbD_or] <;>
    simp <;> intro hm <;> simp [hm]

omit h in
theorem statusWrite_and_ctr (x : Dir) : statusWrite c r dir target d &&& ctrMask c x = ctrMask c x := by
  apply BitVec.eq_of_getLsbD_eq
  intro i hi
  cases x <;> simp only [statusWrite, ctrMask, BitVec.getLsbD_and, BitVec.getLsbD_or] <;>
    simp <;> intro hm <;> simp [hm]

theorem statusWrite_and_rw : statusWrite c r dir target d &&& c.mRw = r &&& c.mRw := by
  apply BitVec.eq_of_getLsbD_eq
  intro i hi
  have ⟨hc⟩ := oneClass_of_masksOk h hi
  have ho := codeAt_bit_outside h target dir hi
  cases dir <;> cases d <;>
    simp only [statusWrite, Config.mKeep, statMask, dtogMask, BitVec.getLsbD_and, BitVec.getLsbD_or, BitVec.getLsbD_xor] at ho ⊢ <;>
    rcases hc with hc | hc | hc | hc | hc | hc | hc | hc <;> simp [hc] at ho ⊢ <;> simp [ho]

theorem clearWrite_and_stat (x : Dir) : clearWrite c r dir &&& statMask c x = 0 := by
  apply BitVec.eq_of_getLsbD_eq
  intro i hi
  have ⟨hc⟩ := oneClass_of_masksOk h hi
  cases dir <;> cases x <;>
    simp only [clearWrite, Config.mKeep, statMask, ctrMask, otherDir, BitVec.getLsbD_and, BitVec.getLsbD_or] <;>
    rcases hc with hc | hc | hc | hc | hc | hc | hc | hc <;> simp [hc]

theorem clearWrite_and_dtog (x : Dir) : clearWrite c r dir &&& dtogMask c x = 0 := by
  apply BitVec.eq_of_getLsbD_eq
  intro i hi
  have ⟨hc⟩ := oneClass_of_masksOk h hi
  cases dir <;> cases x <;>
    simp only [clearWrite, Config.mKeep, dtogMask, ctrMask, otherDir, BitVec.getLsbD_and, BitVec.getLsbD_or] <;>
    rcases hc with hc | hc | hc | hc | hc | hc | hc | hc <;> simp [hc]

theorem clearWrite_and_ctr : clearWrite c r dir &&& ctrMask c dir = 0 := by
  apply BitVec.eq_of_getLsbD_eq
  intro i hi
  have ⟨hc⟩ := oneClass_of_masksOk h hi
  cases dir <;>
    simp only [clearWrite, Config.mKeep, ctrMask, otherDir, BitVec.getLsbD_and, BitVec.getLsbD_or] <;>
    rcases hc with hc | hc | hc | hc | hc | hc | hc | hc <;> simp [hc]

omit h in
theorem clearWrite_and_ctr_other : clearWrite c r dir &&& ctrMask c (otherDir dir) = ctrMask c (otherDir dir) := by
  apply BitVec.eq_of_getLsbD_eq
  intro i hi
  simp only [clearWrite, BitVec.getLsbD_and, BitVec.getLsbD_or]
  simp
  exact fun hm => Or.inr hm

theorem clearWrite_and_rw : clearWrite c r dir &&& c.mRw = r &&& c.mRw := by
  apply BitVec.eq_of_getLsbD_eq
  intro i hi
  have ⟨hc⟩ := oneClass_of_masksOk h hi
  cases dir <;>
    simp only [clearWrite, Config.mKeep, ctrMask, otherDir, BitVec.getLsbD_and, BitVec.getLsbD_or] <;>
    rcases hc with hc | hc | hc | hc | hc | hc | hc | hc <;> simp [hc]

end

/-! ## Words and masks -/

theorem xor_and_distrib (a b m : Reg) : (a ^^^ b) &&& m = (a &&& m) ^^^ (b &&& m) := by
  apply BitVec.eq_of_getLsbD_eq; intro i _
  simp only [BitVec.getLsbD_and, BitVec.getLsbD_xor]
  cases m.getLsbD i <;> simp

theorem or_and_distrib (a b m : Reg) : (a ||| b) &&& m = (a &&& m) ||| (b &&& m) := by
  apply BitVec.eq_of_getLsbD_eq; intro i _
  simp only [BitVec.getLsbD_and, BitVec.getLsbD_or]
  cases m.getLsbD i <;> simp

/-- Two words that agree under two masks agree under their union. -/
theorem and_or_congr {n r a b : Reg} (h1 : n &&& a = r &&& a) (h2 : n &&& b = r &&& b) :
    n &&& (a ||| b) = r &&& (a ||| b) := by
  apply BitVec.eq_of_getLsbD_eq; intro i _
  have h1 := congrArg (fun z => BitVec.getLsbD z i) h1
  have h2 := congrArg (fun z => BitVec.getLsbD z i) h2
  simp only [BitVec.getLsbD_and, BitVec.getLsbD_or] at *
  cases hm : a.getLsbD i <;> cases hm2 : b.getLsbD i <;> simp_all

/-- A field replaced under one mask is untouched under a disjoint one. -/
theorem replaceUnder_and_disjoint {r mask v m : Reg} (h : mask &&& m = 0) : replaceUnder r mask v &&& m = r &&& m := by
  apply BitVec.eq_of_getLsbD_eq; intro i hi
  have := bit_and_eq_false h i
  simp only [replaceUnder, BitVec.getLsbD_and, BitVec.getLsbD_or, BitVec.getLsbD_not, hi, decide_true, Bool.true_and]
  cases hm : mask.getLsbD i <;> cases hm2 : m.getLsbD i <;> simp_all

/-- A field replaced under its own mask holds the new bits. -/
theorem replaceUnder_and_self {r mask v : Reg} : replaceUnder r mask v &&& mask = v &&& mask := by
  apply BitVec.eq_of_getLsbD_eq; intro i hi
  simp only [replaceUnder, BitVec.getLsbD_and, BitVec.getLsbD_or, BitVec.getLsbD_not, hi, decide_true, Bool.true_and]
  cases hm : mask.getLsbD i <;> simp

/-- A one-bit mask has its own bit. -/
theorem getLsbD_oneBit {p : Nat} (hp : p < 16) (i : Nat) : ((1 : Reg) <<< p).getLsbD i = decide (i = p) := by
  rw [BitVec.getLsbD_shiftLeft]
  by_cases h : i = p
  · subst h; simp [hp]
  · by_cases h1 : i < p
    · simp [h1, h]
    · have : i - p ≠ 0 := by omega
      simp [h, BitVec.getLsbD_one, this]

/-- A status field holds the code that stands under its mask. -/
theorem statusOf_codeAt {c : Config} (h : c.masksOk = true) (v : StatusCode) (dir : Dir) {r : Reg}
    (hr : r &&& statMask c dir = codeAt v (statLo c dir) &&& statMask c dir) : statusOf c r dir = v := by
  rw [statusOf_congr hr]
  apply BitVec.eq_of_getLsbD_eq; intro j hj
  have := statLo_le h dir
  rw [statusOf_bit h _ _ hj, codeAt_bit _ (by omega)]
  simp [hj]

/-- A field's single bit, read through its mask. -/
theorem and_mask_of_isOneBit {m : Reg} (hm : isOneBit m = true) :
    ∃ p, p < 16 ∧ m = (1 : Reg) <<< p ∧ ∀ r : Reg, (r &&& m != 0) = r.getLsbD p := by
  obtain ⟨p, hp, rfl⟩ := exists_of_isOneBit hm
  exact ⟨p, hp, rfl, fun _ => and_oneBit_ne_zero hp⟩

section
variable {c : Config} (h : c.masksOk = true)
include h

/-- The eight masks are pairwise disjoint (rule R10): the pairs the register operations meet. -/
theorem masks_disjoint :
    (∀ x y, statMask c x &&& ctrMask c y = 0) ∧ (∀ x y, dtogMask c x &&& ctrMask c y = 0)
      ∧ (∀ x y, statMask c x &&& dtogMask c y = 0) ∧ (∀ x y, dtogMask c x &&& statMask c y = 0)
      ∧ (∀ x, statMask c x &&& statMask c (otherDir x) = 0) ∧ (∀ x, dtogMask c x &&& dtogMask c (otherDir x) = 0)
      ∧ (∀ x, ctrMask c x &&& ctrMask c (otherDir x) = 0)
      ∧ (∀ x, statMask c x &&& c.mRw = 0) ∧ (∀ x, dtogMask c x &&& c.mRw = 0) ∧ (∀ x, ctrMask c x &&& c.mRw = 0)
      ∧ (∀ x, ctrMask c x &&& statMask c x = 0 ∧ ctrMask c x &&& statMask c (otherDir x) = 0)
      ∧ (∀ x, c.mRo &&& ctrMask c x = 0) ∧ c.mRo &&& c.mRw = 0 := by
  simp only [Config.masksOk, Config.masks, Bool.and_eq_true, decide_eq_true_eq, List.pairwise_cons, List.mem_cons,
    List.not_mem_nil, or_false, forall_eq_or_imp, forall_eq, List.foldl_cons, List.foldl_nil, beq_iff_eq] at h
  obtain ⟨⟨-, ⟨a1, a2, a3, a4, a5, a6, -⟩, ⟨b1, b2, b3, b4, b5, -⟩, ⟨c1, c2, c3, c4, -⟩, ⟨d1, d2, d3, -⟩, ⟨e1, e2, e3⟩, ⟨f1, f2⟩,
    g1, -⟩, -⟩ := h
  have sw : ∀ {x y : Reg}, x &&& y = 0 → y &&& x = 0 := by intro x y hh; rw [BitVec.and_comm]; exact hh
  refine ⟨?_, ?_, ?_, ?_, ?_, ?_, ?_, ?_, ?_, ?_, ?_, ?_, ?_⟩
  · intro x y; cases x <;> cases y <;> assumption
  · intro x y; cases x <;> cases y <;> assumption
  · intro x y; cases x <;> cases y <;> assumption
  · intro x y; cases x <;> cases y <;> exact sw (by assumption)
  · intro x; cases x; exacts [a1, sw a1]
  · intro x; cases x; exacts [c1, sw c1]
  · intro x; cases x; exacts [e1, sw e1]
  · intro x; cases x <;> assumption
  · intro x; cases x <;> assumption
  · intro x; cases x <;> assumption
  · intro x; cases x; exacts [⟨sw a4, sw b3⟩, ⟨sw b4, sw a5⟩]
  · intro x; cases x; exacts [sw e3, sw f2]
  · exact sw g1

end

end Sys2Proof.Machine
end

