-- ==== Sys2Proof/Laws/Step.lean ====
section
/-! SUPPORT. What a step can do, said once: the effect of an operation that ends in one step, of the first step of every instruction, of the
later steps, and of every input. Invariants and whole-machine rules are proved by cases on these. -/
namespace Sys2Proof.Machine

/-- `s` with a frame accepted into the transmit slot (rule R160). -/
def sent (t o : Byte) (p : List Byte) (s : State) : State :=
  { s with txb := Memory.writeBytes s.txb 0 (encodeFrame t o p), tx := ⟨.inFlight, 3 + p.length, 0⟩ }

/-- How an instruction that ends in its first step ends: the result and the state it leaves to be concluded. -/
inductive Ends (i : Instr) (s : State) : Result → State → Prop where
  | faulted (f : FaultRecord) : Ends i s (.fault f) (s.addFault f)
  | sendBusy (hi : isSend i = true) (ht : i ≠ .toggle) (hs : s.tx.st ≠ .empty) : Ends i s .wouldBlock s
  | toggleBusy (hi : i = .toggle) (hs : s.tx.st ≠ .empty) : Ends i s .wouldBlock s.flipLed
  | pollBusy (hi : i = .poll ∨ ∃ k len, i = .ledcpoll k len) (hs : s.rx.st = .inFlight) : Ends i s .wouldBlock s
  | advanceBusy (hi : i = .txadv) (hs : s.tx.st = .inFlight) : Ends i s .wouldBlock s
  | sentOk (t o : Byte) (p : List Byte) (hi : isSend i = true) (ht : i ≠ .toggle) (hs : s.tx.st = .empty)
      (hl : p.length ≤ s.cfg.maxPay) (hf : 3 + p.length ≤ s.cfg.txCap) : Ends i s .ok (sent t o p s)
  | toggleOk (t o : Byte) (p : List Byte) (hi : i = .toggle) (hs : s.tx.st = .empty) (hl : p.length ≤ s.cfg.maxPay)
      (hf : 3 + p.length ≤ s.cfg.txCap) : Ends i s .ok (sent t o p s).flipLed
  | armed (k len : Byte) (hi : i = .receive k len) (hk : bufferOk s.cfg k = true) (hl : lengthOk s.cfg len = true)
      (hs : s.rx.st = .empty) : Ends i s .ok (s.withRx ⟨.inFlight, k.toNat, len.toNat, 0⟩)
  | polled (hi : i = .poll) (hs : s.rx.st = .complete) : Ends i s .ok s
  | finished (hi : i = .finish) (hs : s.rx.st = .complete) :
      Ends i s (.okBuffer s.rx.buf) (s.withRx { s.rx with st := .empty })
  | released (hi : i = .txadv) (hs : s.tx.st = .complete) : Ends i s .ok (s.withTx { s.tx with st := .empty })
  | nothingToRelease (hi : i = .txadv) (hs : s.tx.st = .empty) : Ends i s .ok s
  | parsed (k : Byte) (m : Message) (hi : i = .parse k) : Ends i s (.okMessage m) s
  | dispatched (t o : Byte) (hi : sparesTransport i = true) : Ends i s .ok (dispatchPair t o s)

/-- How an instruction that pauses after its first step pauses. -/
inductive Pauses (i : Instr) (s : State) : Pending → Prop where
  | statusRead (dir : Dir) (e : Byte) (target : StatusCode) (d : DtogOp) (hi : epscEndpoint i = some e)
      (he : endpointOk s.cfg e = true) : Pauses i s (.statusWrite dir e target d (s.eprAt e.toNat))
  | flagRead (dir : Dir) (e : Byte) (hi : epscEndpoint i = some e) (he : endpointOk s.cfg e = true) :
      Pauses i s (.clearWrite dir e (s.eprAt e.toNat))
  | pollSeen (k len : Byte) (hi : i = .ledcpoll k len) (hk : bufferOk s.cfg k = true) (hl : lengthOk s.cfg len = true)
      (hs : s.rx.st = .complete) : Pauses i s (.pollFinish k len)

/-- An instruction that is one SEND. -/
theorem ends_of_linkSend {i : Instr} {s t : State} {h o : Byte} {p : List Byte} (hi : isSend i = true) (hnt : i ≠ .toggle)
    (he : conclude (linkSend h o p s) = .next t) : ∃ r s', t = s'.finish r ∧ Ends i s r s' := by
  obtain ⟨r, s', hr, rfl⟩ := conclude_next he
  refine ⟨r, s', rfl, ?_⟩
  obtain ⟨rfl, -, rfl⟩ | ⟨rfl, -, hs, rfl⟩ | ⟨rfl, hl, hs, hf, rfl⟩ := linkSend_cases hr
  · exact .faulted _
  · exact .sendBusy hi hnt hs
  · exact .sentOk h o p hi hnt hs hl hf

theorem ends_of_linkSendStaged {i : Instr} {s t : State} {h o n : Byte} (hi : isSend i = true) (hnt : i ≠ .toggle)
    (he : conclude (linkSendStaged h o n s) = .next t) : ∃ r s', t = s'.finish r ∧ Ends i s r s' := by
  rw [linkSendStaged_eq] at he; exact ends_of_linkSend hi hnt he

theorem pauses_of_epscRead {i : Instr} {s t : State} {e : Byte} {p : Reg → Pending}
    (hp : endpointOk s.cfg e = true → Pauses i s (p (s.eprAt e.toNat))) (h : epscRead s e p = .next t) :
    (∃ q, t = s.suspend q ∧ Pauses i s q) ∨ ∃ r s', t = s'.finish r ∧ Ends i s r s' := by
  unfold epscRead at h
  split at h
  · rename_i hb
    split at h
    · cases h; exact .inl ⟨_, rfl, hp hb⟩
    · cases h
  · obtain ⟨r, s', hr, rfl⟩ := conclude_next h
    cases hr
    exact .inr ⟨_, _, rfl, .faulted _⟩

/-- Everything the first step of an instruction can do: it pauses at a mark, or it ends with a result. -/
theorem exec_cases {i : Instr} {s t : State} (h : exec i s = .next t) :
    (∃ q, t = s.suspend q ∧ Pauses i s q) ∨ ∃ r s', t = s'.finish r ∧ Ends i s r s' := by
  cases i with
  | settx e target d => exact pauses_of_epscRead (fun hb => .statusRead .tx e target d rfl hb) h
  | setrx e target d => exact pauses_of_epscRead (fun hb => .statusRead .rx e target d rfl hb) h
  | clrtx e => exact pauses_of_epscRead (fun hb => .flagRead .tx e rfl hb) h
  | clrrx e => exact pauses_of_epscRead (fun hb => .flagRead .rx e rfl hb) h
  | send t o n => exact .inr (ends_of_linkSendStaged rfl (by simp) h)
  | receive k len =>
    right
    obtain ⟨r, s', hr, rfl⟩ := conclude_next h
    refine ⟨r, s', rfl, ?_⟩
    obtain ⟨f, rfl, rfl⟩ | ⟨rfl, hk, hl, hs, rfl⟩ := linkReceive_cases hr
    · exact .faulted f
    · exact .armed k len rfl hk hl hs
  | poll =>
    right
    obtain ⟨r, s', hr, rfl⟩ := conclude_next h
    refine ⟨r, s', rfl, ?_⟩
    obtain ⟨-, rfl, rfl⟩ | ⟨hs, rfl, rfl⟩ | ⟨hs, rfl, rfl⟩ := linkPoll_cases hr
    · exact .faulted _
    · exact .pollBusy (.inl rfl) hs
    · exact .polled rfl hs
  | finish =>
    right
    obtain ⟨r, s', hr, rfl⟩ := conclude_next h
    refine ⟨r, s', rfl, ?_⟩
    obtain ⟨-, rfl, rfl⟩ | ⟨-, rfl, rfl⟩ | ⟨hs, rfl, rfl⟩ := linkFinish_cases hr
    · exact .faulted _
    · exact .faulted _
    · exact .finished rfl hs
  | txadv =>
    right
    obtain ⟨r, s', hr, rfl⟩ := conclude_next h
    refine ⟨r, s', rfl, ?_⟩
    obtain ⟨hs, rfl, rfl⟩ | ⟨hs, rfl, rfl⟩ | ⟨hs, rfl, rfl⟩ := linkAdvance_cases hr
    · exact .released rfl hs
    · exact .advanceBusy rfl hs
    · exact .nothingToRelease rfl hs
  | parse k =>
    right
    simp only [exec, execParse] at h
    split at h
    · obtain ⟨r, s', hr, rfl⟩ := conclude_next h
      refine ⟨r, s', rfl, ?_⟩
      obtain ⟨f, rfl, rfl⟩ | ⟨m, rfl, rfl⟩ := parseBuffer_cases hr
      · exact .faulted f
      · exact .parsed k m rfl
    · obtain ⟨r, s', hr, rfl⟩ := conclude_next h
      cases hr; exact ⟨_, _, rfl, .faulted _⟩
  | dispatch t o => cases h; exact .inr ⟨_, _, rfl, .dispatched t o rfl⟩
  | toggle =>
    right
    obtain ⟨r, s', hr, rfl⟩ := conclude_next h
    refine ⟨r, s', rfl, ?_⟩
    generalize ha : linkSend s.cfg.mtLed s.cfg.opThemeMode (if s.ledState then [0x00] else []) s = a at hr
    match a, hr with
    | .next (r', s''), hr =>
      obtain ⟨rfl, -, rfl⟩ | ⟨rfl, -, hs, rfl⟩ | ⟨rfl, hl, hs, hf, rfl⟩ := linkSend_cases ha
      · cases hr; exact .faulted _
      · cases hr; exact .toggleBusy rfl hs
      · cases hr; exact .toggleOk _ _ _ rfl hs hl hf
  | thememode => exact .inr (ends_of_linkSend rfl (by simp) h)
  | nexttheme => exact .inr (ends_of_linkSend rfl (by simp) h)
  | nextbright => exact .inr (ends_of_linkSend rfl (by simp) h)
  | nextspeed => exact .inr (ends_of_linkSend rfl (by simp) h)
  | settheme id => exact .inr (ends_of_linkSend rfl (by simp) h)
  | sendkeys => exact .inr (ends_of_linkSend rfl (by simp) h)
  | sendmusic n => exact .inr (ends_of_linkSendStaged rfl (by simp) h)
  | getthemeid => exact .inr (ends_of_linkSend rfl (by simp) h)
  | setkeys n => exact .inr (ends_of_linkSendStaged rfl (by simp) h)
  | btmode mode =>
    simp only [exec, execBtmode] at h
    split at h
    · exact .inr (ends_of_linkSend rfl (by simp) h)
    · obtain ⟨r, s', hr, rfl⟩ := conclude_next h
      cases hr; exact .inr ⟨_, _, rfl, .faulted _⟩
  | ledcpoll k len =>
    simp only [exec, execLedcpoll] at h
    split at h
    · obtain ⟨r, s', hr, rfl⟩ := conclude_next h
      cases hr; exact .inr ⟨_, _, rfl, .faulted _⟩
    · split at h
      · obtain ⟨r, s', hr, rfl⟩ := conclude_next h
        cases hr; exact .inr ⟨_, _, rfl, .faulted _⟩
      · rename_i hk hl
        simp only [Bool.not_eq_true', Bool.not_eq_false] at hk hl
        split at h
        · rename_i s' hr
          cases h
          obtain ⟨-, h1, -⟩ | ⟨-, h1, -⟩ | ⟨hs, -, rfl⟩ := linkPoll_cases hr
          · cases h1
          · cases h1
          · exact .inl ⟨_, rfl, .pollSeen k len rfl hk hl hs⟩
        · obtain ⟨r, s', hr, rfl⟩ := conclude_next h
          obtain ⟨-, rfl, rfl⟩ | ⟨hs, rfl, rfl⟩ | ⟨hs, rfl, rfl⟩ := linkPoll_cases hr
          · exact .inr ⟨_, _, rfl, .faulted _⟩
          · exact .inr ⟨_, _, rfl, .pollBusy (.inr ⟨k, len, rfl⟩) hs⟩
          · exact absurd hr (by rename_i hne; exact hne _)
  | frameThemeModeReassert => exact .inr (ends_of_linkSend rfl (by simp) h)
  | frameThemeModeSet id => exact .inr (ends_of_linkSend rfl (by simp) h)
  | frameConfigCmdTheme => exact .inr (ends_of_linkSend rfl (by simp) h)
  | frameConfigCmdBrightness => exact .inr (ends_of_linkSend rfl (by simp) h)
  | frameConfigCmdSpeed => exact .inr (ends_of_linkSend rfl (by simp) h)
  | frameKey packed => exact .inr (ends_of_linkSend rfl (by simp) h)
  | frameMusic payload => exact .inr (ends_of_linkSend rfl (by simp) h)
  | frameGetThemeId => exact .inr (ends_of_linkSend rfl (by simp) h)
  | frameSetIndividualKeys payload => exact .inr (ends_of_linkSend rfl (by simp) h)
  | frameSetIndividualKeysBluetooth recs => exact .inr (ends_of_linkSend rfl (by simp) h)
  | frameAckThemeMode data => cases h; exact .inr ⟨_, _, rfl, .dispatched _ _ rfl⟩
  | frameAckConfigCmd data => cases h; exact .inr ⟨_, _, rfl, .dispatched _ _ rfl⟩
  | frameAckSetIndividualKeys data => cases h; exact .inr ⟨_, _, rfl, .dispatched _ _ rfl⟩
  | frameOther t o data => cases h; exact .inr ⟨_, _, rfl, .dispatched _ _ rfl⟩

/-! ## The later steps of an operation -/

/-- What a later step of operation `p` can do. -/
inductive Resumes (p : Pending) (s : State) : State → Prop where
  | faulted (f : FaultRecord) (hp : p.isPoll = true) : Resumes p s ((s.addFault f).finish (.fault f))
  | statusWritten (dir : Dir) (e : Byte) (target : StatusCode) (d : DtogOp) (r : Reg) (hp : p = .statusWrite dir e target d r)
      (he : e.toNat < s.epr.length) : Resumes p s ((s.eprWrite e.toNat (statusWrite s.cfg r dir target d)).finish .ok)
  | flagCleared (dir : Dir) (e : Byte) (r : Reg) (hp : p = .clearWrite dir e r) (he : e.toNat < s.epr.length) :
      Resumes p s ((s.eprWrite e.toNat (clearWrite s.cfg r dir)).finish .ok)
  | finished (k len : Byte) (hp : p = .pollFinish k len) (hs : s.rx.st = .complete) :
      Resumes p s ((s.withRx { s.rx with st := .empty }).suspend (.pollParse s.rx.buf k len))
  | dispatched (j : Nat) (k len : Byte) (t o : Byte) (hp : p = .pollParse j k len) :
      Resumes p s ((dispatchPair t o s).suspend (.pollRearm k len))
  | rearmed (k len : Byte) (hp : p = .pollRearm k len) (hk : bufferOk s.cfg k = true) (hl : lengthOk s.cfg len = true)
      (hs : s.rx.st = .empty) : Resumes p s ((s.withRx ⟨.inFlight, k.toNat, len.toNat, 0⟩).finish .ok)

theorem resumePending_cases {p : Pending} {s t : State} (h : resumePending p s = .next t) : Resumes p s t := by
  cases p with
  | statusWrite dir e target d r =>
    simp only [resumePending, resumeStatusWrite, epscWrite] at h
    split at h
    · rename_i he; cases h; exact .statusWritten dir e target d r rfl he
    · cases h
  | clearWrite dir e r =>
    simp only [resumePending, resumeClearWrite, epscWrite] at h
    split at h
    · rename_i he; cases h; exact .flagCleared dir e r rfl he
    · cases h
  | pollFinish k len =>
    simp only [resumePending, resumePollFinish] at h
    split at h
    · rename_i j s' hr
      cases h
      obtain ⟨-, h1, -⟩ | ⟨-, h1, -⟩ | ⟨hs, h1, rfl⟩ := linkFinish_cases hr
      · cases h1
      · cases h1
      · cases h1; exact .finished k len rfl hs
    · rename_i hne
      obtain ⟨r, s', hr, rfl⟩ := conclude_next h
      obtain ⟨-, rfl, rfl⟩ | ⟨-, rfl, rfl⟩ | ⟨-, rfl, rfl⟩ := linkFinish_cases hr
      · exact .faulted _ rfl
      · exact .faulted _ rfl
      · exact absurd hr (hne _ _)
  | pollParse j k len =>
    simp only [resumePending, resumePollParse] at h
    split at h
    · rename_i m s' hr
      cases h
      obtain ⟨f, h1, -⟩ | ⟨m', -, rfl⟩ := parseBuffer_cases hr
      · cases h1
      · exact .dispatched j k len m.msgType m.operation rfl
    · rename_i hne
      obtain ⟨r, s', hr, rfl⟩ := conclude_next h
      obtain ⟨f, rfl, rfl⟩ | ⟨m', rfl, rfl⟩ := parseBuffer_cases hr
      · exact .faulted _ rfl
      · exact absurd hr (hne _ _)
  | pollRearm k len =>
    obtain ⟨r, s', hr, rfl⟩ := conclude_next h
    obtain ⟨f, rfl, rfl⟩ | ⟨rfl, hk, hl, hs, rfl⟩ := linkReceive_cases hr
    · exact .faulted f rfl
    · exact .rearmed k len rfl hk hl hs

/-! ## Taking an interrupt (rule R282) -/

/-- An interrupt that may be taken has its line high: the slot is complete (rules R47, R281). -/
theorem complete_of_canTake_rxIrq {s : State} (hc : s.canTake .rxIrq = true) : s.rx.st = .complete := by
  simp only [State.canTake, Bool.and_eq_true, State.lineHigh, State.rxIrqLine, beq_iff_eq] at hc
  exact hc.1.1.1

theorem complete_of_canTake_txIrq {s : State} (hc : s.canTake .txIrq = true) : s.tx.st = .complete := by
  simp only [State.canTake, Bool.and_eq_true, State.lineHigh, State.txIrqLine, beq_iff_eq] at hc
  exact hc.1.1.1

/-- An interrupt that may be taken runs its handler's operation in the pushed context. -/
theorem takeStep_of_canTake {e : Entry} {s : State} (hc : s.canTake e.handler = true) :
    takeStep e s = exec e.instr (s.pushHandler e.handler) := by
  simp [takeStep, State.takeInterrupt, hc]

/-- One that may not be is refused. -/
theorem takeStep_of_not_canTake {e : Entry} {s : State} (hc : s.canTake e.handler = false) :
    takeStep e s = .refused (.notEnabled .interrupt) := by
  simp [takeStep, State.takeInterrupt, hc]

/-! ## The inputs -/

/-- Everything an input can do, once it has been taken from the run (`s` is the state without it). -/
inductive Takes (i : Input) (s : State) : State → Prop where
  | illegal (cw : CommandWord) (hi : i = .present (.command cw)) (ht : s.topOp = none) :
      Takes i s ((s.addFault (.illegalCommand cw)).finish (.fault (.illegalCommand cw)))
  | pauses (enc : Encoded) (ins : Instr) (q : Pending) (hi : i = .present enc) (ht : s.topOp = none)
      (hd : decode s.cfg enc = .ok ins) (h : Pauses ins s q) : Takes i s (s.suspend q)
  | ends (enc : Encoded) (ins : Instr) (r : Result) (s' : State) (hi : i = .present enc) (ht : s.topOp = none)
      (hd : decode s.cfg enc = .ok ins) (h : Ends ins s r s') : Takes i s (s'.finish r)
  | resumes (p : Pending) (t : State) (hi : i = .resume) (ht : s.topOp = some p) (h : Resumes p s t) : Takes i s t
  | entryFaulted (k len : Byte) (f : FaultRecord) (hi : i = .take (.rxIrq k len)) (hc : s.canTake .rxIrq = true) :
      Takes i s (((s.pushHandler .rxIrq).addFault f).finish (.fault f))
  | rxEntered (k len : Byte) (hi : i = .take (.rxIrq k len)) (hc : s.canTake .rxIrq = true) (hk : bufferOk s.cfg k = true)
      (hl : lengthOk s.cfg len = true) : Takes i s ((s.pushHandler .rxIrq).suspend (.pollFinish k len))
  | txEntered (hi : i = .take .txIrq) (hc : s.canTake .txIrq = true) (hs : s.tx.st = .complete) :
      Takes i s (((s.pushHandler .txIrq).withTx { s.tx with st := .empty }).finish .ok)
  | pushed (x : Handler) (hi : i = .takeUnwired x) (hc : s.canTake x = true) : Takes i s (s.pushHandler x)
  | stagedByte (off : Nat) (b : Byte) (hi : i = .stagePay off b) (ho : off < s.cfg.payCap) :
      Takes i s { s with pay := Memory.write s.pay off b }
  | stagedKey (n : Nat) (v : Bool) (hi : i = .stageKey n v) (hn : n < s.ks.length) : Takes i s { s with ks := s.ks.set n v }
  | emitted (hi : i = .dmaTx) (hs : s.tx.st = .inFlight) (hp : s.tx.pos < s.cfg.txCap) :
      Takes i s ((s.emitLine (Memory.read s.txb s.tx.pos)).withTx
        ⟨if s.tx.pos + 1 = s.tx.len then .complete else .inFlight, s.tx.len, s.tx.pos + 1⟩)
  | stored (b : Byte) (rest : List Byte) (hi : i = .dmaRx) (hl : s.rxLine = b :: rest) (hs : s.rx.st = .inFlight)
      (hb : s.rx.buf < s.cfg.nRxBuf) (hc : s.rx.cnt < s.cfg.rxCap) :
      Takes i s { s with
        rxLine := rest
        rxb := s.rxb.set s.rx.buf (Memory.write (s.rxb.getD s.rx.buf []) s.rx.cnt b)
        rx := ⟨if s.rx.cnt + 1 = s.rx.len then .complete else .inFlight, s.rx.buf, s.rx.len, s.rx.cnt + 1⟩ }
  | dropped (b : Byte) (rest : List Byte) (hi : i = .dmaRx) (hl : s.rxLine = b :: rest) (hs : s.rx.st ≠ .inFlight) :
      Takes i s ((s.withRxLine rest).countLost)
  | arrived (b : Byte) (hi : i = .peer b) : Takes i s (s.withRxLine (s.rxLine ++ [b]))
  | usb (e : Nat) (act : UsbAction) (r : Reg) (hi : i = .usbHw e act) (he : e < s.epr.length)
      (hr : usbEffect s.cfg (s.eprAt e) act = some r) : Takes i s (s.withEpr e r)
  | reset (p : PowerUp) (hi : i = .reset p) : Takes i s (State.powerUp s.cfg p s.inputs s.freeTick)

theorem takeInput_cases {i : Input} {s t : State} (h : takeInput i s = .next t) : Takes i s t := by
  cases i with
  | present enc =>
    simp only [takeInput, presentStep] at h
    split at h
    · rename_i ht
      split at h
      · rename_i ins hd
        obtain ⟨q, rfl, hq⟩ | ⟨r, s', rfl, hr⟩ := exec_cases h
        · exact .pauses enc ins q rfl ht hd hq
        · exact .ends enc ins r s' rfl ht hd hr
      · cases enc with
        | command cw => cases h; exact .illegal cw rfl ht
        | wireOut _ => cases h
        | wireIn _ => cases h
    · cases h
  | resume =>
    simp only [takeInput, resumeStep] at h
    split at h
    · rename_i p ht; exact .resumes p t rfl ht (resumePending_cases h)
    · cases h
  | take e =>
    simp only [takeInput] at h
    by_cases hc : s.canTake e.handler = true
    · rw [takeStep_of_canTake hc] at h
      cases e with
      | rxIrq k len =>
        have hs : s.rx.st = .complete := complete_of_canTake_rxIrq hc
        obtain ⟨q, rfl, hq⟩ | ⟨r, s', rfl, hr⟩ := exec_cases h
        · cases hq with
          | pollSeen k' len' hi hk hl => cases hi; exact .rxEntered k len rfl hc hk hl
          | statusRead _ _ _ _ hi => cases hi
          | flagRead _ _ hi => cases hi
        · cases hr with
          | faulted f => exact .entryFaulted k len f rfl hc
          | pollBusy _ hb => rw [State.pushHandler_rx, hs] at hb; cases hb
          | _ => contradiction
      | txIrq =>
        have hs : s.tx.st = .complete := complete_of_canTake_txIrq hc
        have : exec .txadv (s.pushHandler .txIrq) = .next (((s.pushHandler .txIrq).withTx { s.tx with st := .empty }).finish .ok) := by
          simp only [exec, execTxadv, linkAdvance, State.pushHandler_tx, hs]; rfl
        cases (this.symm.trans h)
        exact .txEntered rfl hc hs
    · rw [takeStep_of_not_canTake (Bool.eq_false_iff.2 hc)] at h; cases h
  | takeUnwired x =>
    simp only [takeInput, State.takeInterrupt] at h
    split at h
    · rename_i hc; cases h; exact .pushed x rfl hc
    · cases h
  | stagePay off b =>
    simp only [takeInput, stagePayStep] at h
    split at h
    · by_cases ho : off + 1 ≤ s.cfg.payCap
      · simp [State.memWrite, State.sizeOf, State.bytesOf, State.withBytes, ho, Memory.writeBytes] at h
        rw [← h]; exact .stagedByte off b rfl ho
      · simp [State.memWrite, State.sizeOf, ho] at h
    · cases h
  | stageKey n v =>
    simp only [takeInput, stageKeyStep] at h
    split at h
    · split at h
      · rename_i hn; cases h; exact .stagedKey n v rfl hn
      · cases h
    · cases h
  | dmaTx =>
    simp only [takeInput, dmaTxStep] at h
    split at h
    · rename_i hs
      by_cases hp : s.tx.pos < s.cfg.txCap
      · simp [State.memRead, State.sizeOf, State.bytesOf, Nat.succ_le_of_lt hp, Memory.readBytes, List.range_succ] at h
        rw [← h]; exact .emitted rfl hs hp
      · simp [State.memRead, State.sizeOf, Nat.not_le.2 (Nat.lt_succ_of_le (Nat.not_lt.1 hp))] at h
    · cases h
  | dmaRx =>
    simp only [takeInput, dmaRxStep] at h
    split at h
    · cases h
    · rename_i b rest hl
      split at h
      · rename_i hs
        simp only [dmaRxStore, State.memWrite, State.sizeOf, State.bytesOf, State.withRxLine_cfg, State.withRxLine_rx,
          State.withRxLine_rxb, List.length_singleton] at h
        by_cases hb : s.rx.buf < s.cfg.nRxBuf
        · by_cases hc : s.rx.cnt + 1 ≤ s.cfg.rxCap
          · simp only [hb, hc, if_true] at h
            cases h
            exact .stored b rest rfl hl hs hb hc
          · simp only [hb, hc, if_true, if_false] at h; cases h
        · simp [hb] at h
      · rename_i hs; cases h; exact .dropped b rest rfl hl hs
  | peer b => cases h; exact .arrived b rfl
  | usbHw e act =>
    simp only [takeInput, usbHwStep] at h
    split at h
    · rename_i he
      split at h
      · rename_i r hr; cases h; exact .usb e act r rfl he hr
      · cases h
    · cases h
  | directAccess buf =>
    simp only [takeInput, directAccessStep] at h
    split at h <;> cases h
  | reset p => cases h; exact .reset p rfl

/-- Everything a step can do: nothing when no input is left, or what the next input does. -/
theorem step_cases {s t : State} (h : step s = .next t) :
    s.cfg.valid = true ∧ ((s.inputs = [] ∧ t = s) ∨ ∃ i rest, s.inputs = i :: rest ∧ Takes i (s.withInputs rest) t) := by
  simp only [step, runNext] at h
  split at h
  · rename_i hv
    refine ⟨hv, ?_⟩
    split at h
    · rename_i hi; cases h; exact .inl ⟨hi, rfl⟩
    · rename_i i rest hi; exact .inr ⟨i, rest, hi, takeInput_cases h⟩
  · cases h

end Sys2Proof.Machine
end

