-- ==== Sys2Proof/Tests/Slice0.lean ====
section
/-! SUPPORT. The model's own tests: terms the well-formedness check refuses, encodings written out from rules R91, R96 and R99, one-step
tests whose expected values are those of spec/95_test_vectors.md (named V<n> there), and for every obligation with hypotheses a
witness that meets them. -/
namespace Sys2Proof.Tests
open Sys2Proof Sys2Proof.Machine
set_option Elab.async false

/-! ## Helpers -/

/-- What `f` reads off the next state, if there is one. -/
def got {α : Type} (f : State → α) : Next → Option α
  | .next t => some (f t)
  | _ => none

/-- A further step from the next state. -/
def andThen (o : Next) (f : State → Next) : Next :=
  match o with
  | .next t => f t
  | other => other

theorem next_of_got {α : Type} {f : State → α} {o : Next} {v : α} (h : got f o = some v) : ∃ t, o = .next t ∧ f t = v := by
  cases o with
  | next t => exact ⟨t, rfl, Option.some.inj h⟩
  | fault r => cases h
  | refused r => cases h

/-- REF with every acknowledgement logged, so that a test can expect one value (rule R215). -/
def logging : Config := { Config.ref with logAcks := .always }

/-- The reset state with register 0 at `r`. -/
def withReg (r : Reg) : State := { State.reset with epr := r :: List.replicate 7 0 }

/-- The reset state with a transmit slot and the bytes of `TXB`. -/
def withTxSlot (st : SlotState) (len pos : Nat) (bs : List Byte) : State :=
  { State.reset with tx := ⟨st, len, pos⟩, txb := memoryOf bs }

/-- The reset state with a receive slot on buffer 0 and its bytes, acknowledgements logged. -/
def withRxSlot (st : SlotState) (len cnt : Nat) (bs : List Byte) : State :=
  { State.reset with cfg := logging, rx := ⟨st, 0, len, cnt⟩, rxb := [memoryOf bs] }

/-- The reset state with the bytes of `PAY`. -/
def withPay (bs : List Byte) : State := { State.reset with pay := memoryOf bs }

/-- The reset state with inputs to come. -/
def withNext (s : State) (l : List Input) : State := { s with inputs := l }

/-- A frame on the line, its first byte sent. -/
def sending : State := withTxSlot .inFlight 3 1 [9, 1, 1]
/-- A frame all of whose bytes are on the line. -/
def sentAll : State := withTxSlot .complete 3 3 [9, 1, 1]
/-- A receive of three bytes, two of them there. -/
def receiving : State := withRxSlot .inFlight 3 2 [9, 1]
/-- A completed receive of three bytes. -/
def received : State := withRxSlot .complete 3 3 [9, 1, 0x81]

/-- The frame in the slot and the slot, after an instruction. -/
def frameSent (i : Instr) (s : State) : Option (List Byte × TxSlot) := got (fun t => (t.slotFrame, t.tx)) (exec i s)
/-- The result given to `Main`, after an instruction. -/
def mainResult (i : Instr) (s : State) : Option (Option Result) := got (fun t => t.answers.main) (exec i s)
/-- The events added to an empty `LOG`, after an instruction. -/
def logged (i : Instr) (s : State) : Option (List LogEvent) := got (fun t => t.log) (exec i s)
/-- Register `e` after an EPSC operation undisturbed between its two steps. -/
def regAfter (i : Instr) (e : Nat) (s : State) : Option Reg := got (fun t => t.eprAt e) (andThen (exec i s) resumeStep)

/-! ## Ill-formed terms, one for each check of `WellFormed` -/

/-- A payload of 255 bytes does not fit the length byte (rule R95). -/
theorem test_wf_refuses_long_payload : Instr.wf Config.ref (.frameMusic (List.replicate 255 0)) = false := by decide +kernel
theorem test_wf_accepts_longest_payload : Instr.wf Config.ref (.frameMusic (List.replicate 254 0)) = true := by decide +kernel
/-- The key payload is `ceil(70 / 8)` = 9 bytes (rule R103). -/
theorem test_wf_refuses_short_key_payload : Instr.wf Config.ref (.frameKey (List.replicate 8 0)) = false := by decide +kernel
/-- Bit 6 of the last key byte is no key of 70 (rule R103). -/
theorem test_wf_refuses_key_padding : Instr.wf Config.ref (.frameKey (List.replicate 8 0 ++ [0x40])) = false := by decide +kernel
/-- All 70 keys pressed (V12). -/
theorem test_wf_accepts_all_keys : Instr.wf Config.ref (.frameKey (List.replicate 8 0xFF ++ [0x3F])) = true := by decide +kernel
/-- A SetIndividualKeys payload of the Bluetooth shape is the other row (rule R102, log 19). -/
theorem test_wf_refuses_bluetooth_shape :
    Instr.wf Config.ref (.frameSetIndividualKeys (0xCA :: 0x0A :: List.replicate 50 0)) = false := by decide +kernel
/-- The Bluetooth payload has ten records (rule R102). -/
theorem test_wf_refuses_nine_records :
    Instr.wf Config.ref (.frameSetIndividualKeysBluetooth (List.replicate 9 ⟨0, ⟨0, 0, 0⟩, 0⟩)) = false := by decide +kernel
/-- A pair of the acknowledgement class is not "any other pair" (rule R214). -/
theorem test_wf_refuses_ack_as_other : Instr.wf Config.ref (.frameOther 9 0x85 []) = false := by decide +kernel
theorem test_wf_refuses_long_data :
    Instr.wf Config.ref (.frameAckThemeMode (List.replicate 255 0)) = false
      ∧ Instr.wf Config.ref (.frameOther 0 0 (List.replicate 255 0)) = false := by decide +kernel

/-! ## Decoding: words written out from rule R96 and from the vectors -/

/-- EPSC: V3, V4. `SETTX 0, VALID, set`; `SETRX 2, STALL, set`; `CLRTX 0`; `CLRRX 0`. -/
theorem test_decode_epsc :
    decodeCommand 0x01000301 = .ok (.settx 0 3 .set) ∧ decodeCommand 0x02020101 = .ok (.setrx 2 1 .set)
      ∧ decodeCommand 0x03000000 = .ok (.clrtx 0) ∧ decodeCommand 0x04000000 = .ok (.clrrx 0) := by decide +kernel
/-- Link Transport: V6, V7. -/
theorem test_decode_transport :
    decodeCommand 0x1009063D = .ok (.send 9 6 61) ∧ decodeCommand 0x11000040 = .ok (.receive 0 64)
      ∧ decodeCommand 0x12000000 = .ok .poll ∧ decodeCommand 0x13000000 = .ok .finish
      ∧ decodeCommand 0x14000000 = .ok .txadv := by decide +kernel
/-- LED Link Protocol: V10, V11. -/
theorem test_decode_protocol :
    decodeCommand 0x18010000 = .ok (.parse 1) ∧ decodeCommand 0x19098500 = .ok (.dispatch 9 0x85) := by decide +kernel
/-- LED Controller: V12, V13, V14. -/
theorem test_decode_controller :
    decodeCommand 0x20000000 = .ok .toggle ∧ decodeCommand 0x21000000 = .ok .thememode
      ∧ decodeCommand 0x22000000 = .ok .nexttheme ∧ decodeCommand 0x23000000 = .ok .nextbright
      ∧ decodeCommand 0x24000000 = .ok .nextspeed ∧ decodeCommand 0x25FF0000 = .ok (.settheme 255)
      ∧ decodeCommand 0x26000000 = .ok .sendkeys ∧ decodeCommand 0x27000002 = .ok (.sendmusic 2)
      ∧ decodeCommand 0x28000000 = .ok .getthemeid ∧ decodeCommand 0x29000002 = .ok (.setkeys 2)
      ∧ decodeCommand 0x2A020000 = .ok (.btmode 2) ∧ decodeCommand 0x2B000004 = .ok (.ledcpoll 0 4) := by decide +kernel
/-- Words that are no operation: V15. -/
theorem test_decode_refuses :
    decodeCommand 0x00000000 = .error (.unknownOpc 0) ∧ decodeCommand 0x15000000 = .error (.unknownOpc 0x15)
      ∧ decodeCommand 0x2C000000 = .error (.unknownOpc 0x2C) ∧ decodeCommand 0xFF000000 = .error (.unknownOpc 0xFF)
      ∧ decodeCommand 0x12000001 = .error .reservedC ∧ decodeCommand 0x11000103 = .error .reservedB
      ∧ decodeCommand 0x19098101 = .error .reservedC ∧ decodeCommand 0x010803FF = .error .reservedC := by decide +kernel
/-- Outgoing frames: V9, V12 (rule R99). -/
theorem test_decode_frames_out :
    decode Config.ref (.wireOut [9, 1, 1]) = .ok .frameThemeModeReassert
      ∧ decode Config.ref (.wireOut [9, 2, 1, 3]) = .ok (.frameThemeModeSet 3)
      ∧ decode Config.ref (.wireOut [9, 4, 5, 1, 0, 0]) = .ok .frameConfigCmdTheme
      ∧ decode Config.ref (.wireOut [9, 4, 5, 0, 0, 1]) = .ok .frameConfigCmdBrightness
      ∧ decode Config.ref (.wireOut [9, 4, 5, 0, 1, 0]) = .ok .frameConfigCmdSpeed
      ∧ decode Config.ref (.wireOut [9, 10, 7, 1, 2, 0, 0, 0, 0, 0, 0, 0x20]) = .ok (.frameKey [1, 2, 0, 0, 0, 0, 0, 0, 0x20])
      ∧ decode Config.ref (.wireOut [9, 3, 6, 1, 2]) = .ok (.frameMusic [1, 2])
      ∧ decode Config.ref (.wireOut [9, 1, 12]) = .ok .frameGetThemeId
      ∧ decode Config.ref (.wireOut [9, 3, 11, 0xCA, 0]) = .ok (.frameSetIndividualKeys [0xCA, 0]) := by decide +kernel
/-- The Bluetooth frame of V13: length byte 0x35, magic, count, ten records. -/
theorem test_decode_frame_bluetooth :
    decode Config.ref (.wireOut ([9, 0x35, 11, 0xCA, 0x0A, 0, 0xFF, 0xFF, 0, 0] ++ List.replicate 45 0))
      = .ok (.frameSetIndividualKeysBluetooth (⟨0, ⟨0xFF, 0xFF, 0⟩, 0⟩ :: List.replicate 9 ⟨0, ⟨0, 0, 0⟩, 0⟩)) := by decide +kernel
/-- Incoming frames: V10, V11 (rules R99, R213, R214). -/
theorem test_decode_frames_in :
    decode Config.ref (.wireIn [9, 1, 0x81]) = .ok (.frameAckThemeMode [])
      ∧ decode Config.ref (.wireIn [9, 2, 0x85, 7]) = .ok (.frameAckConfigCmd [7])
      ∧ decode Config.ref (.wireIn [9, 1, 0x8B]) = .ok (.frameAckSetIndividualKeys [])
      ∧ decode Config.ref (.wireIn [9, 1, 0x87]) = .ok (.frameOther 9 0x87 [])
      ∧ decode Config.ref (.wireIn [2, 1, 0x81]) = .ok (.frameOther 2 0x81 []) := by decide +kernel
/-- The length byte counts the opcode and the payload (rule R93); a row of rule R99 needs its own shape. -/
theorem test_decode_frames_refused :
    decode Config.ref (.wireIn [9, 2, 0x81]) = .error .frameLength ∧ decode Config.ref (.wireOut [9, 1]) = .error .shortFrame
      ∧ decode Config.ref (.wireOut [9, 4, 5, 1, 1, 0]) = .error .noOutRow := by decide +kernel
/-- The host's question on a row: a command word, and the bytes of a frame, lowest first. -/
theorem test_decode_table_word :
    decodeTableWord 32 0x25030000 = some (.settheme 3) ∧ decodeTableWord 24 0x810109 = some (.frameAckThemeMode [])
      ∧ decodeTableWord 24 0x010109 = some .frameThemeModeReassert ∧ decodeTableWord 32 0x05000000 = none := by decide +kernel

/-! ## Encoding: V9 -/

theorem test_encode_frame :
    encodeFrame 9 5 [1, 0, 0] = [0x09, 0x04, 0x05, 0x01, 0x00, 0x00] ∧ encodeFrame 0xFF 0xFF [0xFF] = [0xFF, 0x02, 0xFF, 0xFF]
      ∧ (encodeFrame 9 6 (List.replicate 254 0)).take 3 = [0x09, 0xFF, 0x06] := by decide +kernel

/-! ## Write values: V1 to V4 -/

/-- V1, V2: the values written. -/
theorem test_status_write_values :
    statusWrite Config.ref 0x9A4F .tx 1 .keep = 0x8A9F ∧ statusWrite Config.ref 0x9A7F .tx 0 .keep = 0x8ABF
      ∧ statusWrite Config.ref 0x5AC5 .rx 2 .keep = 0xBA85 ∧ statusWrite Config.ref 0xFFFF .rx 0 .set = 0xFF8F
      ∧ statusWrite Config.ref 0x4ACF .rx 1 .set = 0xDA8F := by decide +kernel
/-- V3: what each value of `DTOG_W1` makes of them. -/
theorem test_hw_write_dtog :
    hwWrite Config.ref 0xFFFF 0xFF8F = 0x8FFF ∧ hwWrite { Config.ref with dtogW1 := .set } 0xFFFF 0xFF8F = 0xCFFF
      ∧ hwWrite Config.ref 0x4ACF 0xDA8F = 0x1ACF ∧ hwWrite { Config.ref with dtogW1 := .set } 0x4ACF 0xDA8F = 0x5ACF := by
  decide +kernel
/-- V4: the values written and the registers after. -/
theorem test_clear_write_values :
    clearWrite Config.ref 0xB2F1 .tx = 0x8201 ∧ clearWrite Config.ref 0xB2F1 .rx = 0x0281
      ∧ clearWrite Config.ref 0xFFFF .tx = 0x8F0F ∧ hwWrite Config.ref 0xFFFF 0x0F8F = 0x7FFF := by decide +kernel
/-- V5: the read-modify-write window, lines 1 to 4. -/
theorem test_window :
    hwWrite Config.ref 0x32A0 (statusWrite Config.ref 0x3230 .tx 2 .keep) = 0x32B0
      ∧ hwWrite Config.ref 0x3210 (statusWrite Config.ref 0x3220 .tx 3 .keep) = 0x3200
      ∧ hwWrite Config.ref 0x32A0 (clearWrite Config.ref 0x3220 .tx) = 0x3220
      ∧ hwWrite Config.ref 0x3230 (statusWrite Config.ref 0x3220 .rx 2 .keep) = 0x2230 := by decide +kernel

/-! ## The EPSC operations, both steps -/

theorem test_settx_status : regAfter (.settx 0 1 .keep) 0 (withReg 0x9A4F) = some 0x9A5F := by decide +kernel
theorem test_settx_dtog :
    regAfter (.settx 1 2 .set) 1 { State.reset with epr := 0 :: 0xB2E1 :: List.replicate 6 0 } = some 0xB2A1 := by decide +kernel
theorem test_setrx_status : regAfter (.setrx 0 2 .keep) 0 (withReg 0x3220) = some 0x2220 := by decide +kernel
theorem test_setrx_last_endpoint : (regAfter (.setrx 7 1 .keep) 7 State.reset) = some 0x1000 := by decide +kernel
theorem test_clrtx : regAfter (.clrtx 0) 0 (withReg 0xB2F1) = some 0xB271 := by decide +kernel
/-- V15: `CLRTX 8` on eight endpoints. -/
theorem test_clrtx_bad_endpoint : mainResult (.clrtx 8) State.reset = some (some (.fault (.badEndpoint 8))) := by decide +kernel
theorem test_clrrx : regAfter (.clrrx 0) 0 (withReg 0xB2F1) = some 0x32F1 := by decide +kernel

/-! ## The Link Transport -/

/-- V6, line 1. -/
theorem test_send_one_byte : frameSent (.send 9 1 1) (withPay [3]) = some ([9, 2, 1, 3], ⟨.inFlight, 4, 0⟩) := by decide +kernel
/-- V6: 62 bytes, before the slot is looked at. -/
theorem test_send_too_long : mainResult (.send 9 6 62) sending = some (some (.fault (.sendTooLong 62))) := by decide +kernel
theorem test_receive_whole_buffer : got (fun t => t.rx) (exec (.receive 0 64) State.reset) = some ⟨.inFlight, 0, 64, 0⟩ := by
  decide +kernel
/-- V7: the buffer is checked before the length. -/
theorem test_receive_check_order : mainResult (.receive 1 0) receiving = some (some (.fault (.badBuffer 1))) := by decide +kernel
theorem test_poll_in_flight : mainResult .poll receiving = some (some .wouldBlock) := by decide +kernel
theorem test_poll_empty : mainResult .poll State.reset = some (some (.fault .noTransfer)) := by decide +kernel
theorem test_finish_complete :
    got (fun t => (t.answers.main, t.rx.st, t.rxIrqLine)) (exec .finish received) = some (some (.okBuffer 0), .empty, false) := by
  decide +kernel
theorem test_finish_in_flight : mainResult .finish receiving = some (some (.fault .finishNotReady)) := by decide +kernel
theorem test_txadv_complete : got (fun t => (t.answers.main, t.tx.st)) (exec .txadv sentAll) = some (some .ok, .empty) := by
  decide +kernel
theorem test_txadv_in_flight : mainResult .txadv sending = some (some .wouldBlock) := by decide +kernel

/-! ## The LED Link Protocol -/

/-- V10, line 2, after line 11: stale bytes of the buffer are read. -/
theorem test_parse_stale_bytes :
    mainResult (.parse 0) (withRxSlot .complete 3 3 [9, 4, 0x81, 0xAA, 0xBB, 0xCC, 1])
      = some (some (.okMessage ⟨9, 0x81, [0xAA, 0xBB, 0xCC]⟩)) := by decide +kernel
/-- V10: `L` = 63 on a buffer of 64. -/
theorem test_parse_bounds :
    mainResult (.parse 0) (withRxSlot .empty 3 3 [9, 0x3F, 6]) = some (some (.fault (.parseBounds 0 63))) := by decide +kernel
/-- V11. -/
theorem test_dispatch_ack : logged (.dispatch 9 0x8B) received = some [.ack 0x8B] := by decide +kernel
theorem test_dispatch_drop : logged (.dispatch 9 0x87) received = some [.drop 9 0x87] := by decide +kernel

/-! ## The LED Controller: V12 to V14 -/

theorem test_toggle_from_theme :
    got (fun t => (t.slotFrame, t.ledState)) (exec .toggle { State.reset with ledState := true })
      = some ([9, 2, 1, 0], false) := by decide +kernel
theorem test_toggle_refused :
    got (fun t => (t.answers.main, t.ledState)) (exec .toggle sending) = some (some .wouldBlock, true) := by decide +kernel
theorem test_thememode : frameSent .thememode State.reset = some ([9, 1, 1], ⟨.inFlight, 3, 0⟩) := by decide +kernel
theorem test_settheme : frameSent (.settheme 255) State.reset = some ([9, 2, 1, 0xFF], ⟨.inFlight, 4, 0⟩) := by decide +kernel
theorem test_nexttheme : frameSent .nexttheme State.reset = some ([9, 4, 5, 1, 0, 0], ⟨.inFlight, 6, 0⟩) := by decide +kernel
theorem test_nextbright : frameSent .nextbright State.reset = some ([9, 4, 5, 0, 0, 1], ⟨.inFlight, 6, 0⟩) := by decide +kernel
theorem test_nextspeed : frameSent .nextspeed State.reset = some ([9, 4, 5, 0, 1, 0], ⟨.inFlight, 6, 0⟩) := by decide +kernel
theorem test_getthemeid : frameSent .getthemeid State.reset = some ([9, 1, 12], ⟨.inFlight, 3, 0⟩) := by decide +kernel
theorem test_sendmusic : frameSent (.sendmusic 2) (withPay [1, 2]) = some ([9, 3, 6, 1, 2], ⟨.inFlight, 5, 0⟩) := by decide +kernel
theorem test_setkeys : frameSent (.setkeys 2) (withPay [0xCA, 0]) = some ([9, 3, 11, 0xCA, 0], ⟨.inFlight, 5, 0⟩) := by decide +kernel

/-- Keys 0, 9 and 69 of 70. -/
def threeKeys : List Bool := (List.range 70).map fun i => i == 0 || i == 9 || i == 69

theorem test_sendkeys :
    frameSent .sendkeys { State.reset with ks := threeKeys }
      = some ([9, 0x0A, 7, 1, 2, 0, 0, 0, 0, 0, 0, 0x20], ⟨.inFlight, 12, 0⟩) := by decide +kernel
theorem test_pack_msb_first : pack { Config.ref with packLsbFirst := false } threeKeys = [0x80, 0x40, 0, 0, 0, 0, 0, 0, 4] := by
  decide +kernel
/-- V13: header, magic, count and the status colour; the other bytes are the placeholder's. -/
theorem test_btmode_legacy :
    got (fun t => (t.slotFrame.take 5, (t.slotFrame.drop 6).take 3, t.tx)) (exec (.btmode 2) State.reset)
      = some ([9, 0x35, 11, 0xCA, 0x0A], [0xFF, 0xFF, 0], ⟨.inFlight, 55, 0⟩) := by decide +kernel
theorem test_btmode_bad : mainResult (.btmode 3) sending = some (some (.fault (.badMode 3))) := by decide +kernel

/-- V14: four steps; the slot after each, and the log at the end. -/
theorem test_ledcpoll_steps :
    got (fun t => (t.rx, t.log)) (exec (.ledcpoll 0 4) received) = some (⟨.complete, 0, 3, 3⟩, [])
      ∧ got (fun t => (t.rx.st, t.log)) (andThen (exec (.ledcpoll 0 4) received) resumeStep) = some (.empty, [])
      ∧ got (fun t => (t.rx.st, t.log)) (andThen (andThen (exec (.ledcpoll 0 4) received) resumeStep) resumeStep)
          = some (.empty, [.ack 0x81])
      ∧ got (fun t => (t.rx, t.log, t.answers.main))
          (andThen (andThen (andThen (exec (.ledcpoll 0 4) received) resumeStep) resumeStep) resumeStep)
          = some (⟨.inFlight, 0, 4, 0⟩, [.ack 0x81], some .ok) := by decide +kernel
/-- V14: `[0x01, 0x8B, 0x09]` fails PARSE at step 3 (`L + 2` = 141) and the slot stays empty. -/
theorem test_ledcpoll_parse_fault :
    got (fun t => (t.rx.st, t.answers.main, t.faults))
        (andThen (andThen (exec (.ledcpoll 0 3) (withRxSlot .complete 3 3 [1, 0x8B, 9])) resumeStep) resumeStep)
      = some (.empty, some (.fault (.parseBounds 0 139)), [.parseBounds 0 139]) := by decide +kernel

/-! ## The wire frames -/

theorem test_frame_theme_mode_reassert :
    frameSent .frameThemeModeReassert State.reset = some ([9, 1, 1], ⟨.inFlight, 3, 0⟩) := by decide +kernel
theorem test_frame_theme_mode_set :
    frameSent (.frameThemeModeSet 3) State.reset = some ([9, 2, 1, 3], ⟨.inFlight, 4, 0⟩) := by decide +kernel
theorem test_frame_config_cmd :
    frameSent .frameConfigCmdTheme State.reset = some ([9, 4, 5, 1, 0, 0], ⟨.inFlight, 6, 0⟩)
      ∧ frameSent .frameConfigCmdBrightness State.reset = some ([9, 4, 5, 0, 0, 1], ⟨.inFlight, 6, 0⟩)
      ∧ frameSent .frameConfigCmdSpeed State.reset = some ([9, 4, 5, 0, 1, 0], ⟨.inFlight, 6, 0⟩) := by decide +kernel
theorem test_frame_key :
    frameSent (.frameKey [1, 2, 0, 0, 0, 0, 0, 0, 0x20]) State.reset
      = some ([9, 0x0A, 7, 1, 2, 0, 0, 0, 0, 0, 0, 0x20], ⟨.inFlight, 12, 0⟩) := by decide +kernel
theorem test_frame_music : frameSent (.frameMusic [1, 2]) State.reset = some ([9, 3, 6, 1, 2], ⟨.inFlight, 5, 0⟩) := by decide +kernel
theorem test_frame_get_theme_id : frameSent .frameGetThemeId State.reset = some ([9, 1, 12], ⟨.inFlight, 3, 0⟩) := by decide +kernel
theorem test_frame_set_individual_keys :
    frameSent (.frameSetIndividualKeys [0xCA, 0]) State.reset = some ([9, 3, 11, 0xCA, 0], ⟨.inFlight, 5, 0⟩) := by decide +kernel
/-- The frame that BTMODE LEGACY puts on the link (V13). -/
theorem test_frame_bluetooth :
    frameSent (.frameSetIndividualKeysBluetooth (btRecords Config.ref 2)) State.reset = frameSent (.btmode 2) State.reset := by
  decide +kernel
theorem test_frame_acks :
    logged (.frameAckThemeMode []) received = some [.ack 0x81] ∧ logged (.frameAckConfigCmd [7]) received = some [.ack 0x85]
      ∧ logged (.frameAckSetIndividualKeys []) received = some [.ack 0x8B] := by decide +kernel
theorem test_frame_other : logged (.frameOther 2 0x81 []) received = some [.drop 2 0x81] := by decide +kernel

/-! ## The port, the agents, the interrupts -/

/-- Presented from reset, the first step runs the table word. -/
theorem test_step_runs_table_word :
    got (fun t => (t.slotFrame, t.ledState)) (step (State.reset.withFetchWord 32 0x20000000)) = some ([9, 1, 1], true) := by
  decide +kernel
/-- V15: an illegal word is recorded and changes nothing. -/
theorem test_step_illegal_word :
    got (fun t => (t.answers.main, t.faults, t.epr)) (step (withNext State.reset [.present (.command 0x010803FF)]))
      = some (some (.fault (.illegalCommand 0x010803FF)), [.illegalCommand 0x010803FF], State.reset.epr) := by decide +kernel
/-- V6: the last byte completes the slot. -/
theorem test_dma_tx :
    got (fun t => (t.txLine, t.tx, t.txIrqLine)) (dmaTxStep (withTxSlot .inFlight 3 2 [9, 1, 1]))
      = some ([1], ⟨.complete, 3, 3⟩, true) := by decide +kernel
/-- V8: the last byte is stored; a byte that comes while nothing is in flight is lost. -/
theorem test_dma_rx :
    got (fun t => (t.rx, Memory.read (t.rxb.getD 0 []) 2, t.rxIrqLine)) (dmaRxStep { receiving with rxLine := [0x81] })
        = some (⟨.complete, 0, 3, 3⟩, 0x81, true)
      ∧ got (fun t => (t.rxLine, t.lost)) (dmaRxStep { received with rxLine := [9] }) = some ([], 1) := by decide +kernel
/-- P1, lines 1 and 4: `UsbHw` sets `CTR_RX`, and replaces the TX status by Nak. -/
theorem test_usb_hw :
    got (fun t => t.eprAt 0) (usbHwStep 0 (.setFlag .rx) (withReg 0x3220)) = some 0xB220
      ∧ got (fun t => t.eprAt 0) (usbHwStep 0 (.setStatus .tx 2) (withReg 0x3270)) = some 0x3260 := by decide +kernel
/-- P2, line 4: the handler is pushed, presents TXADV and is popped. P4, line 4: `RxIrq` inside LEDCPOLL 0, 3. -/
theorem test_interrupt :
    got (fun t => (t.top, t.tx.st, t.answers.txIrq)) (step (withNext sentAll [.take .txIrq])) = some (.main, .empty, some .ok)
      ∧ got (fun t => (t.top, t.topOp, t.rx.st)) (step (withNext received [.take (.rxIrq 0 3)]))
          = some (.rxIrq, some (.pollFinish 0 3), .complete) := by decide +kernel
/-- Without the wiring of rule R282 the handler has presented nothing yet. -/
theorem test_interrupt_unwired :
    got (fun t => (t.top, t.topOp, t.tx.st)) (step (withNext sentAll [.takeUnwired .txIrq])) = some (.txIrq, none, .complete) := by
  decide +kernel

/-- `Main` writes `PAY`, presents a CLRTX, is preempted by `TxIrq` and then presents the SEND that reads `PAY`. -/
def stagedRun : Nat → State
  | 0 => withNext sentAll [.stagePay 0 5]
  | 1 => withNext sentAll [.present (.command 0x03000000)]
  | 2 => withNext sentAll [.take .txIrq]
  | 3 => withNext sentAll [.present (.command 0x10090101)]
  | _ => sentAll

/-- Rule R330: the TXADV of `TxIrq`, between the write and the SEND, breaks `P_LT_EXCL`; the CLRTX, which reads no `PAY`, ends nothing. -/
theorem test_lt_excl_staging : StagedFrom stagedRun .main .pay 0 3 ∧ ¬LtExcl stagedRun := by
  have h : StagedFrom stagedRun .main .pay 0 3 := by
    refine ⟨rfl, ⟨rfl, .send 9 1 1, by decide +kernel, rfl⟩, fun l h0 h3 => ?_⟩
    obtain rfl | rfl : l = 1 ∨ l = 2 := by omega
    · refine ⟨fun ⟨_, i, hi, hr⟩ => ?_, rfl⟩
      rw [show (stagedRun 1).presentsNext = some (.clrtx 0) by decide +kernel] at hi
      cases hi; cases hr
    · exact ⟨fun hc => absurd hc.1 (by decide), rfl⟩
  refine ⟨h, fun hx => ?_⟩
  have hs := hx.2 .main .pay 0 3 h 2 (by omega) (by omega) (by decide) .txadv (by decide +kernel)
  cases hs

/-! ## Witnesses: for every obligation with hypotheses, a state and operands that meet them, for each of its clauses -/

/-- The parameters of most of them. -/
theorem witness_valid : Config.ref.valid = true ∧ logging.valid = true := by decide +kernel

theorem witness_DecodeOfEncodeIsTheInstruction :
    Config.ref.valid = true ∧ Instr.wf Config.ref (.frameMusic (List.replicate 254 0)) = true := by decide +kernel
theorem witness_EncodeOfDecodedWordIsTheWord : decode Config.ref (.command 0x01FF0301) = .ok (.settx 255 3 .set) := by decide +kernel
/-- A word on a row, a word on none. -/
theorem witness_WordIsLegalExactlyOnATableRow :
    (∃ row ∈ commandRows, (0x2B0000FF : CommandWord) &&& row.mask = row.pattern)
      ∧ ∀ row ∈ commandRows, (0x2B000100 : CommandWord) &&& row.mask ≠ row.pattern := by decide +kernel

/-- The reset state about to be presented a word; a LEDCPOLL about to go on. -/
theorem witness_StepRunsTheDecodedInstruction :
    (withNext State.reset [.present (.command 0x20000000)]).cfg.valid = true ∧ State.reset.topOp = none
      ∧ decode Config.ref (.command 0x20000000) = .ok .toggle
      ∧ (withNext { received with mainOp := some (.pollFinish 0 3) } [.resume]).topOp = some (.pollFinish 0 3) := by
  decide +kernel
theorem witness_StepRefusesBadParametersAndRests :
    ({ State.reset with cfg := { Config.ref with nEp := 0 } } : State).cfg.valid = false
      ∧ State.reset.cfg.valid = true ∧ State.reset.inputs = [] := by decide +kernel
theorem witness_IllegalWordRaisesIllegalCommand :
    (withNext State.reset [.present (.command 0x05000000)]).cfg.valid = true ∧ State.reset.topOp = none
      ∧ ∀ row ∈ commandRows, (0x05000000 : CommandWord) &&& row.mask ≠ row.pattern := by decide +kernel

/-- Both values of `DTOG_W1` for the laws of the write values. -/
theorem witness_StatusWriteLaws :
    Config.ref.valid = true ∧ Config.ref.dtogW1 = .toggle
      ∧ ({ Config.ref with dtogW1 := .set } : Config).valid = true := by decide +kernel
theorem witness_StatusWriteIsKeepAndToggle : Config.ref.valid = true := by decide +kernel
theorem witness_ClearWriteLaws : Config.ref.valid = true := by decide +kernel
theorem witness_WriteValuesInTheWindow : Config.ref.valid = true := by decide +kernel
theorem witness_ReplayUndoesAndRepeatIsSafe : Config.ref.valid = true := by decide +kernel

/-- A state in the middle of a SETTX of the last endpoint; the first endpoint that does not exist. -/
theorem witness_SetStatusReadsThenWrites :
    State.reset.inv = true ∧ State.reset.cfg.nEp ≤ (8 : Byte).toNat ∧ (7 : Byte).toNat < State.reset.cfg.nEp
      ∧ ({ State.reset with mainOp := some (.statusWrite .tx 7 3 .set 0) } : State).inv = true := by decide +kernel
theorem witness_ClearFlagReadsThenWrites :
    State.reset.inv = true ∧ State.reset.cfg.nEp ≤ (8 : Byte).toNat ∧ (7 : Byte).toNat < State.reset.cfg.nEp
      ∧ ({ State.reset with mainOp := some (.clearWrite .rx 7 0) } : State).inv = true := by decide +kernel
theorem witness_UndisturbedEpscOperationsReachTheirGoal :
    (withReg 0x9A4F).inv = true ∧ (7 : Byte).toNat < (withReg 0x9A4F).cfg.nEp ∧ Config.ref.dtogW1 = .toggle
      ∧ ({ State.reset with cfg := { Config.ref with dtogW1 := .set } } : State).inv = true := by decide +kernel
/-- Its last clause: `Main` inside a SETTX of endpoint 0, under a handler that begins one of endpoint 1; and on top, while `UsbHw` sets a
flag of endpoint 1. -/
theorem witness_UndisturbedEpscOperations_window :
    let s := { withReg 0x9A4F with mainOp := some (.statusWrite .tx 0 1 .keep 0x9A4F) }
    let below := withNext { s with handlers := [⟨.rxIrq, none⟩] } [.present (.command 0x01010301)]
    let onTop := withNext s [.usbHw 1 (.setFlag .rx)]
    (below.pendingsBelow, below.eprExcl, below.eprQuiet 0, below.resetNext) = (s.pendings, true, true, false)
      ∧ got (fun t => (t.eprAt 0, t.topOp.isSome)) (step below) = some (0x9A4F, true)
      ∧ (onTop.resumesNext, onTop.eprExcl, onTop.eprQuiet 0, onTop.resetNext) = (none, true, true, false)
      ∧ got (fun t => (t.eprAt 0, t.eprAt 1)) (step onTop) = some (0x9A4F, 0x8000)
      ∧ (withNext { s with handlers := [⟨.rxIrq, none⟩] } [.present (.command 0x01000301)]).eprExcl = false := by decide +kernel
theorem witness_UsbHwKeepsFlagsAndPlainBits :
    ∃ t, step (withNext (withReg 0x3220) [.usbHw 0 (.setStatus .rx 0)]) = .next t ∧ t.eprAt 0 = 0x0220 :=
  next_of_got (by decide +kernel)
/-- The four actions on the last endpoint; bit 11 is the read-only bit of REF; a unit that mutates no status. -/
theorem witness_UsbHwActionsTakeEffect :
    State.reset.inv = true ∧ 7 < State.reset.cfg.nEp ∧ State.reset.cfg.usbHwMutatesStat = true
      ∧ State.reset.cfg.mRo.getLsbD 11 = true ∧ State.reset.cfg.mRo.getLsbD 10 = false
      ∧ ({ State.reset with cfg := { Config.ref with usbHwMutatesStat := false } } : State).inv = true := by decide +kernel

/-- 61 bytes are the most that fit, 62 do not; an empty slot, a slot in use. -/
theorem witness_SendQueuesOneFrame :
    State.reset.inv = true ∧ sending.inv = true ∧ sending.tx.st ≠ .empty
      ∧ (Memory.readBytes State.reset.pay 0 (61 : Byte).toNat).length ≤ State.reset.cfg.maxPay
      ∧ State.reset.cfg.maxPay < (Memory.readBytes State.reset.pay 0 (62 : Byte).toNat).length := by decide +kernel
/-- Buffers 0 and 1 of one, lengths 0, 1, 64 and 65 of 64, a slot in use and an empty one. -/
theorem witness_ReceiveArmsTheSlot :
    State.reset.cfg.nRxBuf ≤ (1 : Byte).toNat ∧ (0 : Byte).toNat < State.reset.cfg.nRxBuf
      ∧ State.reset.cfg.rxCap < (65 : Byte).toNat ∧ (64 : Byte).toNat ≤ State.reset.cfg.rxCap
      ∧ State.reset.rx.st = .empty ∧ receiving.rx.st ≠ .empty := by decide +kernel
theorem witness_PollReportsTheReceiveSlot :
    State.reset.rx.st = .empty ∧ receiving.rx.st = .inFlight ∧ received.rx.st = .complete := by decide +kernel
theorem witness_FinishReclaimsTheBuffer :
    State.reset.rx.st = .empty ∧ receiving.rx.st = .inFlight ∧ received.rx.st = .complete := by decide +kernel
theorem witness_TxadvReleasesTheSlot :
    sentAll.tx.st = .complete ∧ sending.tx.st = .inFlight ∧ State.reset.tx.st = .empty := by decide +kernel
theorem witness_DmaTxMovesOneByte :
    (withNext sending [.dmaTx]).inv = true ∧ sending.tx.st = .inFlight
      ∧ (withNext sentAll [.dmaTx]).inv = true ∧ sentAll.tx.st ≠ .inFlight := by decide +kernel
/-- A byte to store, a byte to drop, no byte. -/
theorem witness_DmaRxStoresOrDropsOneByte :
    (withNext { receiving with rxLine := [0x81] } [.dmaRx]).inv = true ∧ receiving.rx.st = .inFlight
      ∧ (withNext { received with rxLine := [9] } [.dmaRx]).inv = true ∧ received.rx.st ≠ .inFlight
      ∧ (withNext received [.dmaRx]).inv = true ∧ received.rxLine = [] := by decide +kernel
theorem witness_PeerAppendsOneByte : (withNext State.reset [.peer 9]).cfg.valid = true := by decide +kernel

/-- No such buffer; a buffer in flight; length bytes 0, 62 (the last that fits) and 63; no bounds check. -/
theorem witness_ParseReadsTheBuffer :
    receiving.inv = true ∧ receiving.cfg.nRxBuf ≤ (1 : Byte).toNat ∧ receiving.rx.st = .inFlight ∧ receiving.rx.buf = 0
      ∧ (withRxSlot .empty 0 0 [9, 0, 6]).inv = true
      ∧ (withRxSlot .empty 0 0 [9, 62, 6]).inv = true ∧ (62 : Byte).toNat + 2 ≤ logging.rxCap
      ∧ (withRxSlot .empty 0 0 [9, 63, 6]).inv = true ∧ logging.rxCap < (63 : Byte).toNat + 2
      ∧ ({ withRxSlot .empty 0 0 [9, 63, 6] with cfg := { logging with parseBoundsCheck := false } } : State).inv = true := by
  decide +kernel
/-- The longest payload that both SEND and the buffer allow, and the empty one. -/
theorem witness_ParseOfAnEncodedFrame :
    (withRxSlot .empty 0 0 (encodeFrame 9 6 (List.replicate 61 7))).inv = true
      ∧ (List.replicate 61 (7 : Byte)).length ≤ min logging.maxPay (logging.rxCap - 3)
      ∧ Memory.readBytes (memoryOf (encodeFrame 9 6 (List.replicate 61 7))) 0 (3 + 61) = encodeFrame 9 6 (List.replicate 61 7)
      ∧ Memory.readBytes (memoryOf (encodeFrame 9 1 [])) 0 3 = encodeFrame 9 1 [] := by decide +kernel
/-- A pair of the acknowledgement class under each value of `LOG_ACKS`, a pair outside it. -/
theorem witness_DispatchLogsOrDrops :
    isAckPair Config.ref 9 0x81 = true ∧ isAckPair Config.ref 9 0x87 = false ∧ Config.ref.logAcks = .free
      ∧ logging.logAcks = .always ∧ ({ Config.ref with logAcks := .never } : Config).valid = true := by decide +kernel

theorem witness_FixedFrameCommandsSend :
    State.reset.inv = true ∧ State.reset.tx.st = .empty ∧ sentAll.inv = true ∧ sentAll.tx.st ≠ .empty
      ∧ ([1, 0, 0] : List Byte).length ≤ State.reset.cfg.maxPay
      ∧ ({ State.reset with cfg := { Config.ref with txCap := 4, nKeys := 8 }, ks := List.replicate 8 false } : State).inv = true
      ∧ ({ Config.ref with txCap := 4, nKeys := 8 } : Config).maxPay < ([1, 0, 0] : List Byte).length := by decide +kernel
theorem witness_PayloadCommandsSend :
    State.reset.inv = true ∧ sending.inv = true ∧ sending.tx.st ≠ .empty
      ∧ (Memory.readBytes State.reset.pay 0 (61 : Byte).toNat).length ≤ State.reset.cfg.maxPay
      ∧ State.reset.cfg.maxPay < (Memory.readBytes State.reset.pay 0 (62 : Byte).toNat).length := by decide +kernel
theorem witness_SendkeysSendsThePackedKeys :
    State.reset.inv = true ∧ sending.inv = true ∧ sending.tx.st ≠ .empty
      ∧ (pack State.reset.cfg State.reset.ks).length ≤ State.reset.cfg.maxPay := by decide +kernel
/-- The last key of 70; the two bits after it. -/
theorem witness_PackPlacesEveryKey :
    69 < Config.ref.nKeys ∧ Config.ref.nKeys ≤ 70 ∧ 71 < 8 * ((Config.ref.nKeys + 7) / 8) := by decide +kernel
/-- The three modes and one that is none of them; a capacity that the payload exceeds. -/
theorem witness_BtmodeSendsItsPayload :
    State.reset.inv = true ∧ sending.inv = true ∧ (3 : Byte) ≠ Config.ref.btUnknown ∧ (3 : Byte) ≠ Config.ref.btBle
      ∧ (3 : Byte) ≠ Config.ref.btLegacy ∧ (2 : Byte) = Config.ref.btLegacy
      ∧ (btPayload Config.ref 2).length ≤ Config.ref.maxPay
      ∧ ({ State.reset with cfg := { Config.ref with txCap := 54 } } : State).inv = true
      ∧ ({ Config.ref with txCap := 54 } : Config).maxPay < (btPayload { Config.ref with txCap := 54 } 2).length := by
  decide +kernel
theorem witness_BtPayloadLayout :
    Config.ref.valid = true ∧ Config.ref.btPattern[9]? = some ⟨9, ⟨0, 0, 0⟩, 0⟩ ∧ 9 ≠ Config.ref.btStatusRec := by decide +kernel
theorem witness_ToggleSendsAndFlips :
    State.reset.inv = true ∧ State.reset.tx.st = .empty ∧ sentAll.inv = true ∧ sentAll.tx.st ≠ .empty
      ∧ ({ State.reset with cfg := { Config.ref with txCap := 3 }, ledState := true } : State).ledState = true
      ∧ ({ State.reset with cfg := { Config.ref with txCap := 3 }, ledState := true } : State).cfg.maxPay = 0 := by
  decide +kernel
theorem witness_LedcpollFirstStep :
    received.cfg.nRxBuf ≤ (1 : Byte).toNat ∧ received.cfg.rxCap < (65 : Byte).toNat ∧ (64 : Byte).toNat ≤ received.cfg.rxCap
      ∧ State.reset.rx.st = .empty ∧ receiving.rx.st = .inFlight ∧ received.rx.st = .complete := by decide +kernel
/-- V14; and the largest length byte that passes. -/
theorem witness_LedcpollFinishesDispatchesAndRearms :
    received.inv = true ∧ (0 : Byte).toNat < received.cfg.nRxBuf ∧ (64 : Byte).toNat ≤ received.cfg.rxCap
      ∧ received.rx.st = .complete ∧ (Memory.read (received.rxb.getD received.rx.buf []) 1).toNat ≠ 0
      ∧ (Memory.read (received.rxb.getD received.rx.buf []) 1).toNat + 2 ≤ received.cfg.rxCap
      ∧ (withRxSlot .complete 3 3 [9, 62, 6]).inv = true ∧ (62 : Byte).toNat + 2 ≤ logging.rxCap := by decide +kernel
/-- Its clauses on the later steps: each of them held, on an empty slot, one in flight and a complete one; operands out of range, which
the invariant excludes; the step of another agent while a LEDCPOLL is in progress, and one that breaks `P_LT_EXCL`. -/
theorem witness_LedcpollFinishesDispatchesAndRearms_steps :
    let held (p : Pending) (s : State) : State := { s with mainOp := some p }
    (held (.pollFinish 0 3) State.reset).topOp = some (.pollFinish 0 3) ∧ State.reset.rx.st = .empty
      ∧ receiving.rx.st = .inFlight ∧ received.rx.st = .complete
      ∧ (held (.pollParse 0 0 3) (withRxSlot .empty 3 3 [9, 62, 6])).inv = true
      ∧ (held (.pollRearm 0 64) State.reset).topOp = some (.pollRearm 0 64) ∧ received.cfg.nRxBuf ≤ (1 : Byte).toNat
      ∧ received.cfg.rxCap < (65 : Byte).toNat ∧ (64 : Byte).toNat ≤ received.cfg.rxCap
      ∧ (let s := withNext { held (.pollFinish 0 3) received with rxLine := [7] } [.dmaRx]
         (s.pendings.any Pending.isPoll, s.ltExcl, s.resumesNext, s.resetNext) = (true, true, none, false)
           ∧ got (fun t => (t.rx, t.lost)) (step s) = some (received.rx, 1))
      ∧ (withNext { held (.pollFinish 0 3) received with tx := ⟨.complete, 3, 3⟩ } [.take .txIrq]).ltExcl = false := by
  decide +kernel
/-- A buffer armed again, length byte 0, and 63 on a buffer of 64, with the check and without. -/
theorem witness_LedcpollParseFaultEndsIt :
    ({ withRxSlot .empty 3 3 [9, 0, 6] with mainOp := some (.pollParse 0 0 3) } : State).inv = true
      ∧ ({ withRxSlot .empty 3 3 [9, 63, 6] with mainOp := some (.pollParse 0 0 3) } : State).inv = true
      ∧ ({ receiving with mainOp := some (.pollParse 0 0 3) } : State).inv = true ∧ receiving.rx.buf = 0
      ∧ ({ withRxSlot .empty 3 3 [9, 63, 6] with
            cfg := { logging with parseBoundsCheck := false }, mainOp := some (.pollParse 0 0 3) } : State).inv = true
      ∧ logging.parseBoundsCheck = true ∧ logging.rxCap < (63 : Byte).toNat + 2 := by decide +kernel
theorem witness_OutgoingFramesAreSent :
    State.reset.inv = true ∧ sending.inv = true ∧ sending.tx.st ≠ .empty
      ∧ State.reset.cfg.maxPay < (List.replicate 62 (0 : Byte)).length
      ∧ (List.replicate 61 (0 : Byte)).length ≤ State.reset.cfg.maxPay := by decide +kernel

theorem witness_FaultingInstructionChangesNothingElse :
    (∃ t, exec .poll State.reset = .next t ∧ Answers.of t.answers State.reset.top = some (.fault .noTransfer))
      ∧ ∃ t, resumePending (.pollRearm 0 3) receiving = .next t ∧ Answers.of t.answers receiving.top = some (.fault .receiveBusy) :=
  ⟨⟨_, rfl, rfl⟩, next_of_got (by decide +kernel)⟩
/-- A send, a receive and an advance that would block; TOGGLE too. -/
theorem witness_WouldBlockOnlyWhereTheRuleSays :
    (∃ t, exec (.settheme 3) sending = .next t ∧ Answers.of t.answers sending.top = some .wouldBlock)
      ∧ (∃ t, exec (.ledcpoll 0 3) receiving = .next t ∧ Answers.of t.answers receiving.top = some .wouldBlock)
      ∧ (∃ t, exec .txadv sending = .next t ∧ Answers.of t.answers sending.top = some .wouldBlock)
      ∧ ∃ t, exec .toggle sending = .next t ∧ Answers.of t.answers sending.top = some .wouldBlock :=
  ⟨next_of_got (by decide +kernel), next_of_got (by decide +kernel), next_of_got (by decide +kernel), next_of_got (by decide +kernel)⟩
theorem witness_PresentingContextDoesNotMatter :
    (∃ t, exec (.dispatch 9 0x87) received = .next t ∧ t.log = [.drop 9 0x87])
      ∧ ∃ t, resumePending (.pollFinish 0 3) received = .next t ∧ t.topOp = some (.pollParse 0 0 3) :=
  ⟨next_of_got (by decide +kernel), next_of_got (by decide +kernel)⟩
/-- Both lines high over `Main`, the transmit handler the higher (rule R283). -/
def bothHigh : State := { received with cfg := { logging with prioTx := 2 }, tx := ⟨.complete, 3, 3⟩ }

/-- A line that is high; a line that is low; a handler already on the stack; a priority that is not greater; two lines high. -/
theorem witness_InterruptIsTakenAsTheRuleSays :
    (withNext received [.take (.rxIrq 0 64)]).cfg.valid = true ∧ received.canTake .rxIrq = true
      ∧ (0 : Byte).toNat < received.cfg.nRxBuf ∧ (64 : Byte).toNat ≤ received.cfg.rxCap
      ∧ (withNext sentAll [.take .txIrq]).cfg.valid = true ∧ sentAll.canTake .txIrq = true
      ∧ receiving.canTake .rxIrq = false
      ∧ ({ received with handlers := [⟨.rxIrq, none⟩] } : State).canTake .rxIrq = false
      ∧ ({ received with tx := ⟨.complete, 3, 3⟩, handlers := [⟨.rxIrq, none⟩] } : State).canTake .txIrq = false
      ∧ bothHigh.canTake .txIrq = true ∧ bothHigh.canTake .rxIrq = false := by
  decide +kernel
/-- Its last clause: `RxIrq` inside a LEDCPOLL, pushed by the step before and after the next. -/
theorem witness_InterruptIsTakenAsTheRuleSays_wired :
    received.handlersWired = true ∧ (withNext received [.take (.rxIrq 0 3)]).wiredAsR282 = true
      ∧ got State.handlersWired (step (withNext received [.take (.rxIrq 0 3), .resume])) = some true
      ∧ got (fun t => (t.handlersWired, t.wiredAsR282, t.handlers.length))
          (andThen (step (withNext received [.take (.rxIrq 0 3), .resume])) step) = some (true, true, 1) := by
  decide +kernel
/-- The last byte of `PAY`, the last bit of `KS`. -/
theorem witness_StagingWritesOneCell :
    (withNext State.reset [.stagePay 60 5]).inv = true ∧ State.reset.topOp = none ∧ 60 < State.reset.cfg.payCap
      ∧ (withNext State.reset [.stageKey 69 true]).inv = true ∧ 69 < State.reset.cfg.nKeys := by decide +kernel
theorem witness_UnownedAccessIsRefused :
    (withNext sending [.directAccess .txb]).cfg.valid = true ∧ sending.tx.st = .inFlight
      ∧ (withNext receiving [.directAccess (.rxb 0)]).cfg.valid = true ∧ receiving.rx.st = .inFlight ∧ receiving.rx.buf = 0 := by
  decide +kernel

theorem witness_EveryStepKeepsTheInvariant :
    sending.inv = true ∧ ∃ t, step (withNext sending [.dmaTx]) = .next t ∧ t.tx = ⟨.inFlight, 3, 2⟩ :=
  ⟨by decide, next_of_got (by decide +kernel)⟩
theorem witness_NoStepReachesOutsideASpace :
    (withNext receiving [.dmaRx]).inv = true ∧ (withNext receiving [.dmaRx]).stagesOutside = false
      ∧ (withNext State.reset [.stagePay 60 5]).stagesOutside = false
      ∧ (withNext State.reset [.stagePay 61 5]).stagesOutside = true := by decide +kernel
/-- Two steps: the last two bytes of the frame in the slot. -/
theorem witness_LineCarriesTheAcceptedFrames :
    (withNext sending [.dmaTx, .dmaTx]).inv = true ∧ (withNext sending [.dmaTx, .dmaTx]).noReset = true
      ∧ got (fun t => t.txLine) (Host.Core.run Sys2Proof.core 2 (withNext sending [.dmaTx, .dmaTx])) = some [1, 1] := by
  decide +kernel
/-- A register whose plain bits are not 0, at the write step of a SETTX. -/
theorem witness_PlainBitsNeverChange :
    ∃ t, step (withNext { withReg 0x9A4F with mainOp := some (.statusWrite .tx 0 1 .keep 0x9A4F) } [.resume]) = .next t
      ∧ ((withNext { withReg 0x9A4F with mainOp := some (.statusWrite .tx 0 1 .keep 0x9A4F) } [.resume]).inv, t.eprAt 0)
          = (true, 0x9A5F) := next_of_got (by decide +kernel)
theorem witness_ReadOnlyBitsBelongToUsbHw :
    ∃ t, step (withNext { withReg 0x9A4F with mainOp := some (.clearWrite .rx 0 0x924F) } [.resume]) = .next t
      ∧ t.eprAt 0 = 0x1A4F := next_of_got (by decide +kernel)
/-- A flag that falls; a flag that rises. -/
theorem witness_FlagsMoveOnlyAsTheRuleSays :
    (∃ t, step (withNext { withReg 0x8000 with mainOp := some (.clearWrite .rx 0 0x8000) } [.resume]) = .next t
        ∧ (flagOf Config.ref 0x8000 .rx, flagOf Config.ref (t.eprAt 0) .rx) = (true, false))
      ∧ ∃ t, step (withNext State.reset [.usbHw 0 (.setFlag .tx)]) = .next t
          ∧ (flagOf Config.ref 0 .tx, flagOf Config.ref (t.eprAt 0) .tx) = (false, true) :=
  ⟨next_of_got (by decide +kernel), next_of_got (by decide +kernel)⟩
theorem witness_LedStateChangesOnlyByToggle :
    ∃ t, step (withNext State.reset [.present (.command 0x20000000)]) = .next t ∧ (t.ledState, State.reset.ledState) = (true, false) :=
  next_of_got (by decide +kernel)
/-- Armed; completed; emptied, alone and in a LEDCPOLL. -/
theorem witness_ReceiveTransferLifecycle :
    (∃ t, step (withNext State.reset [.present (.command 0x11000003)]) = .next t ∧ t.rx.st = .inFlight)
      ∧ (∃ t, step (withNext { receiving with rxLine := [0x81] } [.dmaRx]) = .next t ∧ t.rx.st = .complete)
      ∧ (∃ t, step (withNext received [.present (.command 0x13000000)]) = .next t ∧ t.rx.st = .empty)
      ∧ ∃ t, step (withNext { received with mainOp := some (.pollFinish 0 3) } [.resume]) = .next t ∧ t.rx.st = .empty :=
  ⟨next_of_got (by decide +kernel), next_of_got (by decide +kernel), next_of_got (by decide +kernel),
    next_of_got (by decide +kernel)⟩
theorem witness_TransmitTransferLifecycle :
    (∃ t, step (withNext State.reset [.present (.command 0x21000000)]) = .next t ∧ t.tx.st = .inFlight)
      ∧ (∃ t, step (withNext (withTxSlot .inFlight 3 2 [9, 1, 1]) [.dmaTx]) = .next t ∧ t.tx.st = .complete)
      ∧ ∃ t, step (withNext sentAll [.present (.command 0x14000000)]) = .next t ∧ t.tx.st = .empty :=
  ⟨next_of_got (by decide +kernel), next_of_got (by decide +kernel), next_of_got (by decide +kernel)⟩
/-- A slot in use; a receive buffer that changes. -/
theorem witness_BuffersAreLeftToTheirOwner :
    (∃ t, step (withNext sending [.present (.command 0x20000000)]) = .next t ∧ sending.tx.st ≠ .empty)
      ∧ ∃ t, step (withNext { receiving with rxLine := [0x81] } [.dmaRx]) = .next t
          ∧ (decide (t.rxb = receiving.rxb)) = false :=
  ⟨let ⟨t, h, _⟩ := next_of_got (f := fun _ => ()) (v := ()) (by decide +kernel); ⟨t, h, by decide +kernel⟩,
    next_of_got (by decide +kernel)⟩
theorem witness_TracesOnlyGrow :
    ∃ t, step (withNext State.reset [.present (.command 0x12000000)]) = .next t ∧ t.faults = [.noTransfer] :=
  next_of_got (by decide +kernel)
/-- A reset with content in every unspecified place, from a state that is not the reset state. -/
theorem witness_ResetEventGivesTheTable :
    ∃ t, step (withNext sending [.reset ⟨[0x3220], [7], [[8]], [9], [true], true⟩]) = .next t
      ∧ (sending.cfg.valid, t.eprAt 0, Memory.read t.txb 0, t.tx.st) = (true, 0x3220, 7, .empty) :=
  next_of_got (by decide +kernel)

end Sys2Proof.Tests
end

section
/-! Proofs of the scope statements: parameters refused and the machine at rest (rules R9, R312), and the traces that only grow
(rules R46, R310). -/
namespace Sys2Proof.Machine

/-! ## The step before any input is taken -/

/-- A parameter record outside rule R9 has no step. -/
theorem step_of_not_valid {s : State} (hv : s.cfg.valid = false) : step s = .refused .badParameters := by
  simp [step, runNext, hv]

/-- A run out of inputs rests in its state. -/
theorem step_of_no_input {s : State} (hv : s.cfg.valid = true) (hi : s.inputs = []) : step s = .next s := by
  simp [step, runNext, hv, hi]

/-- Settles O6: the two cases of `runNext` that take no input. -/
theorem stepRefusesBadParametersAndRests : Obligations.StepRefusesBadParametersAndRests :=
  fun s => ⟨step_of_not_valid, fun hv hi => ⟨s, step_of_no_input hv hi, rfl⟩⟩

/-! ## The order in which traces grow -/

/-- `t` runs under the parameters of `s`, and each of the four traces of `t` continues that of `s`. -/
structure TracesExtend (s t : State) : Prop where
  cfg : t.cfg = s.cfg
  faults : ∀ f ∈ s.faults, f ∈ t.faults
  lost : s.lost ≤ t.lost
  log : s.log <+: t.log
  txLine : s.txLine <+: t.txLine

namespace TracesExtend

/-- An update that touches none of the five fields: `h` is `rfl` for each named update of the state. -/
theorem of_eq {s t : State}
    (h : (t.cfg, t.faults, t.lost, t.log, t.txLine) = (s.cfg, s.faults, s.lost, s.log, s.txLine)) : TracesExtend s t := by
  simp only [Prod.mk.injEq] at h
  obtain ⟨hc, hf, hn, hl, hx⟩ := h
  exact ⟨hc, fun f hm => hf ▸ hm, hn.ge, hl ▸ List.prefix_rfl, hx ▸ List.prefix_rfl⟩

theorem refl (s : State) : TracesExtend s s := of_eq rfl

theorem trans {s t u : State} (h : TracesExtend s t) (h' : TracesExtend t u) : TracesExtend s u where
  cfg := h'.cfg.trans h.cfg
  faults f hf := h'.faults f (h.faults f hf)
  lost := h.lost.trans h'.lost
  log := h.log.trans h'.log
  txLine := h.txLine.trans h'.txLine

/-! ## The updates that add to a trace -/

theorem addFault (s : State) (f : FaultRecord) : TracesExtend s (s.addFault f) :=
  { refl s with faults := fun g hg => (State.mem_addFault s f g).2 (.inr hg) }

theorem emitLog (s : State) (ev : LogEvent) : TracesExtend s (s.emitLog ev) :=
  { refl s with log := List.prefix_append _ _ }

theorem emitLine (s : State) (b : Byte) : TracesExtend s (s.emitLine b) :=
  { refl s with txLine := List.prefix_append _ _ }

theorem countLost (s : State) : TracesExtend s s.countLost :=
  { refl s with lost := Nat.le_succ _ }

/-- DISPATCH appends at most one event to `LOG`, in either class (rules R213 to R215). -/
theorem dispatchPair (t o : Byte) (s : State) : TracesExtend s (dispatchPair t o s) := by
  cases ha : isAckPair s.cfg t o with
  | false => rw [dispatchPair_drop ha]; exact emitLog s _
  | true =>
    rw [dispatchPair_ack ha, logAck]
    split
    · exact emitLog s _
    · exact refl s
    · split
      · exact (emitLog s _).trans (of_eq rfl)
      · exact of_eq rfl

/-! ## The end and the pause of an operation -/

/-- Neither giving a result nor popping a context touches a trace. -/
theorem finish {s t : State} (h : TracesExtend s t) (r : Result) : TracesExtend s (t.finish r) := h.trans (of_eq rfl)

theorem suspend {s t : State} (h : TracesExtend s t) (p : Pending) : TracesExtend s (t.suspend p) := h.trans (of_eq rfl)

/-! ## Everything a step can do -/

/-- An instruction that ends in its first step adds to FAULT when it faults and to LOG when it dispatches. -/
theorem of_ends {i : Instr} {s s' : State} {r : Result} (h : Ends i s r s') : TracesExtend s s' := by
  cases h with
  | faulted f => exact addFault s f
  | dispatched t o => exact dispatchPair t o s
  | _ => exact of_eq rfl

/-- So does a later step: FAULT when a LEDCPOLL faults, LOG at its dispatch. -/
theorem of_resumes {p : Pending} {s t : State} (h : Resumes p s t) : TracesExtend s t := by
  cases h with
  | faulted f => exact (addFault s f).finish _
  | dispatched j k len t o => exact (dispatchPair t o s).suspend _
  | _ => exact of_eq rfl

/-- Every input but the reset event extends the traces (rule R310). -/
theorem of_takes {i : Input} {s t : State} (h : Takes i s t) :
    TracesExtend s t ∨ ∃ p, i = .reset p ∧ t = State.powerUp s.cfg p s.inputs s.freeTick := by
  cases h with
  | reset p hi => exact .inr ⟨p, hi, rfl⟩
  | illegal cw => exact .inl ((addFault s _).finish _)
  | ends enc ins r s' _ _ _ h => exact .inl ((of_ends h).finish r)
  | resumes p t _ _ h => exact .inl (of_resumes h)
  | entryFaulted k len f =>
    have hpush : TracesExtend s (s.pushHandler .rxIrq) := of_eq rfl
    exact .inl ((hpush.trans (addFault _ f)).finish _)
  | emitted => exact .inl ((emitLine s _).trans (of_eq rfl))
  | dropped b rest =>
    have hline : TracesExtend s (s.withRxLine rest) := of_eq rfl
    exact .inl (hline.trans (countLost _))
  | _ => exact .inl (of_eq rfl)

end TracesExtend

/-- A step extends the traces, or it is the reset event, which keeps the parameters. -/
theorem tracesExtend_of_step {s t : State} (h : step s = .next t) :
    TracesExtend s t ∨ (s.resetNext = true ∧ t.cfg = s.cfg) := by
  obtain ⟨-, ⟨-, rfl⟩ | ⟨i, rest, hi, ht⟩⟩ := step_cases h
  · exact .inl (.refl _)
  · obtain hx | ⟨p, rfl, rfl⟩ := TracesExtend.of_takes ht
    · have htake : TracesExtend s (s.withInputs rest) := .of_eq rfl
      exact .inl (htake.trans hx)
    · exact .inr ⟨by simp [State.resetNext, hi], rfl⟩

/-- Settles O58, by cases on what a step can do: each extends the traces, or is the reset event. -/
theorem tracesOnlyGrow : Obligations.TracesOnlyGrow := by
  intro s t h
  obtain hx | ⟨hr, hc⟩ := tracesExtend_of_step h
  · exact ⟨hx.cfg, fun _ => ⟨hx.faults, hx.lost, hx.log, hx.txLine⟩⟩
  · exact ⟨hc, fun hn => by simp [hr] at hn⟩

end Sys2Proof.Machine
end

section
/-! Laws of the register file for the rules over whole steps: a register after a write, and what the agents that write registers leave under
each mask (rules R26, R28, R150, R331). -/
namespace Sys2Proof.Machine

/-! ## A register after a write, and its plain bits -/

/-- `EPR[a]` after a write to `EPR[e]`, a register that exists (rule R66). -/
theorem State.eprAt_withEpr {s : State} {e : Nat} (he : e < s.epr.length) (v : Reg) (a : Nat) :
    (s.withEpr e v).eprAt a = if a = e then v else s.eprAt a := by
  by_cases ha : a = e
  · subst ha; simp [State.eprAt, he]
  · simp [State.eprAt, ha, List.getElem?_set_ne (Ne.symm ha)]

/-- A write of the Endpoint Status Controller leaves the plain bits that its operation read (rule R331 item 4). -/
theorem hwWrite_statusWrite_and_rw {c : Config} (h : c.masksOk = true) {old r : Reg} (hr : r &&& c.mRw = old &&& c.mRw) (dir : Dir)
    (target : StatusCode) (d : DtogOp) : hwWrite c old (statusWrite c r dir target d) &&& c.mRw = old &&& c.mRw := by
  rw [hwWrite_and_rw h, statusWrite_and_rw h, hr]

theorem hwWrite_clearWrite_and_rw {c : Config} (h : c.masksOk = true) {old r : Reg} (hr : r &&& c.mRw = old &&& c.mRw) (dir : Dir) :
    hwWrite c old (clearWrite c r dir) &&& c.mRw = old &&& c.mRw := by
  rw [hwWrite_and_rw h, clearWrite_and_rw h, hr]

/-- Bits added under one mask are not seen under a disjoint one. -/
theorem or_and_disjoint {r k m : Reg} (h : k &&& m = 0) : (r ||| k) &&& m = r &&& m := by
  simp [or_and_distrib, h]

/-- A bit of one mask flipped is not seen under a disjoint one. -/
theorem xor_bit_and_disjoint {r k m : Reg} {bit : Nat} (h : k &&& m = 0) (hb : k.getLsbD bit = true) :
    (r ^^^ (1 : Reg) <<< bit) &&& m = r &&& m := by
  have hbit : bit < 16 := BitVec.lt_of_getLsbD hb
  have hm : m.getLsbD bit = false := by simpa [hb] using bit_and_eq_false h bit
  apply BitVec.eq_of_getLsbD_eq; intro i _
  rw [BitVec.getLsbD_and, BitVec.getLsbD_and, BitVec.getLsbD_xor, getLsbD_oneBit hbit]
  by_cases hi : i = bit
  · simp [hi, hm]
  · simp [hi]

/-- Under a mask apart from those of rule R150's case 2, agent `UsbHw` can only set a completion flag. -/
theorem usbEffect_and_disjoint {c : Config} {r r' m : Reg} {act : UsbAction} (hs : ∀ d, statMask c d &&& m = 0)
    (hd : ∀ d, dtogMask c d &&& m = 0) (hro : c.mRo &&& m = 0) (h : usbEffect c r act = some r') :
    (∃ dir, r' = r ||| ctrMask c dir) ∨ r' &&& m = r &&& m := by
  cases act with
  | setFlag dir => cases h; exact .inl ⟨dir, rfl⟩
  | setStatus dir v =>
    simp only [usbEffect, Option.ite_none_right_eq_some, Option.some.injEq] at h
    obtain ⟨-, rfl⟩ := h
    exact .inr (replaceUnder_and_disjoint (hs dir))
  | setDtog dir v =>
    simp only [usbEffect, Option.ite_none_right_eq_some, Option.some.injEq] at h
    obtain ⟨-, rfl⟩ := h
    exact .inr (replaceUnder_and_disjoint (hd dir))
  | flipReadOnly bit =>
    simp only [usbEffect, Option.ite_none_right_eq_some, Bool.and_eq_true, Option.some.injEq] at h
    obtain ⟨⟨-, hb⟩, rfl⟩ := h
    exact .inr (xor_bit_and_disjoint hro hb)

/-- Agent `UsbHw` leaves the plain bits (rule R150). -/
theorem usbEffect_and_rw {c : Config} (h : c.masksOk = true) {r r' : Reg} {act : UsbAction} (hr : usbEffect c r act = some r') :
    r' &&& c.mRw = r &&& c.mRw := by
  obtain ⟨-, -, -, -, -, -, -, hs, hd, hf, -, -, hro⟩ := masks_disjoint h
  obtain ⟨dir, rfl⟩ | hm := usbEffect_and_disjoint hs hd hro hr
  · exact or_and_disjoint (hf dir)
  · exact hm

/-! ## The completion flags (rule R26) -/

/-- SETTX and SETRX write 1 to both flags, which keeps them (rule R131). -/
theorem hwWrite_statusWrite_and_ctr {c : Config} (h : c.masksOk = true) (old r : Reg) (dir : Dir) (target : StatusCode) (d : DtogOp)
    (x : Dir) : hwWrite c old (statusWrite c r dir target d) &&& ctrMask c x = old &&& ctrMask c x := by
  rw [hwWrite_and_ctr h, BitVec.and_assoc, statusWrite_and_ctr]

/-- CLRTX and CLRRX clear the flag of their direction (rule R139). -/
theorem hwWrite_clearWrite_and_ctr {c : Config} (h : c.masksOk = true) (old r : Reg) (dir : Dir) :
    hwWrite c old (clearWrite c r dir) &&& ctrMask c dir = 0 := by
  rw [hwWrite_and_ctr h, BitVec.and_assoc, clearWrite_and_ctr h]; simp

theorem hwWrite_clearWrite_and_ctr_other {c : Config} (h : c.masksOk = true) (old r : Reg) (dir : Dir) :
    hwWrite c old (clearWrite c r dir) &&& ctrMask c (otherDir dir) = old &&& ctrMask c (otherDir dir) := by
  rw [hwWrite_and_ctr h, BitVec.and_assoc, clearWrite_and_ctr_other]

theorem eq_or_eq_otherDir (x dir : Dir) : x = dir ∨ x = otherDir dir := by cases x <;> cases dir <;> simp [otherDir]

/-- Bits added to a register lower no flag. -/
theorem flagOf_or {c : Config} {r : Reg} {dir : Dir} (k : Reg) (h : flagOf c r dir = true) : flagOf c (r ||| k) dir = true := by
  simp only [flagOf, bne_iff_ne, ne_eq, or_and_distrib] at h ⊢
  exact fun h0 => h (BitVec.or_eq_zero_iff.1 h0).1

/-- Agent `UsbHw` lowers no flag (rule R150). -/
theorem flagOf_usbEffect {c : Config} (h : c.masksOk = true) {r r' : Reg} {act : UsbAction} (hr : usbEffect c r act = some r')
    {dir : Dir} (hf : flagOf c r dir = true) : flagOf c r' dir = true := by
  obtain ⟨hs, hd, -, -, -, -, -, -, -, -, -, hro, -⟩ := masks_disjoint h
  obtain ⟨x, rfl⟩ | hm := usbEffect_and_disjoint (fun d => hs d dir) (fun d => hd d dir) (hro dir) hr
  · exact flagOf_or _ hf
  · rw [flagOf_congr hm, hf]

end Sys2Proof.Machine
end

section
/-! Proof that every step keeps the invariant (rules R34, R35, R74, R281, R331): one preservation lemma per named update of the state, put
together by the inversion lemmas of a step. -/
namespace Sys2Proof.Machine

/-! ## The parts of the invariant, spelled out -/

theorem State.stackOk_iff {s : State} :
    s.stackOk = true ↔ (s.handlers.map Active.handler).Nodup
      ∧ s.handlers.Pairwise fun x y => priorityOf s.cfg y.handler < priorityOf s.cfg x.handler := by
  simp [State.stackOk]

theorem State.answersOk_iff {s : State} :
    s.answersOk = true ↔ (s.mainOp = none ∨ Answers.of s.answers .main = none)
      ∧ ∀ a ∈ s.handlers, a.op = none ∨ Answers.of s.answers (contextOf a.handler) = none := by
  simp [State.answersOk]

/-- An operation in progress is the one of `Main` or one that a handler holds. -/
theorem State.mem_pendings {s : State} {p : Pending} : p ∈ s.pendings ↔ s.mainOp = some p ∨ ∃ a ∈ s.handlers, a.op = some p := by
  simp [State.pendings]

theorem inv_pendings {s : State} (h : s.inv = true) {p : Pending} (hp : p ∈ s.pendings) : s.pendingOk p = true := by
  obtain ⟨-, -, -, -, -, hall, -, -⟩ := State.inv_iff.1 h
  exact List.all_eq_true.1 hall p hp

theorem State.topOp_mem_pendings {s : State} {p : Pending} (h : s.topOp = some p) : p ∈ s.pendings := by
  rw [State.mem_pendings]
  cases hs : s.handlers with
  | nil => exact .inl (by simpa [State.topOp, hs] using h)
  | cons a l => exact .inr ⟨a, by simp, by simpa [State.topOp, hs] using h⟩

/-- What an EPSC operation holds: an endpoint that exists and the plain bits of its register. -/
theorem State.pendingOk_statusWrite {s : State} {dir : Dir} {e : Byte} {target : StatusCode} {d : DtogOp} {r : Reg} :
    s.pendingOk (.statusWrite dir e target d r) = true
      ↔ endpointOk s.cfg e = true ∧ r &&& s.cfg.mRw = s.eprAt e.toNat &&& s.cfg.mRw := by
  simp [State.pendingOk]

theorem State.pendingOk_clearWrite {s : State} {dir : Dir} {e : Byte} {r : Reg} :
    s.pendingOk (.clearWrite dir e r) = true
      ↔ endpointOk s.cfg e = true ∧ r &&& s.cfg.mRw = s.eprAt e.toNat &&& s.cfg.mRw := by
  simp [State.pendingOk]

/-- Whether what an operation holds is in range depends on the parameters and the plain bits of the registers alone. -/
theorem State.pendingOk_congr {s t : State} (hc : t.cfg = s.cfg) (hr : ∀ e, t.eprAt e &&& s.cfg.mRw = s.eprAt e &&& s.cfg.mRw)
    (p : Pending) : t.pendingOk p = s.pendingOk p := by
  cases p <;> simp only [State.pendingOk, hc, hr]

/-! ## The stack of contexts -/

theorem contextOf_ne_main (h : Handler) : contextOf h ≠ .main := by cases h <;> decide

theorem contextOf_injective : Function.Injective contextOf := by intro x y; cases x <;> cases y <;> simp [contextOf]

/-- The top context's result is that of no context below it. -/
theorem State.below_ne_top {s : State} (h : s.stackOk = true) : ∀ a ∈ s.handlers.tail, contextOf a.handler ≠ s.top := by
  obtain ⟨hn, -⟩ := State.stackOk_iff.1 h
  intro a ha
  cases hs : s.handlers with
  | nil => simp [hs] at ha
  | cons b l =>
    rw [hs, List.map_cons, List.nodup_cons] at hn
    rw [hs] at ha
    simp only [State.top, hs]
    exact fun he => hn.1 (contextOf_injective he ▸ List.mem_map_of_mem ha)

/-- A priority above that of the top context is above that of every context on the stack (rule R281). -/
theorem State.outranks_all {s : State} {x : Handler} (h : s.stackOk = true) (ho : s.outranksTop x = true) :
    ∀ a ∈ s.handlers, priorityOf s.cfg a.handler < priorityOf s.cfg x := by
  obtain ⟨-, hp⟩ := State.stackOk_iff.1 h
  intro a ha
  cases hs : s.handlers with
  | nil => simp [hs] at ha
  | cons b l =>
    rw [hs, List.pairwise_cons] at hp
    simp only [State.outranksTop, hs, decide_eq_true_eq] at ho
    rw [hs] at ha
    obtain rfl | ha := List.mem_cons.1 ha
    · exact ho
    · exact Nat.lt_trans (hp.1 a ha) ho

/-! ## The end of an operation (rules R90, R281, R284) -/

theorem State.stackOk_finish {s : State} (h : s.stackOk = true) (r : Result) : (s.finish r).stackOk = true := by
  obtain ⟨hnames, hprio⟩ := State.stackOk_iff.1 h
  exact State.stackOk_iff.2 ⟨by rw [State.finish_handlers, List.map_tail]; exact hnames.tail, hprio.tail⟩

/-- An operation's end begins no other. -/
theorem State.mem_pendings_of_finish {s : State} {r : Result} {p : Pending} (h : p ∈ (s.finish r).pendings) : p ∈ s.pendings := by
  rw [State.mem_pendings] at h ⊢
  obtain hm | ⟨a, ha, ho⟩ := h
  · rw [State.finish_mainOp] at hm
    split at hm
    · cases hm
    · exact .inl hm
  · exact .inr ⟨a, List.mem_of_mem_tail ha, ho⟩

/-- The result given is the top context's, and no context below has that name. -/
theorem State.answersOk_finish {s : State} (hk : s.stackOk = true) (h : s.answersOk = true) (r : Result) :
    (s.finish r).answersOk = true := by
  obtain ⟨hmain, hheld⟩ := State.answersOk_iff.1 h
  refine State.answersOk_iff.2 ⟨?_, fun a ha => ?_⟩
  · cases hs : s.handlers with
    | nil => exact .inl (by simp [hs])
    | cons b l =>
      have hne : Context.main ≠ s.top := by simpa [State.top, hs] using (contextOf_ne_main b.handler).symm
      simpa [hs, Answers.of_put_other s.answers (some r) hne] using hmain
  · rw [State.finish_answers, Answers.of_put_other s.answers (some r) (State.below_ne_top hk a ha)]
    exact hheld a (List.mem_of_mem_tail ha)

/-- An operation's end leaves every other operation in progress as it was. -/
theorem inv_finish {s : State} (h : s.inv = true) (r : Result) : (s.finish r).inv = true := by
  obtain ⟨hv, hst, htx, hrx, hk, hp, ha, hf⟩ := State.inv_iff.1 h
  have hpend : (s.finish r).pendings.all s.pendingOk = true :=
    List.all_eq_true.2 fun p hm => List.all_eq_true.1 hp p (State.mem_pendings_of_finish hm)
  exact State.inv_iff.2 ⟨hv, hst, htx, hrx, State.stackOk_finish hk r, hpend, State.answersOk_finish hk ha r, hf⟩

/-! ## The pause of an operation (rules R12, R90) -/

theorem State.suspend_handlers_of_nil {s : State} (p : Pending) (hs : s.handlers = []) : (s.suspend p).handlers = [] := by
  simp [State.suspend, hs]

theorem State.suspend_handlers_of_cons {s : State} {a : Active} {l : List Active} (p : Pending) (hs : s.handlers = a :: l) :
    (s.suspend p).handlers = { a with op := some p } :: l := by
  simp [State.suspend, hs]

theorem State.stackOk_suspend {s : State} (h : s.stackOk = true) (p : Pending) : (s.suspend p).stackOk = true := by
  obtain ⟨hnames, hprio⟩ := State.stackOk_iff.1 h
  refine State.stackOk_iff.2 ⟨by rw [State.suspend_handlers_names]; exact hnames, ?_⟩
  cases hs : s.handlers with
  | nil => simp [State.suspend_handlers_of_nil p hs]
  | cons a l =>
    rw [hs, List.pairwise_cons] at hprio
    rw [State.suspend_handlers_of_cons p hs]
    exact List.pairwise_cons.2 hprio

/-- A pause adds what the operation holds, and nothing else. -/
theorem State.mem_pendings_of_suspend {s : State} {p q : Pending} (h : q ∈ (s.suspend p).pendings) : q = p ∨ q ∈ s.pendings := by
  rw [State.mem_pendings] at h ⊢
  cases hs : s.handlers with
  | nil => simp_all [State.suspend_handlers_of_nil p hs]
  | cons a l =>
    rw [State.suspend_handlers_of_cons p hs, State.suspend_mainOp, hs] at h
    simp only [reduceCtorEq, if_false, List.mem_cons, exists_eq_or_imp, Option.some.injEq] at h ⊢
    tauto

/-- The top context has no result any more; those below keep theirs. -/
theorem State.answersOk_suspend {s : State} (hk : s.stackOk = true) (h : s.answersOk = true) (p : Pending) :
    (s.suspend p).answersOk = true := by
  obtain ⟨hmain, hheld⟩ := State.answersOk_iff.1 h
  have hbelow := State.below_ne_top hk
  rw [State.answersOk_iff, State.suspend_answers]
  cases hs : s.handlers with
  | nil =>
    have htop : s.top = .main := by simp [State.top, hs]
    simp [State.suspend_handlers_of_nil p hs, htop, Answers.of_put]
  | cons a l =>
    have htop : s.top = contextOf a.handler := by simp [State.top, hs]
    rw [State.suspend_handlers_of_cons p hs, State.suspend_mainOp, hs, htop]
    rw [hs, htop] at hbelow
    rw [hs] at hheld
    refine ⟨?_, fun b hb => ?_⟩
    · rw [Answers.of_put_other s.answers none (contextOf_ne_main a.handler).symm]
      simpa using hmain
    · obtain rfl | hb := List.mem_cons.1 hb
      · exact .inr (Answers.of_put ..)
      · rw [Answers.of_put_other s.answers none (hbelow b hb)]
        exact hheld b (List.mem_cons_of_mem a hb)

/-- A pausing operation must hold what is in range. -/
theorem inv_suspend {s : State} (h : s.inv = true) {p : Pending} (hok : s.pendingOk p = true) : (s.suspend p).inv = true := by
  obtain ⟨hv, hst, htx, hrx, hk, hp, ha, hf⟩ := State.inv_iff.1 h
  have hpend : (s.suspend p).pendings.all s.pendingOk = true := by
    refine List.all_eq_true.2 fun q hm => ?_
    obtain rfl | hm := State.mem_pendings_of_suspend hm
    · exact hok
    · exact List.all_eq_true.1 hp q hm
  exact State.inv_iff.2 ⟨hv, hst, htx, hrx, State.stackOk_suspend hk p, hpend, State.answersOk_suspend hk ha p, hf⟩

/-! ## The entry of a handler (rules R281, R283) -/

/-- A handler that may be taken is not on the stack and outranks its top (rules R281, R283). -/
theorem State.pushable_of_canTake {s : State} {x : Handler} (h : s.canTake x = true) :
    (∀ a ∈ s.handlers, a.handler ≠ x) ∧ s.outranksTop x = true := by
  simp only [State.canTake, Bool.and_eq_true, Bool.not_eq_true', List.any_eq_false, decide_eq_true_eq] at h
  exact ⟨h.1.1.2, h.1.2⟩

/-- A handler taken keeps the order of the stack, holding nothing yet (rule R281). -/
theorem inv_pushHandler {s : State} (h : s.inv = true) {x : Handler} (hc : s.canTake x = true) : (s.pushHandler x).inv = true := by
  obtain ⟨hv, hst, htx, hrx, hk, hp, ha, hf⟩ := State.inv_iff.1 h
  obtain ⟨hnames, hprio⟩ := State.stackOk_iff.1 hk
  obtain ⟨hmain, hheld⟩ := State.answersOk_iff.1 ha
  obtain ⟨hnew, hout⟩ := State.pushable_of_canTake hc
  have hstack : (s.pushHandler x).stackOk = true := by
    refine State.stackOk_iff.2 ⟨?_, List.pairwise_cons.2 ⟨State.outranks_all hk hout, hprio⟩⟩
    rw [State.pushHandler_handlers, List.map_cons, List.nodup_cons]
    exact ⟨by simpa using hnew, hnames⟩
  have hans : (s.pushHandler x).answersOk = true :=
    State.answersOk_iff.2 ⟨hmain, fun a ha => (List.mem_cons.1 ha).elim (fun he => .inl (he ▸ rfl)) (hheld a)⟩
  exact State.inv_iff.2 ⟨hv, hst, htx, hrx, hstack, hp, hans, hf⟩

/-! ## Faults and traces -/

theorem inv_addFault {s : State} (h : s.inv = true) (f : FaultRecord) : (s.addFault f).inv = true := by
  obtain ⟨hv, hst, htx, hrx, hk, hp, ha, hf⟩ := State.inv_iff.1 h
  exact State.inv_iff.2 ⟨hv, hst, htx, hrx, hk, hp, ha, State.nodup_addFault s f hf⟩

/-- DISPATCH touches no field of the invariant. -/
theorem inv_dispatchPair {s : State} (h : s.inv = true) (t o : Byte) : (dispatchPair t o s).inv = true := by
  rw [dispatchPair_frame]; exact h

/-! ## Registers -/

/-- A register changed outside its plain bits (rule R331 item 4). -/
theorem inv_withEpr {s : State} (h : s.inv = true) {e : Nat} (he : e < s.epr.length) {v : Reg}
    (hr : v &&& s.cfg.mRw = s.eprAt e &&& s.cfg.mRw) : (s.withEpr e v).inv = true := by
  obtain ⟨hv, hst, htx, hrx, hk, hp, ha, hf⟩ := State.inv_iff.1 h
  have hplain : ∀ a, (s.withEpr e v).eprAt a &&& s.cfg.mRw = s.eprAt a &&& s.cfg.mRw := by
    intro a; rw [State.eprAt_withEpr he]; split
    · rename_i hae; rw [hae, hr]
    · rfl
  have hstore : (s.withEpr e v).storageOk = true := by
    rw [State.storageOk_iff] at hst ⊢
    simpa using hst
  refine State.inv_iff.2 ⟨hv, hstore, htx, hrx, hk, List.all_eq_true.2 fun p hm => ?_, ha, hf⟩
  exact (State.pendingOk_congr (s := s) (t := s.withEpr e v) rfl hplain p).trans (List.all_eq_true.1 hp p hm)

/-! ## The transmit slot and `TXB` -/

theorem inv_withTx {s : State} (h : s.inv = true) {x : TxSlot} (hx : (s.withTx x).txOk = true) : (s.withTx x).inv = true := by
  obtain ⟨hv, hst, -, hrx, hk, hp, ha, hf⟩ := State.inv_iff.1 h
  exact State.inv_iff.2 ⟨hv, hst, hx, hrx, hk, hp, ha, hf⟩

/-- A send released (rule R170). -/
theorem inv_txReleased {s : State} (h : s.inv = true) : (s.withTx { s.tx with st := .empty }).inv = true := inv_withTx h rfl

/-- The slot of a send in flight (rules R32, R34). -/
theorem inv_txInFlight {s : State} (h : s.inv = true) (hs : s.tx.st = .inFlight) :
    s.tx.pos < s.tx.len ∧ s.tx.len ≤ s.cfg.txCap ∧ (Memory.read s.txb 1).toNat + 2 = s.tx.len ∧ 3 ≤ s.tx.len := by
  obtain ⟨-, -, htx, -, -, -, -, -⟩ := State.inv_iff.1 h
  simpa [State.txOk, hs, and_assoc] using htx

/-- One more byte of the frame on the line (rule R175). -/
theorem inv_txAdvanced {s : State} (h : s.inv = true) (hs : s.tx.st = .inFlight) :
    (s.withTx ⟨if s.tx.pos + 1 = s.tx.len then .complete else .inFlight, s.tx.len, s.tx.pos + 1⟩).inv = true := by
  obtain ⟨hpos, hcap, hlen, hmin⟩ := inv_txInFlight h hs
  apply inv_withTx h
  by_cases hlast : s.tx.pos + 1 = s.tx.len
  · simp [State.txOk, hlast, hcap, hlen, hmin]
  · simp [State.txOk, hlast, hcap, hlen, hmin]; omega

/-- A frame accepted (rule R160): it lies in `TXB`, and its length byte counts the opcode and the payload. -/
theorem inv_sent {s : State} (h : s.inv = true) (t o : Byte) {p : List Byte} (hl : p.length ≤ s.cfg.maxPay) :
    (sent t o p s).inv = true := by
  obtain ⟨hv, hst, -, hrx, hk, hp, ha, hf⟩ := State.inv_iff.1 h
  obtain ⟨hepr, hnum, hks, ⟨hwf, hbelow⟩, hrxb, hpay⟩ := State.storageOk_iff.1 hst
  obtain ⟨hfit, hbyte⟩ := fits_of_le_maxPay hv hl
  have hstore : (sent t o p s).storageOk = true :=
    State.storageOk_iff.2 ⟨hepr, hnum, hks,
      ⟨Memory.wf_writeBytes 0 _ hwf, Memory.below_writeBytes 0 _ (by rw [length_encodeFrame, Nat.zero_add]; exact hfit) hbelow⟩, hrxb, hpay⟩
  have hread : (Memory.read (Memory.writeBytes s.txb 0 (encodeFrame t o p)) 1).toNat = 1 + p.length := by
    obtain ⟨-, -, hlen, -⟩ := acceptsFrame_of_written (t := sent t o p s) hwf hbyte rfl rfl rfl
    exact hlen
  have hslot : (sent t o p s).txOk = true := by
    simp [State.txOk, sent, hread, hfit]; omega
  exact State.inv_iff.2 ⟨hv, hstore, hslot, hrx, hk, hp, ha, hf⟩

/-! ## The receive slot and the receive buffers -/

theorem inv_withRx {s : State} (h : s.inv = true) {x : RxSlot} (hx : (s.withRx x).rxOk = true) : (s.withRx x).inv = true := by
  obtain ⟨hv, hst, htx, -, hk, hp, ha, hf⟩ := State.inv_iff.1 h
  exact State.inv_iff.2 ⟨hv, hst, htx, hx, hk, hp, ha, hf⟩

/-- A transfer emptied (rule R168). -/
theorem inv_rxEmptied {s : State} (h : s.inv = true) : (s.withRx { s.rx with st := .empty }).inv = true := inv_withRx h rfl

/-- A transfer armed with operands in range (rule R165). -/
theorem inv_rxArmed {s : State} (h : s.inv = true) {k len : Byte} (hk : bufferOk s.cfg k = true) (hl : lengthOk s.cfg len = true) :
    (s.withRx ⟨.inFlight, k.toNat, len.toNat, 0⟩).inv = true := by
  simp only [bufferOk, lengthOk, Bool.and_eq_true, decide_eq_true_eq] at hk hl
  exact inv_withRx h (by simp [State.rxOk, hk, hl])

/-- The slot of a transfer in flight, and of one complete (rule R35). -/
theorem inv_rxInFlight {s : State} (h : s.inv = true) (hs : s.rx.st = .inFlight) :
    s.rx.cnt < s.rx.len ∧ s.rx.len ≤ s.cfg.rxCap ∧ s.rx.buf < s.cfg.nRxBuf := by
  obtain ⟨-, -, -, hrx, -, -, -, -⟩ := State.inv_iff.1 h
  simpa [State.rxOk, hs, and_assoc] using hrx

theorem inv_rxComplete {s : State} (h : s.inv = true) (hs : s.rx.st = .complete) :
    s.rx.cnt = s.rx.len ∧ 1 ≤ s.rx.len ∧ s.rx.len ≤ s.cfg.rxCap ∧ s.rx.buf < s.cfg.nRxBuf := by
  obtain ⟨-, -, -, hrx, -, -, -, -⟩ := State.inv_iff.1 h
  simpa [State.rxOk, hs, and_assoc] using hrx

/-- One more byte counted (rule R176). -/
theorem inv_rxAdvanced {s : State} (h : s.inv = true) (hs : s.rx.st = .inFlight) :
    (s.withRx ⟨if s.rx.cnt + 1 = s.rx.len then .complete else .inFlight, s.rx.buf, s.rx.len, s.rx.cnt + 1⟩).inv = true := by
  obtain ⟨hcnt, hcap, hbuf⟩ := inv_rxInFlight h hs
  apply inv_withRx h
  by_cases hlast : s.rx.cnt + 1 = s.rx.len
  · simp [State.rxOk, hlast, hcap, hbuf]; omega
  · simp [State.rxOk, hlast, hcap, hbuf]; omega

/-- A byte written in a receive buffer (rule R176). -/
theorem inv_rxbWritten {s : State} (h : s.inv = true) (k : Nat) {a : Nat} (ha : a < s.cfg.rxCap) (b : Byte) :
    (s.withBytes (.rxb k) (Memory.write (s.rxb.getD k []) a b)).inv = true := by
  obtain ⟨hv, hst, htx, hrx, hk, hp, hans, hf⟩ := State.inv_iff.1 h
  obtain ⟨hepr, hnum, hks, htxb, hrxb, hpay⟩ := State.storageOk_iff.1 hst
  have hold : Memory.wf (s.rxb.getD k []) = true ∧ Memory.below (s.rxb.getD k []) s.cfg.rxCap = true := by
    rw [List.getD_eq_getElem?_getD]
    cases hm : s.rxb[k]? with
    | none => exact ⟨rfl, rfl⟩
    | some m => exact hrxb m (List.mem_of_getElem? hm)
  refine State.inv_iff.2 ⟨hv, State.storageOk_iff.2 ⟨hepr, (List.length_set ..).trans hnum, hks, htxb, fun m hm => ?_, hpay⟩,
    htx, hrx, hk, hp, hans, hf⟩
  obtain hm | rfl := List.mem_or_eq_of_mem_set hm
  · exact hrxb m hm
  · exact ⟨Memory.wf_write a b hold.1, Memory.below_write b ha hold.2⟩

/-! ## The staging areas (rule R38) -/

theorem inv_payWritten {s : State} (h : s.inv = true) {off : Nat} (ho : off < s.cfg.payCap) (b : Byte) :
    ({ s with pay := Memory.write s.pay off b } : State).inv = true := by
  obtain ⟨hv, hst, htx, hrx, hk, hp, ha, hf⟩ := State.inv_iff.1 h
  obtain ⟨hepr, hnum, hks, htxb, hrxb, hwf, hbelow⟩ := State.storageOk_iff.1 hst
  exact State.inv_iff.2 ⟨hv, State.storageOk_iff.2 ⟨hepr, hnum, hks, htxb, hrxb, Memory.wf_write off b hwf,
    Memory.below_write b ho hbelow⟩, htx, hrx, hk, hp, ha, hf⟩

theorem inv_keyWritten {s : State} (h : s.inv = true) (n : Nat) (v : Bool) : ({ s with ks := s.ks.set n v } : State).inv = true := by
  obtain ⟨hv, hst, htx, hrx, hk, hp, ha, hf⟩ := State.inv_iff.1 h
  obtain ⟨hepr, hnum, hks, hrest⟩ := State.storageOk_iff.1 hst
  exact State.inv_iff.2 ⟨hv, State.storageOk_iff.2 ⟨hepr, hnum, (List.length_set ..).trans hks, hrest⟩, htx, hrx, hk, hp, ha, hf⟩

/-! ## The reset event -/

/-- The state after a reset meets the invariant, whatever the unspecified places hold (rule R50). -/
theorem inv_powerUp {c : Config} (hv : c.valid = true) (p : PowerUp) (inputs : List Input) (n : Nat) :
    (State.powerUp c p inputs n).inv = true := by
  have hfirst : ∀ (bs : List Byte) (size : Nat),
      Memory.wf (memoryOf (bs.take size)) = true ∧ Memory.below (memoryOf (bs.take size)) size = true :=
    fun bs size => ⟨wf_memoryOf _, below_memoryOf (by simp)⟩
  have hstore : (State.powerUp c p inputs n).storageOk = true := by
    refine State.storageOk_iff.2 ⟨by simp [State.powerUp], by simp [State.powerUp], by simp [State.powerUp], hfirst _ _, ?_, hfirst _ _⟩
    intro m hm
    obtain ⟨k, -, rfl⟩ := List.mem_map.1 hm
    exact hfirst _ _
  exact State.inv_iff.2 ⟨hv, hstore, rfl, rfl, rfl, rfl, rfl, List.nodup_nil⟩

/-! ## Everything a step can do -/

/-- An instruction that ends in its first step leaves the invariant before it is concluded. -/
theorem inv_of_ends {i : Instr} {s s' : State} {r : Result} (hs : s.inv = true) (h : Ends i s r s') : s'.inv = true := by
  cases h with
  | faulted f => exact inv_addFault hs f
  | sentOk t o p _ _ _ hl => exact inv_sent hs t o hl
  | toggleOk t o p _ _ hl => exact inv_sent hs t o hl
  | armed k len _ hk hl => exact inv_rxArmed hs hk hl
  | finished => exact inv_rxEmptied hs
  | released => exact inv_txReleased hs
  | dispatched t o => exact inv_dispatchPair hs t o
  | sendBusy | toggleBusy | pollBusy | advanceBusy | polled | nothingToRelease | parsed => exact hs

/-- What an instruction holds at its first mark is in range (rule R133: the register is read in this step). -/
theorem pendingOk_of_pauses {i : Instr} {s : State} {q : Pending} (h : Pauses i s q) : s.pendingOk q = true := by
  cases h with
  | statusRead _ _ _ _ _ he => exact State.pendingOk_statusWrite.2 ⟨he, rfl⟩
  | flagRead _ _ _ he => exact State.pendingOk_clearWrite.2 ⟨he, rfl⟩
  | pollSeen k len _ hk hl => simp [State.pendingOk, hk, hl]

/-- A later step of an operation that holds what is in range. -/
theorem inv_of_resumes {p : Pending} {s t : State} (hs : s.inv = true) (hp : s.pendingOk p = true) (h : Resumes p s t) :
    t.inv = true := by
  have hmasks := masksOk_of_valid (inv_valid hs)
  cases h with
  | faulted f => exact inv_finish (inv_addFault hs f) _
  | statusWritten dir e target d r hq he =>
    subst hq
    obtain ⟨-, hr⟩ := State.pendingOk_statusWrite.1 hp
    exact inv_finish (inv_withEpr hs he (hwWrite_statusWrite_and_rw hmasks hr dir target d)) _
  | flagCleared dir e r hq he =>
    subst hq
    obtain ⟨-, hr⟩ := State.pendingOk_clearWrite.1 hp
    exact inv_finish (inv_withEpr hs he (hwWrite_clearWrite_and_rw hmasks hr dir)) _
  | finished k len hq hc =>
    subst hq
    obtain ⟨-, -, -, hbuf⟩ := inv_rxComplete hs hc
    exact inv_suspend (inv_rxEmptied hs) (by simpa [State.pendingOk, hbuf] using hp)
  | dispatched j k len t o hq =>
    subst hq
    refine inv_suspend (inv_dispatchPair hs t o) ?_
    rw [dispatchPair_frame]
    simp only [State.pendingOk, Bool.and_eq_true] at hp ⊢
    exact ⟨hp.1.2, hp.2⟩
  | rearmed k len _ hk hl => exact inv_finish (inv_rxArmed hs hk hl) _

/-- Every input keeps the invariant. -/
theorem inv_of_takes {i : Input} {s t : State} (hs : s.inv = true) (h : Takes i s t) : t.inv = true := by
  cases h with
  | illegal cw => exact inv_finish (inv_addFault hs _) _
  | pauses _ _ q _ _ _ hq => exact inv_suspend hs (pendingOk_of_pauses hq)
  | ends _ _ r s' _ _ _ he => exact inv_finish (inv_of_ends hs he) r
  | resumes p _ _ ht hr => exact inv_of_resumes hs (inv_pendings hs (State.topOp_mem_pendings ht)) hr
  | entryFaulted _ _ f _ hc => exact inv_finish (inv_addFault (inv_pushHandler hs hc) f) _
  | rxEntered k len _ hc hk hl => exact inv_suspend (inv_pushHandler hs hc) (by simp [State.pendingOk, hk, hl])
  | txEntered _ hc => exact inv_finish (inv_txReleased (inv_pushHandler hs hc)) _
  | pushed x _ hc => exact inv_pushHandler hs hc
  | stagedByte _ b _ ho => exact inv_payWritten hs ho b
  | stagedKey n v => exact inv_keyWritten hs n v
  | emitted _ hf => exact inv_txAdvanced (s := s.emitLine (Memory.read s.txb s.tx.pos)) hs hf
  | stored b rest _ _ hf _ hc => exact inv_rxAdvanced (inv_rxbWritten (s := s.withRxLine rest) hs s.rx.buf hc b) hf
  | usb _ _ _ _ he hr => exact inv_withEpr hs he (usbEffect_and_rw (masksOk_of_valid (inv_valid hs)) hr)
  | reset p => exact inv_powerUp (inv_valid hs) p s.inputs s.freeTick
  | dropped | arrived => exact hs

/-- Settles O48, by cases on what a step can do. -/
theorem everyStepKeepsTheInvariant : Obligations.EveryStepKeepsTheInvariant := by
  intro s t hs h
  obtain ⟨-, ⟨-, rfl⟩ | ⟨i, rest, -, ht⟩⟩ := step_cases h
  · exact hs
  · exact inv_of_takes (s := s.withInputs rest) hs ht

/-- Settles O47: the reset state, evaluated. -/
theorem invariantHoldsAtReset : Obligations.InvariantHoldsAtReset := by
  unfold Obligations.InvariantHoldsAtReset
  decide

end Sys2Proof.Machine
end

section
/-! Proofs of the rules of single steps: the plain bits, the read-only bits and the completion flags of a register (rules R26, R28, R331),
`LEDC.state` (rule R43), the transmit slot and the buffers (rules R32, R74, R160, R170, R175). -/
namespace Sys2Proof.Machine

/-! ## The next input -/

/-- A step takes no reset, when the next input is none. -/
theorem takes_of_step {s t : State} (hr : s.resetNext = false) (h : step s = .next t) :
    t = s ∨ ∃ i rest, s.inputs = i :: rest ∧ (∀ p, i ≠ .reset p) ∧ Takes i (s.withInputs rest) t := by
  obtain ⟨-, ⟨-, rfl⟩ | ⟨i, rest, hi, ht⟩⟩ := step_cases h
  · exact .inl rfl
  · exact .inr ⟨i, rest, hi, fun p hp => by simp [State.resetNext, hi, hp] at hr, ht⟩

theorem presentsNext_of_present {s : State} {enc : Encoded} {rest : List Input} {ins : Instr} (hi : s.inputs = .present enc :: rest)
    (ht : s.topOp = none) (hd : decode s.cfg enc = .ok ins) : s.presentsNext = some ins := by
  simp [State.presentsNext, hi, ht, hd, Except.toOption]

theorem presentsNext_of_take {s : State} {e : Entry} {rest : List Input} (hi : s.inputs = .take e :: rest)
    (hc : s.canTake e.handler = true) : s.presentsNext = some e.instr := by
  simp [State.presentsNext, hi, hc]

theorem resumesNext_of_resume {s : State} {rest : List Input} (hi : s.inputs = .resume :: rest) : s.resumesNext = s.topOp := by
  simp [State.resumesNext, hi]

/-- Only the operation of the top context takes a later step (rule R281). -/
theorem topOp_of_resumesNext {s : State} {p : Pending} (h : s.resumesNext = some p) : s.topOp = some p := by
  unfold State.resumesNext at h
  split at h
  · exact h
  · cases h

theorem usbHwNext_of_head {s : State} {e : Nat} {act : UsbAction} (hi : s.inputs.head? = some (.usbHw e act)) :
    s.usbHwNext = true := by
  obtain ⟨rest, hr⟩ := List.head?_eq_some_iff.1 hi
  simp [State.usbHwNext, hr]

/-! ## One register over a step -/

/-- What a step that is no reset can make of the content of register `e`: the four cases of rules R133 and R150. -/
inductive RegisterMoves (s : State) (e : Nat) : Reg → Prop where
  | kept : RegisterMoves s e (s.eprAt e)
  | statusWritten (dir : Dir) (x : Byte) (target : StatusCode) (d : DtogOp) (r : Reg) (hx : x.toNat = e)
      (hp : s.resumesNext = some (.statusWrite dir x target d r)) :
      RegisterMoves s e (hwWrite s.cfg (s.eprAt e) (statusWrite s.cfg r dir target d))
  | flagCleared (dir : Dir) (x : Byte) (r : Reg) (hx : x.toNat = e) (hp : s.resumesNext = some (.clearWrite dir x r)) :
      RegisterMoves s e (hwWrite s.cfg (s.eprAt e) (clearWrite s.cfg r dir))
  | usb (act : UsbAction) (r : Reg) (hi : s.inputs.head? = some (.usbHw e act)) (hr : usbEffect s.cfg (s.eprAt e) act = some r) :
      RegisterMoves s e r

/-- A step that leaves the register file alone. -/
theorem RegisterMoves.of_epr_eq {s t : State} (h : t.epr = s.epr) (e : Nat) : RegisterMoves s e (t.eprAt e) := by
  have he : t.eprAt e = s.eprAt e := by simp only [State.eprAt, h]
  exact he ▸ .kept

/-- A step that replaces one register that exists: the claim is about that register. -/
theorem RegisterMoves.of_withEpr {s u : State} {x : Nat} {v : Reg} (hu : u.epr = s.epr) (hx : x < u.epr.length)
    (h : RegisterMoves s x v) (e : Nat) : RegisterMoves s e ((u.withEpr x v).eprAt e) := by
  rw [State.eprAt_withEpr hx]
  split
  · rename_i he; exact he ▸ h
  · exact .of_epr_eq hu e

theorem epr_of_ends {i : Instr} {s s' : State} {r : Result} (h : Ends i s r s') : s'.epr = s.epr := by
  cases h with
  | dispatched t o => rw [dispatchPair_frame]
  | _ => rfl

/-- Every step that is no reset moves each register in one of the four ways. -/
theorem registerMoves_of_step {s t : State} (hr : s.resetNext = false) (h : step s = .next t) (e : Nat) :
    RegisterMoves s e (t.eprAt e) := by
  obtain rfl | ⟨i, rest, hi, hnr, ht⟩ := takes_of_step hr h
  · exact .kept
  · cases ht with
    | ends enc ins r s' _ _ _ he => exact .of_epr_eq (s := s) (t := s'.finish r) ((epr_of_ends he).trans rfl) e
    | resumes p t hres hop hq =>
      subst hres
      have hp : s.resumesNext = some p := (resumesNext_of_resume hi).trans hop
      cases hq with
      | statusWritten dir x target d r hq hx =>
        exact .of_withEpr (s := s) (u := s.withInputs rest) rfl hx (.statusWritten dir x target d r rfl (hq ▸ hp)) e
      | flagCleared dir x r hq hx =>
        exact .of_withEpr (s := s) (u := s.withInputs rest) rfl hx (.flagCleared dir x r rfl (hq ▸ hp)) e
      | dispatched j k len t o => rw [dispatchPair_frame]; exact .of_epr_eq rfl e
      | _ => exact .of_epr_eq rfl e
    | usb x act r hu hx heff =>
      exact .of_withEpr (s := s) (u := s.withInputs rest) rfl hx (.usb act r (by rw [hi, hu]; rfl) heff) e
    | reset p hp => exact absurd hp (hnr p)
    | _ => exact .of_epr_eq rfl e

/-- Settles O51: a write puts back the plain bits that the operation read, which the invariant says the register still has. -/
theorem plainBitsNeverChange : Obligations.PlainBitsNeverChange := by
  intro s t e hinv hr h
  have hmasks := masksOk_of_valid (inv_valid hinv)
  have hheld : ∀ {p}, s.resumesNext = some p → s.pendingOk p = true := fun hp =>
    inv_pendings hinv (State.topOp_mem_pendings (topOp_of_resumesNext hp))
  have hmoves := registerMoves_of_step hr h e
  generalize t.eprAt e = v at hmoves ⊢
  cases hmoves with
  | kept => rfl
  | statusWritten dir x target d r hx hp =>
    obtain ⟨-, hplain⟩ := State.pendingOk_statusWrite.1 (hheld hp)
    exact hwWrite_statusWrite_and_rw hmasks (hx ▸ hplain) dir target d
  | flagCleared dir x r hx hp =>
    obtain ⟨-, hplain⟩ := State.pendingOk_clearWrite.1 (hheld hp)
    exact hwWrite_clearWrite_and_rw hmasks (hx ▸ hplain) dir
  | usb act r _ heff => exact usbEffect_and_rw hmasks heff

/-- Settles O52: the hardware ignores what a context writes under `M_RO`, and no other agent but UsbHw writes a register. -/
theorem readOnlyBitsBelongToUsbHw : Obligations.ReadOnlyBitsBelongToUsbHw := by
  intro s t e hv hr hu h
  have hmasks := masksOk_of_valid hv
  have hmoves := registerMoves_of_step hr h e
  generalize t.eprAt e = v at hmoves ⊢
  cases hmoves with
  | kept => rfl
  | statusWritten => exact hwWrite_and_ro hmasks _ _
  | flagCleared => exact hwWrite_and_ro hmasks _ _
  | usb act r hi => simp [usbHwNext_of_head hi] at hu

/-! ## The completion flags (rule R26) -/

/-- A flag that is as it was neither falls nor rises, whatever a fall or a rise would call for. -/
theorem flag_unmoved {f g : Bool} {fall rise : Prop} (h : g = f) : (f = true → g = false → fall) ∧ (f = false → g = true → rise) := by
  subst h; cases g <;> simp

/-- Settles O53, by cases on what a step makes of the register. -/
theorem flagsMoveOnlyAsTheRuleSays : Obligations.FlagsMoveOnlyAsTheRuleSays := by
  intro s t e dir hv hr h
  have hmasks := masksOk_of_valid hv
  have hmoves := registerMoves_of_step hr h e
  generalize t.eprAt e = v at hmoves ⊢
  cases hmoves with
  | kept => exact flag_unmoved rfl
  | statusWritten x _ target d r => exact flag_unmoved (flagOf_congr (hwWrite_statusWrite_and_ctr hmasks _ r x target d dir))
  | flagCleared x a r ha hp =>
    obtain rfl | rfl := eq_or_eq_otherDir dir x
    · have hlow : flagOf s.cfg (hwWrite s.cfg (s.eprAt e) (clearWrite s.cfg r dir)) dir = false := by
        simp [flagOf, hwWrite_clearWrite_and_ctr hmasks]
      exact ⟨fun _ _ => ⟨a, r, hp, ha⟩, fun _ hrise => by simp [hlow] at hrise⟩
    · exact flag_unmoved (flagOf_congr (hwWrite_clearWrite_and_ctr_other hmasks ..))
  | usb act r hi heff =>
    exact ⟨fun hup hdown => by simp [flagOf_usbEffect hmasks heff hup] at hdown, fun _ _ => usbHwNext_of_head hi⟩

/-! ## `LEDC.state` (rule R43) -/

/-- Of the instructions, only TOGGLE flips it. -/
theorem ledState_of_ends {i : Instr} {s s' : State} {r : Result} (h : Ends i s r s') : i = .toggle ∨ s'.ledState = s.ledState := by
  cases h with
  | toggleBusy hi | toggleOk _ _ _ hi => exact .inl hi
  | dispatched t o => exact .inr (by rw [dispatchPair_frame])
  | _ => exact .inr rfl

theorem ledState_of_resumes {p : Pending} {s t : State} (h : Resumes p s t) : t.ledState = s.ledState := by
  cases h with
  | dispatched j k len t o => rw [dispatchPair_frame]; rfl
  | _ => rfl

/-- Settles O54, by cases on what a step can do. -/
theorem ledStateChangesOnlyByToggle : Obligations.LedStateChangesOnlyByToggle := by
  intro s t hr h hne
  obtain rfl | ⟨i, rest, hi, hnr, ht⟩ := takes_of_step hr h
  · exact absurd rfl hne
  · cases ht with
    | ends enc ins r s' he hop hd hends =>
      subst he
      obtain rfl | hsame := ledState_of_ends hends
      · exact presentsNext_of_present hi hop hd
      · exact absurd hsame hne
    | resumes p t _ _ hq => exact absurd (ledState_of_resumes hq) hne
    | reset p hp => exact absurd hp (hnr p)
    | _ => exact absurd rfl hne

/-! ## The transmit slot and `TXB` (rules R32, R74, R160, R170, R175) -/

/-- What an instruction that ends in its first step does to the transmit slot. -/
theorem transmit_of_ends {i : Instr} {s s' : State} {r : Result} (h : Ends i s r s') :
    (s'.tx = s.tx ∧ s'.txb = s.txb) ∨ (isSend i = true ∧ s.tx.st = .empty ∧ s'.tx.st = .inFlight)
      ∨ (i = .txadv ∧ s.tx.st = .complete ∧ s'.tx.st = .empty ∧ s'.txb = s.txb) := by
  cases h with
  | sentOk t o p hi _ hs => exact .inr (.inl ⟨hi, hs, rfl⟩)
  | toggleOk t o p hi hs => exact .inr (.inl ⟨hi ▸ rfl, hs, rfl⟩)
  | released hi hs => exact .inr (.inr ⟨hi, hs, rfl, rfl⟩)
  | dispatched t o => rw [dispatchPair_frame]; exact .inl ⟨rfl, rfl⟩
  | _ => exact .inl ⟨rfl, rfl⟩

theorem transmit_of_resumes {p : Pending} {s t : State} (h : Resumes p s t) : t.tx = s.tx ∧ t.txb = s.txb := by
  cases h with
  | dispatched j k len t o => rw [dispatchPair_frame]; exact ⟨rfl, rfl⟩
  | _ => exact ⟨rfl, rfl⟩

/-- What a step that is no reset does to the transmit slot and its buffer: nothing, or one of the three moves of a send. -/
inductive TransmitMoves (s t : State) : Prop where
  | kept (htx : t.tx = s.tx) (htxb : t.txb = s.txb)
  | accepted (i : Instr) (hp : s.presentsNext = some i) (hi : isSend i = true) (hs : s.tx.st = .empty) (ht : t.tx.st = .inFlight)
  | emitted (hi : s.inputs.head? = some .dmaTx) (hs : s.tx.st = .inFlight) (ht : t.tx.st = .complete ∨ t.tx.st = .inFlight)
      (htxb : t.txb = s.txb)
  | released (hp : s.presentsNext = some .txadv) (hs : s.tx.st = .complete) (ht : t.tx.st = .empty) (htxb : t.txb = s.txb)

theorem transmitMoves_of_step {s t : State} (hr : s.resetNext = false) (h : step s = .next t) : TransmitMoves s t := by
  obtain rfl | ⟨i, rest, hi, hnr, ht⟩ := takes_of_step hr h
  · exact .kept rfl rfl
  · cases ht with
    | ends enc ins r s' he hop hd hends =>
      subst he
      have hp := presentsNext_of_present hi hop hd
      obtain ⟨htx, htxb⟩ | ⟨hsend, hs, ht⟩ | ⟨rfl, hs, ht, htxb⟩ := transmit_of_ends hends
      · exact .kept htx htxb
      · exact .accepted ins hp hsend hs ht
      · exact .released hp hs ht htxb
    | resumes p t _ _ hq =>
      obtain ⟨htx, htxb⟩ := transmit_of_resumes hq
      exact .kept htx htxb
    | txEntered he hc hs =>
      subst he
      exact .released (presentsNext_of_take hi hc) hs rfl rfl
    | emitted he hs =>
      refine .emitted (by rw [hi, he]; rfl) hs ?_ rfl
      rw [State.withTx_tx]
      split
      · exact .inl rfl
      · exact .inr rfl
    | reset p hp => exact absurd hp (hnr p)
    | _ => exact .kept rfl rfl

/-- Settles O56, by cases on the moves of the transmit slot. -/
theorem transmitTransferLifecycle : Obligations.TransmitTransferLifecycle := by
  intro s t hr h hne
  cases transmitMoves_of_step hr h with
  | kept htx => exact absurd (congrArg TxSlot.st htx) hne
  | accepted i hp hi hs ht => exact .inl ⟨hs, ht, i, hp, hi⟩
  | emitted hi hs ht =>
    obtain ht | ht := ht
    · exact .inr (.inl ⟨hs, ht, hi⟩)
    · exact absurd (ht.trans hs.symm) hne
  | released hp hs ht => exact .inr (.inr ⟨hs, ht, hp⟩)

/-! ## The receive buffers (rule R74) -/

theorem rxb_of_ends {i : Instr} {s s' : State} {r : Result} (h : Ends i s r s') : s'.rxb = s.rxb := by
  cases h with
  | dispatched t o => rw [dispatchPair_frame]
  | _ => rfl

theorem rxb_of_resumes {p : Pending} {s t : State} (h : Resumes p s t) : t.rxb = s.rxb := by
  cases h with
  | dispatched j k len t o => rw [dispatchPair_frame]; rfl
  | _ => rfl

/-- Only agent `DmaRx` writes a receive buffer, and only while a transfer is in flight (rule R176). -/
theorem rxb_of_step {s t : State} (hr : s.resetNext = false) (h : step s = .next t) :
    t.rxb = s.rxb ∨ (s.inputs.head? = some .dmaRx ∧ s.rx.st = .inFlight) := by
  obtain rfl | ⟨i, rest, hi, hnr, ht⟩ := takes_of_step hr h
  · exact .inl rfl
  · cases ht with
    | ends _ _ r s' _ _ _ he => exact .inl ((rxb_of_ends he).trans rfl)
    | resumes p t _ _ hq => exact .inl ((rxb_of_resumes hq).trans rfl)
    | stored b line he _ hs => exact .inr ⟨by rw [hi, he]; rfl, hs⟩
    | reset p hp => exact absurd hp (hnr p)
    | _ => exact .inl rfl

/-- Settles O57: of the moves of the transmit slot only an acceptance writes `TXB`, and it finds the slot empty. -/
theorem buffersAreLeftToTheirOwner : Obligations.BuffersAreLeftToTheirOwner := by
  intro s t hr h
  refine ⟨fun hs => ?_, fun hne => (rxb_of_step hr h).resolve_left hne⟩
  cases transmitMoves_of_step hr h with
  | kept _ htxb | emitted _ _ _ htxb | released _ _ _ htxb => exact htxb
  | accepted _ _ _ hempty => exact absurd hempty hs

end Sys2Proof.Machine
end

section
/-! Proofs of the staging writes (rule R38), the reset event and the reset state (rules R50, R310). -/
namespace Sys2Proof.Machine

/-- With valid parameters a step takes the next input. -/
theorem step_of_input {s : State} {i : Input} {rest : List Input} (hv : s.cfg.valid = true) (hi : s.inputs = i :: rest) :
    step s = takeInput i (s.withInputs rest) := by
  simp [step, runNext, hv, hi]

/-! ## Staging writes -/

theorem stagePayStep_inside {s : State} {off : Nat} (b : Byte) (ht : s.topOp = none) (ho : off < s.cfg.payCap) :
    stagePayStep off b s = .next { s with pay := Memory.write s.pay off b } := by
  simp [stagePayStep, ht, State.memWrite, State.sizeOf, State.bytesOf, State.withBytes, Memory.writeBytes, Nat.succ_le_of_lt ho]

theorem stageKeyStep_inside {s : State} {i : Nat} (v : Bool) (ht : s.topOp = none) (hi : i < s.ks.length) :
    stageKeyStep i v s = .next { s with ks := s.ks.set i v } := by
  simp [stageKeyStep, ht, hi]

/-- Settles O45: the written cell reads back, every other one is as before. -/
theorem stagingWritesOneCell : Obligations.StagingWritesOneCell := by
  intro s rest off i b v hinv ht
  obtain ⟨-, -, hks, -⟩ := State.storageOk_iff.1 (inv_storage hinv)
  refine ⟨fun hi ho => ⟨{ s with inputs := rest, pay := Memory.write s.pay off b }, ?_, ?_, ?_, rfl⟩,
    fun hi hn => ⟨{ s with inputs := rest, ks := s.ks.set i v }, ?_, ?_, ?_, rfl⟩⟩
  · exact (step_of_input (inv_valid hinv) hi).trans (stagePayStep_inside (s := s.withInputs rest) b ht ho)
  · exact Memory.read_write_self off b (wf_pay hinv)
  · exact fun a ha => Memory.read_write_other b ha (wf_pay hinv)
  · exact (step_of_input (inv_valid hinv) hi).trans (stageKeyStep_inside (s := s.withInputs rest) v ht (hks ▸ hn))
  · simp [hks ▸ hn]
  · intro j hj
    simp [List.getElem?_set_ne (Ne.symm hj)]

/-! ## The reset event -/

theorem step_reset {s : State} {p : PowerUp} {rest : List Input} (hv : s.cfg.valid = true) (hi : s.inputs = .reset p :: rest) :
    step s = .next (State.powerUp s.cfg p rest s.freeTick) := by
  rw [step_of_input hv hi]; rfl

/-- A memory filled from a list, read at an address that the list was cut to: the list's byte, 0 past its end. -/
theorem read_memoryOf_take (bs : List Byte) {size a : Nat} (ha : a < size) :
    Memory.read (memoryOf (bs.take size)) a = bs.getD a 0 := by
  by_cases hl : a < bs.length
  · have := Memory.read_writeBytes_inside (m := []) (a := 0) (i := a) (bs.take size) (by simp; omega) Memory.wf_nil
    simpa [memoryOf, ha] using this
  · rw [memoryOf, Memory.read_writeBytes_outside _ (by simp; omega) Memory.wf_nil]
    simp [blank, hl]

/-- A list built from its positions. -/
theorem getD_map_range {α : Type} (f : Nat → α) (d : α) {n i : Nat} (hi : i < n) : ((List.range n).map f).getD i d = f i := by
  simp [hi]

/-- Settles O59, field by field. -/
theorem resetEventGivesTheTable : Obligations.ResetEventGivesTheTable := by
  intro s p rest hv hi
  refine ⟨_, step_reset hv hi, rfl, rfl, rfl, rfl, rfl, rfl, rfl, rfl, rfl, rfl, rfl, rfl, ?_, ?_, ?_, ?_, ?_, rfl⟩
  · exact fun e he => getD_map_range _ _ he
  · exact fun a ha => read_memoryOf_take p.txb ha
  · intro k a hk ha
    rw [State.powerUp, getD_map_range _ _ hk]
    exact read_memoryOf_take _ ha
  · exact fun a ha => read_memoryOf_take p.pay ha
  · exact fun n hn => getD_map_range _ _ hn

/-- Settles O60: the fields of the reset state, read off. -/
theorem resetStateHoldsTheStatedValues : Obligations.ResetStateHoldsTheStatedValues :=
  ⟨rfl, rfl, rfl, rfl, rfl, rfl, rfl, rfl, rfl, rfl⟩

end Sys2Proof.Machine
end

section
/-! Proofs about the byte spaces and the registers (rules R60, R61, R75) and about what the command port runs (rules R72, R90): no step from
a state of the invariant reaches outside a space, and a buffer that a DMA agent owns is not answered. -/
namespace Sys2Proof.Machine

/-! ## The step on the input it takes -/

/-- An encoding that decodes, presented between two operations, is run (rule R90). -/
theorem presentStep_of_decode {s : State} {enc : Encoded} {i : Instr} (ht : s.topOp = none) (hd : decode s.cfg enc = .ok i) :
    presentStep enc s = exec i s := by
  simp [presentStep, ht, hd]

/-- An operation in progress goes on (rule R72). -/
theorem resumeStep_of_topOp {s : State} {p : Pending} (ht : s.topOp = some p) : resumeStep s = resumePending p s := by
  simp [resumeStep, ht]

/-- Settles O5: taking the input leaves the parameters and the stack, so the port decodes and resumes as before. -/
theorem stepRunsTheDecodedInstruction : Obligations.StepRunsTheDecodedInstruction := by
  intro s rest hv
  refine ⟨fun enc i hi ht hd => ?_, fun p hi ht => ?_⟩
  · exact (step_of_input hv hi).trans (presentStep_of_decode (s := s.withInputs rest) ht hd)
  · exact (step_of_input hv hi).trans (resumeStep_of_topOp (s := s.withInputs rest) ht)

/-! ## Direct accesses (rule R75) -/

theorem dmaOwns_txb {s : State} : s.dmaOwns .txb = true ↔ s.tx.st = .inFlight := by
  simp [State.dmaOwns]

theorem dmaOwns_rxb {s : State} {k : Nat} : s.dmaOwns (.rxb k) = true ↔ s.rx.st = .inFlight ∧ s.rx.buf = k := by
  simp [State.dmaOwns]

theorem directAccessStep_of_dmaOwns {s : State} {buf : BufferName} (h : s.dmaOwns buf = true) :
    directAccessStep buf s = .refused .unownedAccess := by
  simp [directAccessStep, h]

/-- Settles O46: a transfer in flight makes the DMA agent the owner of its buffer (rule R74). -/
theorem unownedAccessIsRefused : Obligations.UnownedAccessIsRefused := by
  intro s rest hv
  refine ⟨fun hi hs => ?_, fun k hi hs hk => ?_⟩
  · exact (step_of_input hv hi).trans (directAccessStep_of_dmaOwns (s := s.withInputs rest) (dmaOwns_txb.2 hs))
  · exact (step_of_input hv hi).trans (directAccessStep_of_dmaOwns (s := s.withInputs rest) (dmaOwns_rxb.2 ⟨hs, hk⟩))

/-! ## Outcomes that reach outside no space -/

/-- The outcome is no stop of the machine: every access lay in its space (rule R61). -/
def StaysInside {α : Type} (o : Host.Outcome α Fault Refusal) : Prop := ∀ f, o ≠ .fault f

@[simp] theorem staysInside_next {α : Type} (a : α) : StaysInside (.next a) := by simp [StaysInside]

@[simp] theorem staysInside_refused {α : Type} (r : Refusal) : StaysInside (.refused r : Host.Outcome α Fault Refusal) := by
  simp [StaysInside]

/-- Raising a fault of rule R271 is a next state. -/
@[simp] theorem staysInside_raise (s : State) (f : FaultRecord) : StaysInside (s.raise f) := staysInside_next _

/-- Concluding an operation accesses no space. -/
@[simp] theorem staysInside_conclude {a : Answered} : StaysInside (conclude a) ↔ StaysInside a := by
  cases a <;> simp [conclude, StaysInside]

/-! ## Accesses inside a space (rules R12, R61) -/

theorem State.memRead_of_le {s : State} {sp : Space} {a n : Nat} (h : a + n ≤ s.sizeOf sp) :
    s.memRead sp a n = some (Memory.readBytes (s.bytesOf sp) a n) := if_pos h

theorem State.memWrite_of_le {s : State} {sp : Space} {a : Nat} {bs : List Byte} (h : a + bs.length ≤ s.sizeOf sp) :
    s.memWrite sp a bs = some (s.withBytes sp (Memory.writeBytes (s.bytesOf sp) a bs)) := if_pos h

/-- The endpoint check of the EPSC operations admits only registers that exist (rules R61, R110). -/
theorem lt_length_of_endpointOk {s : State} (h : s.inv = true) {e : Byte} (he : endpointOk s.cfg e = true) :
    e.toNat < s.epr.length := by
  obtain ⟨hepr, -⟩ := State.storageOk_iff.1 (inv_storage h)
  rw [hepr]
  exact of_decide_eq_true he

/-! ## The operations -/

/-- A frame that `MAXPAY` admits fits `TXB` (rule R162). -/
theorem staysInside_linkSend {s : State} (hv : s.cfg.valid = true) (t o : Byte) (p : List Byte) : StaysInside (linkSend t o p s) := by
  by_cases hl : p.length ≤ s.cfg.maxPay
  · by_cases hs : s.tx.st = .empty
    · rw [linkSend_accepts hv hl hs]; exact staysInside_next _
    · rw [linkSend_busy hl hs]; exact staysInside_next _
  · rw [linkSend_tooLong (Nat.not_le.1 hl)]; exact staysInside_raise s _

theorem staysInside_linkSendStaged {s : State} (hv : s.cfg.valid = true) (t o n : Byte) : StaysInside (linkSendStaged t o n s) :=
  linkSendStaged_eq ▸ staysInside_linkSend hv t o _

theorem staysInside_thenFlip {a : Answered} (h : StaysInside a) : StaysInside (thenFlip a) := by
  cases a with
  | next a => exact staysInside_next _
  | fault f => exact absurd rfl (h f)
  | refused r => exact staysInside_refused r

theorem staysInside_linkReceive (k len : Byte) (s : State) : StaysInside (linkReceive k len s) := by
  unfold linkReceive
  split
  · simp
  · split
    · simp
    · split <;> simp

theorem staysInside_linkPoll (s : State) : StaysInside (linkPoll s) := by
  unfold linkPoll; split <;> simp

theorem staysInside_linkFinish (s : State) : StaysInside (linkFinish s) := by
  unfold linkFinish; split <;> simp

theorem staysInside_linkAdvance (s : State) : StaysInside (linkAdvance s) := by
  unfold linkAdvance; split <;> simp

/-- The header of an existing buffer lies in it, and a payload that does not is never read (rules R9, R210). -/
theorem staysInside_parseBuffer {s : State} (hv : s.cfg.valid = true) {k : Nat} (hk : k < s.cfg.nRxBuf) :
    StaysInside (parseBuffer k s) := by
  by_cases ho : s.rx.st = .inFlight ∧ s.rx.buf = k
  · simp [parseBuffer, ho]
  · rw [parseBuffer_eq hv hk ho]
    split
    · simp
    · split
      · simp
      · split <;> simp

theorem staysInside_epscRead {s : State} (h : s.inv = true) (e : Byte) (p : Reg → Pending) : StaysInside (epscRead s e p) := by
  unfold epscRead
  split
  · rename_i he
    simp [lt_length_of_endpointOk h he]
  · simp

theorem staysInside_epscWrite {s : State} (h : s.inv = true) {e : Byte} (he : endpointOk s.cfg e = true) (w : Reg) :
    StaysInside (epscWrite s e w) := by
  simp [epscWrite, lt_length_of_endpointOk h he]

/-! ## The steps of an instruction -/

theorem staysInside_execParse {s : State} (hv : s.cfg.valid = true) (k : Byte) : StaysInside (execParse k s) := by
  unfold execParse
  split
  · rename_i hk
    exact staysInside_conclude.2 (staysInside_parseBuffer hv (of_decide_eq_true hk))
  · simp

theorem staysInside_execBtmode {s : State} (hv : s.cfg.valid = true) (mode : Byte) : StaysInside (execBtmode mode s) := by
  unfold execBtmode
  split
  · exact staysInside_conclude.2 (staysInside_linkSend hv _ _ _)
  · simp

theorem staysInside_execLedcpoll (k len : Byte) (s : State) : StaysInside (execLedcpoll k len s) := by
  unfold execLedcpoll
  split
  · simp
  · split
    · simp
    · split
      · simp
      · exact staysInside_conclude.2 (staysInside_linkPoll s)

/-- The first step of every instruction. -/
theorem staysInside_exec {s : State} (h : s.inv = true) (i : Instr) : StaysInside (exec i s) := by
  have hv := inv_valid h
  have send : ∀ t o p, StaysInside (conclude (linkSend t o p s)) := fun t o p => staysInside_conclude.2 (staysInside_linkSend hv t o p)
  have sendStaged : ∀ t o n, StaysInside (conclude (linkSendStaged t o n s)) := fun t o n =>
    staysInside_conclude.2 (staysInside_linkSendStaged hv t o n)
  cases i with
  | settx | setrx | clrtx | clrrx => exact staysInside_epscRead h _ _
  | receive k len => exact staysInside_conclude.2 (staysInside_linkReceive k len s)
  | poll => exact staysInside_conclude.2 (staysInside_linkPoll s)
  | finish => exact staysInside_conclude.2 (staysInside_linkFinish s)
  | txadv => exact staysInside_conclude.2 (staysInside_linkAdvance s)
  | parse k => exact staysInside_execParse hv k
  | dispatch | frameAckThemeMode | frameAckConfigCmd | frameAckSetIndividualKeys | frameOther => exact staysInside_next _
  | toggle => exact staysInside_conclude.2 (staysInside_thenFlip (staysInside_linkSend hv _ _ _))
  | btmode mode => exact staysInside_execBtmode hv mode
  | ledcpoll k len => exact staysInside_execLedcpoll k len s
  | send | sendmusic | setkeys => exact sendStaged _ _ _
  | thememode | nexttheme | nextbright | nextspeed | settheme | sendkeys | getthemeid => exact send _ _ _
  | frameThemeModeReassert | frameThemeModeSet | frameConfigCmdTheme | frameConfigCmdBrightness | frameConfigCmdSpeed | frameKey
    | frameMusic | frameGetThemeId | frameSetIndividualKeys | frameSetIndividualKeysBluetooth => exact send _ _ _

/-- A later step: what the operation holds is in range. -/
theorem staysInside_resumePending {s : State} (h : s.inv = true) {p : Pending} (hp : s.pendingOk p = true) :
    StaysInside (resumePending p s) := by
  cases p with
  | statusWrite dir e target d r => exact staysInside_epscWrite h (State.pendingOk_statusWrite.1 hp).1 _
  | clearWrite dir e r => exact staysInside_epscWrite h (State.pendingOk_clearWrite.1 hp).1 _
  | pollFinish k len =>
    simp only [resumePending, resumePollFinish]
    split
    · simp
    · exact staysInside_conclude.2 (staysInside_linkFinish s)
  | pollParse j k len =>
    have hj : j < s.cfg.nRxBuf := by
      simp only [State.pendingOk, Bool.and_eq_true, decide_eq_true_eq] at hp
      exact hp.1.1
    simp only [resumePending, resumePollParse]
    split
    · simp
    · exact staysInside_conclude.2 (staysInside_parseBuffer (inv_valid h) hj)
  | pollRearm k len => exact staysInside_conclude.2 (staysInside_linkReceive k len s)

/-! ## The inputs -/

theorem staysInside_presentStep {s : State} (h : s.inv = true) (enc : Encoded) : StaysInside (presentStep enc s) := by
  unfold presentStep
  split
  · split
    · exact staysInside_exec h _
    · cases enc <;> simp [presentRejected]
  · simp

theorem staysInside_resumeStep {s : State} (h : s.inv = true) : StaysInside (resumeStep s) := by
  unfold resumeStep
  split
  · rename_i p ht
    exact staysInside_resumePending h (inv_pendings h (State.topOp_mem_pendings ht))
  · simp

/-- The operation of a handler that is taken runs in the pushed context, which meets the invariant. -/
theorem staysInside_takeStep {s : State} (h : s.inv = true) (e : Entry) : StaysInside (takeStep e s) := by
  cases hc : s.canTake e.handler with
  | true => rw [takeStep_of_canTake hc]; exact staysInside_exec (inv_pushHandler h hc) _
  | false => rw [takeStep_of_not_canTake hc]; exact staysInside_refused _

theorem staysInside_takeInterrupt (s : State) (x : Handler) : StaysInside (s.takeInterrupt x) := by
  unfold State.takeInterrupt; split <;> simp

theorem staysInside_stagePayStep {s : State} {off : Nat} (ho : off < s.cfg.payCap) (b : Byte) : StaysInside (stagePayStep off b s) := by
  by_cases ht : s.topOp = none
  · rw [stagePayStep_inside b ht ho]; exact staysInside_next _
  · simp [stagePayStep, ht]

theorem staysInside_stageKeyStep {s : State} {i : Nat} (hi : i < s.ks.length) (v : Bool) : StaysInside (stageKeyStep i v s) := by
  by_cases ht : s.topOp = none
  · rw [stageKeyStep_inside v ht hi]; exact staysInside_next _
  · simp [stageKeyStep, ht]

/-- The next byte of a frame in flight lies in `TXB` (rule R32). -/
theorem staysInside_dmaTxStep {s : State} (h : s.inv = true) : StaysInside (dmaTxStep s) := by
  by_cases hs : s.tx.st = .inFlight
  · obtain ⟨hpos, hcap, -, -⟩ := inv_txInFlight h hs
    have hin : s.tx.pos + 1 ≤ s.sizeOf .txb := Nat.le_trans hpos hcap
    simp [dmaTxStep, hs, State.memRead_of_le hin, Memory.readBytes, List.range_succ]
  · simp [dmaTxStep, hs]

/-- The next byte of a transfer in flight lies in the armed buffer (rule R35). -/
theorem staysInside_dmaRxStep {s : State} (h : s.inv = true) : StaysInside (dmaRxStep s) := by
  unfold dmaRxStep
  split
  · simp
  · rename_i b rest _
    split
    · rename_i hs
      obtain ⟨hcnt, hcap, hbuf⟩ := inv_rxInFlight h hs
      have hin : s.rx.cnt + [b].length ≤ (s.withRxLine rest).sizeOf (.rxb s.rx.buf) := by
        simpa [State.sizeOf, hbuf] using Nat.le_trans hcnt hcap
      simp [dmaRxStore, State.memWrite_of_le hin]
    · simp

theorem staysInside_usbHwStep (e : Nat) (act : UsbAction) (s : State) : StaysInside (usbHwStep e act s) := by
  unfold usbHwStep
  split
  · split <;> simp
  · simp

theorem staysInside_directAccessStep (buf : BufferName) (s : State) : StaysInside (directAccessStep buf s) := by
  unfold directAccessStep; split <;> simp

/-- Every input but a staging write past its area. -/
theorem staysInside_takeInput {s : State} (h : s.inv = true) {i : Input} (hpay : ∀ off b, i = .stagePay off b → off < s.cfg.payCap)
    (hkey : ∀ n v, i = .stageKey n v → n < s.cfg.nKeys) : StaysInside (takeInput i s) := by
  cases i with
  | present enc => exact staysInside_presentStep h enc
  | resume => exact staysInside_resumeStep h
  | take e => exact staysInside_takeStep h e
  | takeUnwired x => exact staysInside_takeInterrupt s x
  | stagePay off b => exact staysInside_stagePayStep (hpay off b rfl) b
  | stageKey n v =>
    obtain ⟨-, -, hks, -⟩ := State.storageOk_iff.1 (inv_storage h)
    exact staysInside_stageKeyStep (hks ▸ hkey n v rfl) v
  | dmaTx => exact staysInside_dmaTxStep h
  | dmaRx => exact staysInside_dmaRxStep h
  | peer b => exact staysInside_next _
  | usbHw e act => exact staysInside_usbHwStep e act s
  | directAccess buf => exact staysInside_directAccessStep buf s
  | reset p => exact staysInside_next _

/-- Settles O49, by cases on the next input: the range checks of the operations and the bounds of the invariant admit every access. -/
theorem noStepReachesOutsideASpace : Obligations.NoStepReachesOutsideASpace := by
  intro s hinv hstage
  cases hi : s.inputs with
  | nil =>
    rw [step_of_no_input (inv_valid hinv) hi]
    exact staysInside_next s
  | cons i rest =>
    rw [step_of_input (inv_valid hinv) hi]
    refine staysInside_takeInput (s := s.withInputs rest) hinv (fun off b hb => ?_) (fun n v hv => ?_)
    · simpa [State.stagesOutside, hi, hb] using hstage
    · simpa [State.stagesOutside, hi, hv] using hstage

end Sys2Proof.Machine
end

section
/-! Proof that decoding undoes encoding, for the command words and for the wire frames of both directions (rules R91 to R102). -/
namespace Sys2Proof

/-! ## A whole frame is decoded by its header (rules R93, R95, R98) -/

theorem decode_wireOut_encodeFrame (c : Config) (t o : Byte) {p : List Byte} (h : p.length ≤ 254) :
    decode c (.wireOut (encodeFrame t o p)) = decodeOut c t o p := by
  simp [decode, splitFrame_encodeFrame h]

theorem decode_wireIn_encodeFrame (c : Config) (t o : Byte) {p : List Byte} (h : p.length ≤ 254) :
    decode c (.wireIn (encodeFrame t o p)) = .ok (decodeIn c t o p) := by
  simp [decode, splitFrame_encodeFrame h]

theorem payloadFits_iff {p : List Byte} : payloadFits p = true ↔ p.length ≤ 254 := decide_eq_true_iff

/-! ## The rows of a direction by their opcode (rules R98, R99): the opcodes are pairwise distinct -/

theorem decodeOut_themeMode (c : Config) (p : List Byte) : decodeOut c c.mtLed c.opThemeMode p = decodeThemeMode p := by
  simp [decodeOut]

theorem decodeIn_ackThemeMode (c : Config) (p : List Byte) : decodeIn c c.mtLed c.opAckThemeMode p = .frameAckThemeMode p := by
  simp [decodeIn]

/-- Any pair outside the acknowledgement class is the row of all others. -/
theorem decodeIn_of_not_isAckPair {c : Config} {t o : Byte} (p : List Byte) (h : isAckPair c t o = false) :
    decodeIn c t o p = .frameOther t o p := by
  have hn := mt Machine.isAckPair_iff.2 (by simpa using h)
  simp only [not_and, not_or] at hn
  by_cases ht : t = c.mtLed
  · obtain ⟨h1, h2, h3⟩ := hn ht
    simp [decodeIn, ht, h1, h2, h3]
  · simp [decodeIn, ht]

section
variable {c : Config} (hv : c.valid = true) (p : List Byte)
include hv

theorem decodeOut_configCmd : decodeOut c c.mtLed c.opConfigCmd p = decodeConfigCmd p := by
  obtain ⟨⟨hc, -⟩, -⟩ := opcodes_distinct hv
  simp [decodeOut, hc]

theorem decodeOut_key : decodeOut c c.mtLed c.opKey p = if keyPayloadOk c p then .ok (.frameKey p) else .error .noOutRow := by
  obtain ⟨⟨-, ht, -⟩, ⟨hc, -⟩, -⟩ := opcodes_distinct hv
  simp [decodeOut, ht, hc]

theorem decodeOut_music : decodeOut c c.mtLed c.opMusic p = .ok (.frameMusic p) := by
  obtain ⟨⟨-, -, ht, -⟩, ⟨-, hc, -⟩, ⟨hk, -⟩, -⟩ := opcodes_distinct hv
  simp [decodeOut, ht, hc, hk]

theorem decodeOut_getThemeId :
    decodeOut c c.mtLed c.opGetThemeId p = if p = [] then .ok .frameGetThemeId else .error .noOutRow := by
  obtain ⟨⟨-, -, -, ht, -⟩, ⟨-, -, hc, -⟩, ⟨-, hk, -⟩, ⟨hm, -⟩, -⟩ := opcodes_distinct hv
  simp [decodeOut, ht, hc, hk, hm]

theorem decodeOut_setIndividualKeys : decodeOut c c.mtLed c.opSetIndividualKeys p =
    if btShaped p then .ok (.frameSetIndividualKeysBluetooth (recordsOf (p.drop 2))) else .ok (.frameSetIndividualKeys p) := by
  obtain ⟨⟨-, -, -, -, ht⟩, ⟨-, -, -, hc⟩, ⟨-, -, hk⟩, ⟨-, hm⟩, hg, -⟩ := opcodes_distinct hv
  simp [decodeOut, ht, hc, hk, hm, hg]

theorem decodeIn_ackConfigCmd : decodeIn c c.mtLed c.opAckConfigCmd p = .frameAckConfigCmd p := by
  obtain ⟨-, -, -, -, -, ht, -⟩ := opcodes_distinct hv
  simp [decodeIn, ht]

theorem decodeIn_ackSetIndividualKeys : decodeIn c c.mtLed c.opAckSetIndividualKeys p = .frameAckSetIndividualKeys p := by
  obtain ⟨-, -, -, -, -, -, ht, hc⟩ := opcodes_distinct hv
  simp [decodeIn, ht, hc]

end

/-! ## The Bluetooth row (rule R102) -/

/-- Ten records make the shape that log 19 gives the Bluetooth row. -/
theorem btShaped_btBytes {recs : List BtRecord} (h : recs.length = 10) : btShaped (btBytes recs) = true := by
  rw [btShaped, length_btBytes, h]; rfl

theorem recordsOf_drop_btBytes (recs : List BtRecord) : recordsOf ((btBytes recs).drop 2) = recs := recordsOf_flatMap recs

/-! ## Every instruction -/

/-- Decoding undoes encoding: an operation's word by its `opc`, a frame by its header. -/
theorem decode_encode {c : Config} (hv : c.valid = true) {i : Instr} (hw : i.wf c = true) : decode c (encode c i) = .ok i := by
  cases i with
  | settx e target d | setrx e target d =>
    simp [encode, decode, decodeCommand, whenZero, target_field, dtog_field]
  | clrtx | clrrx | send | receive | poll | finish | txadv | parse | dispatch | toggle | thememode | nexttheme | nextbright | nextspeed
    | settheme | sendkeys | sendmusic | getthemeid | setkeys | btmode | ledcpoll =>
    simp [encode, decode, decodeCommand, whenZero]
  | frameThemeModeReassert | frameThemeModeSet =>
    rw [encode, decode_wireOut_encodeFrame c _ _ (by simp), decodeOut_themeMode, decodeThemeMode]
  | frameConfigCmdTheme | frameConfigCmdBrightness | frameConfigCmdSpeed =>
    rw [encode, decode_wireOut_encodeFrame c _ _ (by simp), decodeOut_configCmd hv]
    simp [decodeConfigCmd]
  | frameKey packed =>
    have hf : payloadFits packed = true := by
      simp only [Instr.wf, keyPayloadOk, Bool.and_eq_true] at hw
      exact hw.1.2
    rw [encode, decode_wireOut_encodeFrame c _ _ (payloadFits_iff.1 hf), decodeOut_key hv]
    exact if_pos hw
  | frameMusic payload => rw [encode, decode_wireOut_encodeFrame c _ _ (payloadFits_iff.1 hw), decodeOut_music hv]
  | frameGetThemeId => rw [encode, decode_wireOut_encodeFrame c _ _ (by simp), decodeOut_getThemeId hv, if_pos rfl]
  | frameSetIndividualKeys payload =>
    simp only [Instr.wf, Bool.and_eq_true, Bool.not_eq_true'] at hw
    obtain ⟨hf, hs⟩ := hw
    rw [encode, decode_wireOut_encodeFrame c _ _ (payloadFits_iff.1 hf), decodeOut_setIndividualKeys hv]
    simp [hs]
  | frameSetIndividualKeysBluetooth recs =>
    have hl : recs.length = 10 := of_decide_eq_true hw
    rw [encode, decode_wireOut_encodeFrame c _ _ (by rw [length_btBytes]; omega), decodeOut_setIndividualKeys hv,
      if_pos (btShaped_btBytes hl), recordsOf_drop_btBytes]
  | frameAckThemeMode data => rw [encode, decode_wireIn_encodeFrame c _ _ (payloadFits_iff.1 hw), decodeIn_ackThemeMode]
  | frameAckConfigCmd data => rw [encode, decode_wireIn_encodeFrame c _ _ (payloadFits_iff.1 hw), decodeIn_ackConfigCmd hv]
  | frameAckSetIndividualKeys data =>
    rw [encode, decode_wireIn_encodeFrame c _ _ (payloadFits_iff.1 hw), decodeIn_ackSetIndividualKeys hv]
  | frameOther t o data =>
    simp only [Instr.wf, Bool.and_eq_true, Bool.not_eq_true'] at hw
    obtain ⟨hf, ha⟩ := hw
    rw [encode, decode_wireIn_encodeFrame c _ _ (payloadFits_iff.1 hf), decodeIn_of_not_isAckPair _ ha]

/-- Settles O1, by cases on the instruction. -/
theorem decodeOfEncodeIsTheInstruction : Obligations.DecodeOfEncodeIsTheInstruction :=
  fun _ _ hv hw => decode_encode hv hw

end Sys2Proof
end

section
/-! Proofs about the encoding of the command port: legality is selection of a row of the table, and a legal word loses no bit
(rules R91, R92, R96, R110). -/
namespace Sys2Proof

/-! ## The operation table (rule R96) -/

/-- Every row matches the whole of `opc` and asks 0 of the other bits it looks at. -/
theorem commandRows_shape : ∀ row ∈ commandRows, opcOf row.mask = 255#8
    ∧ aOf row.pattern = 0#8 ∧ bOf row.pattern = 0#8 ∧ cOf row.pattern = 0#8 := by
  decide

theorem commandRows_opc_nodup : (commandRows.map fun row => opcOf row.pattern).Nodup := by decide

theorem and_full_field (x : Byte) : x &&& 255#8 = x := BitVec.and_allOnes

/-- A word selects a row when its `opc` is the row's and the bits reserved there are 0. -/
theorem selects_iff {row : CommandRow} (hr : row ∈ commandRows) (cw : CommandWord) :
    cw &&& row.mask = row.pattern ↔ opcOf cw = opcOf row.pattern
      ∧ aOf cw &&& aOf row.mask = 0#8 ∧ bOf cw &&& bOf row.mask = 0#8 ∧ cOf cw &&& cOf row.mask = 0#8 := by
  obtain ⟨ho, ha, hb, hc⟩ := commandRows_shape row hr
  rw [commandWord_ext, opcOf_and, aOf_and, bOf_and, cOf_and, ho, ha, hb, hc, and_full_field]

/-- Two rows that one word selects have its `opc`, so they are one row. -/
theorem row_eq_of_selects {row row' : CommandRow} (hr : row ∈ commandRows) (hr' : row' ∈ commandRows) {cw : CommandWord}
    (h : cw &&& row.mask = row.pattern) (h' : cw &&& row'.mask = row'.pattern) : row = row' := by
  obtain ⟨ho, -⟩ := (selects_iff hr cw).1 h
  obtain ⟨ho', -⟩ := (selects_iff hr' cw).1 h'
  exact List.inj_on_of_nodup_map commandRows_opc_nodup hr hr' (ho.symm.trans ho')

/-! ## Legal words (rule R110) -/

/-- A word with a row's `opc` decodes exactly when the bits reserved in that row are 0. -/
theorem decodes_iff_of_opc {row : CommandRow} (hr : row ∈ commandRows) {cw : CommandWord} (ho : opcOf cw = opcOf row.pattern) :
    (∃ i, decodeCommand cw = .ok i)
      ↔ aOf cw &&& aOf row.mask = 0#8 ∧ bOf cw &&& bOf row.mask = 0#8 ∧ cOf cw &&& cOf row.mask = 0#8 := by
  simp only [decodeCommand, ho]
  generalize aOf cw = a, bOf cw = b, cOf cw = c
  fin_cases hr <;> simp [opcOf, aOf, bOf, cOf, whenZero_eq_ok, and_full_field]

theorem opcOf_of_toNat {cw : CommandWord} {n : Nat} (h : (opcOf cw).toNat = n) : opcOf cw = BitVec.ofNat 8 n := by
  simp [← h]

/-- Only the `opc` of a row decodes. -/
theorem opc_mem_of_decodes {cw : CommandWord} {i : Instr} (h : decodeCommand cw = .ok i) :
    opcOf cw ∈ commandRows.map fun row => opcOf row.pattern := by
  simp only [decodeCommand] at h
  split at h
  case h_24 => cases h
  all_goals
    rename_i hopc
    rw [opcOf_of_toNat hopc]
    decide

/-- A word is legal exactly when it selects a row. -/
theorem decodes_iff_selects {cw : CommandWord} :
    (∃ i, decodeCommand cw = .ok i) ↔ ∃ row ∈ commandRows, cw &&& row.mask = row.pattern := by
  constructor
  · rintro ⟨i, h⟩
    obtain ⟨row, hr, ho⟩ := List.mem_map.1 (opc_mem_of_decodes h)
    exact ⟨row, hr, (selects_iff hr cw).2 ⟨ho.symm, (decodes_iff_of_opc hr ho.symm).1 ⟨i, h⟩⟩⟩
  · rintro ⟨row, hr, h⟩
    obtain ⟨ho, hz⟩ := (selects_iff hr cw).1 h
    exact (decodes_iff_of_opc hr ho).2 hz

/-- Settles O3: legality and uniqueness are both read off the row's `opc`. -/
theorem wordIsLegalExactlyOnATableRow : Obligations.WordIsLegalExactlyOnATableRow :=
  fun _ => ⟨decodes_iff_selects, fun _ hr _ hr' => row_eq_of_selects hr hr'⟩

/-- The fields of a legal word are those of the encoding of what it decodes to: the row's `opc`, the operands, and 0 where the row
reserves bits. -/
theorem encode_of_decodeCommand (c : Config) {cw : CommandWord} {i : Instr} (h : decodeCommand cw = .ok i) :
    encode c i = .command cw := by
  rw [← commandWord_fields cw]
  simp only [decodeCommand] at h
  split at h
  case h_24 => cases h
  all_goals
    rename_i hopc
    obtain ⟨⟨ha, hb, hc⟩, rfl⟩ := whenZero_eq_ok.1 h
    rw [opcOf_of_toNat hopc]
  case h_1 | h_2 => simp [encode, target_of_field _ hb, dtog_of_field _ hc]
  all_goals simp [encode, *]

/-- Settles O2: no field of a legal word is lost. -/
theorem encodeOfDecodedWordIsTheWord : Obligations.EncodeOfDecodedWordIsTheWord :=
  fun c _ _ h => encode_of_decodeCommand c h

/-- Settles O4: each word is decoded. -/
theorem sampleWordsDecode : Obligations.SampleWordsDecode := by
  unfold Obligations.SampleWordsDecode; decide

end Sys2Proof
end

section
/-! Proofs of what an illegal command word and a wire frame do (rules R99, R110, R200, R213 to R217), and of the layout of the
Bluetooth payload (rules R102, R251). -/
namespace Sys2Proof.Machine

/-! ## An illegal word (rule R110) -/

/-- An illegal word presented between two operations raises IllegalCommand (rule R110). -/
theorem presentStep_illegal {s : State} {cw : CommandWord} (ht : s.topOp = none)
    (h : ∀ row ∈ commandRows, cw &&& row.mask ≠ row.pattern) :
    presentStep (.command cw) s = conclude (s.raise (.illegalCommand cw)) := by
  cases hd : decodeCommand cw with
  | ok i =>
    obtain ⟨row, hr, hs⟩ := decodes_iff_selects.1 ⟨i, hd⟩
    exact absurd hs (h row hr)
  | error why => simp [presentStep, ht, decode, hd, presentRejected]

/-- Settles O7: the word is on no row, so it decodes to nothing and is rejected. -/
theorem illegalWordRaisesIllegalCommand : Obligations.IllegalWordRaisesIllegalCommand := by
  intro s cw rest hv hi ht hrow
  have hstep : step s = _ := (step_of_input hv hi).trans (presentStep_illegal (s := s.withInputs rest) ht hrow)
  exact hstep ▸ conclude_raise (s.withInputs rest) _

/-! ## The wire frames (rules R99, R200, R213 to R217) -/

/-- Settles O39: every outgoing row is one SEND. -/
theorem outgoingFramesAreSent : Obligations.OutgoingFramesAreSent := by
  intro s id packed payload recs h
  exact ⟨behavesAsSend_of_linkSend h rfl, behavesAsSend_of_linkSend h rfl, behavesAsSend_of_linkSend h rfl,
    behavesAsSend_of_linkSend h rfl, behavesAsSend_of_linkSend h rfl, behavesAsSend_of_linkSend h rfl,
    behavesAsSend_of_linkSend h rfl, behavesAsSend_of_linkSend h rfl, behavesAsSend_of_linkSend h rfl,
    behavesAsSend_of_linkSend h rfl⟩

/-- Inside the acknowledgement class the event is logged as `LOG_ACKS` says (rule R215). -/
theorem log_logAck (o : Byte) (s : State) :
    (s.cfg.logAcks = .always → (logAck o s).log = s.log ++ [.ack o])
      ∧ (s.cfg.logAcks = .never → (logAck o s).log = s.log)
      ∧ ((logAck o s).log = s.log ∨ (logAck o s).log = s.log ++ [.ack o]) := by
  unfold logAck
  cases s.cfg.logAcks with
  | always => simp
  | never => simp
  | free => cases Config.freeLogAck s.freeTick <;> simp

/-- The class of the pair decides what is logged (rules R213, R214). -/
theorem dispatchesPair_dispatchPair (t o : Byte) (s : State) : DispatchesPair s (dispatchPair t o s) t o := by
  refine ⟨fun h => ?_, fun h => ?_⟩
  · rw [dispatchPair_drop (by simpa using mt isAckPair_iff.1 h)]; exact ⟨rfl, rfl⟩
  · rw [dispatchPair_ack (isAckPair_iff.2 h)]; exact log_logAck o s

/-- An instruction that is one DISPATCH (rule R216). -/
theorem behavesAsDispatch_of_dispatchPair {i : Instr} {s : State} {t o : Byte}
    (he : exec i s = conclude (.next (.ok, dispatchPair t o s))) : BehavesAsDispatch i s t o := by
  refine ⟨_, he, endsWith_finish _ ?_ ?_ ?_, dispatchesPair_dispatchPair t o s, ?_⟩
  all_goals rw [dispatchPair_frame]
  rfl

/-- Settles O40: every incoming row is one DISPATCH. -/
theorem incomingFramesAreDispatched : Obligations.IncomingFramesAreDispatched :=
  fun _ _ _ _ => ⟨behavesAsDispatch_of_dispatchPair rfl, behavesAsDispatch_of_dispatchPair rfl,
    behavesAsDispatch_of_dispatchPair rfl, behavesAsDispatch_of_dispatchPair rfl⟩

/-! ## The Bluetooth payload (rules R102, R251) -/

/-- Byte `j` of record `r` stands in the payload past the magic byte, the count byte and the records before it. -/
theorem getD_btPayload {c : Config} {mode : Byte} {r j n : Nat} {x : BtRecord} (h : (btRecords c mode)[r]? = some x) (hj : j < 5)
    (hn : n = 5 * r + j + 2) : (btPayload c mode).getD n 0 = (recordBytes x).getD j 0 := by
  rw [hn, btPayload, btBytes, List.getD_cons_succ, List.getD_cons_succ, List.getD_eq_getElem?_getD,
    getElem?_flatMap_recordBytes _ _ _ hj, h]
  rfl

/-- The five bytes of record `r`. -/
theorem btPayload_record {c : Config} {mode : Byte} {r : Nat} {x : BtRecord} (h : (btRecords c mode)[r]? = some x) :
    (btPayload c mode).getD (2 + 5 * r) 0 = x.keyIndex ∧ (btPayload c mode).getD (3 + 5 * r) 0 = x.color.red
      ∧ (btPayload c mode).getD (4 + 5 * r) 0 = x.color.green ∧ (btPayload c mode).getD (5 + 5 * r) 0 = x.color.blue
      ∧ (btPayload c mode).getD (6 + 5 * r) 0 = x.ledMode := by
  refine ⟨getD_btPayload (j := 0) h ?_ ?_, getD_btPayload (j := 1) h ?_ ?_, getD_btPayload (j := 2) h ?_ ?_,
    getD_btPayload (j := 3) h ?_ ?_, getD_btPayload (j := 4) h ?_ ?_⟩ <;> omega

/-- The status record takes the colour of the mode. -/
theorem btRecords_status {c : Config} (mode : Byte) {x : BtRecord} (h : c.btPattern[c.btStatusRec]? = some x) :
    (btRecords c mode)[c.btStatusRec]? = some { x with color := modeColor c mode } := by
  simp [btRecords, h]

/-- Every other record is that of the pattern. -/
theorem btRecords_other {c : Config} (mode : Byte) {r : Nat} {x : BtRecord} (hr : r ≠ c.btStatusRec) (h : c.btPattern[r]? = some x) :
    (btRecords c mode)[r]? = some x := by
  simp [btRecords, h, hr.symm]

theorem btPattern_of_valid {c : Config} (h : c.valid = true) : c.btPattern.length = 10 ∧ c.btStatusRec ≤ 9 := by
  have hc := codesOk_of_valid h
  simp only [Config.codesOk, Bool.and_eq_true, decide_eq_true_eq, beq_iff_eq] at hc
  exact ⟨hc.1.2, hc.2⟩

theorem length_btPayload {c : Config} (h : c.valid = true) (mode : Byte) : (btPayload c mode).length = 52 := by
  rw [btPayload, length_btBytes, btRecords, List.length_modify, (btPattern_of_valid h).1]

/-- Settles O34, record by record: the status record has the colour of the mode, every other record its own. -/
theorem btPayloadLayout : Obligations.BtPayloadLayout := by
  intro c mode hv
  obtain ⟨hlen, hrec⟩ := btPattern_of_valid hv
  have hstatus : c.btStatusRec < c.btPattern.length := by omega
  refine ⟨length_btPayload hv mode, rfl, rfl, fun r x hx => ?_, ?_⟩
  · by_cases hs : r = c.btStatusRec
    · subst hs
      obtain ⟨hk, -, -, -, hm⟩ := btPayload_record (btRecords_status mode hx)
      exact ⟨hk, hm, fun hne => absurd rfl hne⟩
    · obtain ⟨hk, hr, hg, hb, hm⟩ := btPayload_record (btRecords_other mode hs hx)
      exact ⟨hk, hm, fun _ => ⟨hr, hg, hb⟩⟩
  · obtain ⟨-, hr, hg, hb, -⟩ := btPayload_record (btRecords_status mode (List.getElem?_eq_getElem hstatus))
    exact ⟨hr, hg, hb⟩

end Sys2Proof.Machine
end

section
/-! Laws of the fields of an endpoint control register (rules R25 to R27) and proofs of what the write values of the Endpoint Status
Controller do to them (rules R130 to R133, R139 to R144, R331). -/
namespace Sys2Proof.Machine

/-! ## The fields of a register combined bit by bit -/

section
variable {c : Config} (h : c.masksOk = true)
include h

theorem statusOf_xor (a b : Reg) (dir : Dir) : statusOf c (a ^^^ b) dir = statusOf c a dir ^^^ statusOf c b dir := by
  apply BitVec.eq_of_getLsbD_eq; intro j hj
  simp only [BitVec.getLsbD_xor, statusOf_bit h _ _ hj]

/-- A status field written 0 keeps (rule R28). -/
theorem hwWrite_and_stat_zero {old w : Reg} {dir : Dir} (hw : w &&& statMask c dir = 0) :
    hwWrite c old w &&& statMask c dir = old &&& statMask c dir := by
  rw [hwWrite_and_stat h, xor_and_distrib, hw]; simp

/-- The data-toggle bit of a direction is one bit of the register, the one its mask has (rules R9, R27). -/
theorem dtogBitOf_eq_bit (dir : Dir) : ∃ p, (dtogMask c dir).getLsbD p = true ∧ ∀ r, dtogBitOf c r dir = r.getLsbD p := by
  obtain ⟨p, hp, hm, hbit⟩ := and_mask_of_isOneBit (dtogMask_isOneBit h dir)
  exact ⟨p, by rw [hm, getLsbD_oneBit hp]; exact decide_eq_true rfl, hbit⟩

/-- The completion flag likewise (rules R9, R26). -/
theorem flagOf_eq_bit (dir : Dir) : ∃ p, (ctrMask c dir).getLsbD p = true ∧ ∀ r, flagOf c r dir = r.getLsbD p := by
  obtain ⟨p, hp, hm, hbit⟩ := and_mask_of_isOneBit (ctrMask_isOneBit h dir)
  exact ⟨p, by rw [hm, getLsbD_oneBit hp]; exact decide_eq_true rfl, hbit⟩

theorem dtogBitOf_xor (a b : Reg) (dir : Dir) : dtogBitOf c (a ^^^ b) dir = (dtogBitOf c a dir ^^ dtogBitOf c b dir) := by
  obtain ⟨p, -, hbit⟩ := dtogBitOf_eq_bit h dir
  simp only [hbit, BitVec.getLsbD_xor]

theorem dtogBitOf_or (a b : Reg) (dir : Dir) : dtogBitOf c (a ||| b) dir = (dtogBitOf c a dir || dtogBitOf c b dir) := by
  obtain ⟨p, -, hbit⟩ := dtogBitOf_eq_bit h dir
  simp only [hbit, BitVec.getLsbD_or]

theorem dtogBitOf_dtogMask (dir : Dir) : dtogBitOf c (dtogMask c dir) dir = true := by
  obtain ⟨p, hm, hbit⟩ := dtogBitOf_eq_bit h dir
  rw [hbit, hm]

theorem flagOf_or_ctrMask (r : Reg) (dir : Dir) : flagOf c (r ||| ctrMask c dir) dir = true := by
  obtain ⟨p, hm, hbit⟩ := flagOf_eq_bit h dir
  rw [hbit, BitVec.getLsbD_or, hm, Bool.or_true]

end

/-! ## A status write (rules R131 to R133) -/

section
variable {c : Config} (h : c.masksOk = true) (old r : Reg) (dir : Dir) (target : StatusCode) (d : DtogOp)
include h

/-- In the addressed field a status write holds the difference to the target. -/
theorem statusOf_statusWrite : statusOf c (statusWrite c r dir target d) dir = statusOf c r dir ^^^ target := by
  rw [statusOf_congr (statusWrite_and_stat h r dir target d), statusOf_xor h, statusOf_codeAt h target dir rfl]

/-- The hardware flips the field, whatever it holds by then, by that difference (rule R133). -/
theorem statusOf_hwWrite_statusWrite :
    statusOf c (hwWrite c old (statusWrite c r dir target d)) dir = statusOf c old dir ^^^ statusOf c r dir ^^^ target := by
  rw [statusOf_congr (hwWrite_and_stat h old _ dir), statusOf_xor h, statusOf_statusWrite h, BitVec.xor_assoc]

theorem statusOf_hwWrite_statusWrite_other :
    statusOf c (hwWrite c old (statusWrite c r dir target d)) (otherDir dir) = statusOf c old (otherDir dir) :=
  statusOf_congr (hwWrite_and_stat_zero h (statusWrite_and_stat_other h r dir target d))

theorem flagOf_hwWrite_statusWrite (x : Dir) : flagOf c (hwWrite c old (statusWrite c r dir target d)) x = flagOf c old x :=
  flagOf_congr (hwWrite_statusWrite_and_ctr h old r dir target d x)

theorem dtogBitOf_hwWrite_statusWrite_other :
    dtogBitOf c (hwWrite c old (statusWrite c r dir target d)) (otherDir dir) = dtogBitOf c old (otherDir dir) :=
  dtogBitOf_congr (hwWrite_and_dtog_zero h _ _ _ (statusWrite_and_dtog_other h r dir target d))

theorem dtogBitOf_hwWrite_statusWrite_keep :
    dtogBitOf c (hwWrite c old (statusWrite c r dir target .keep)) dir = dtogBitOf c old dir :=
  dtogBitOf_congr (hwWrite_and_dtog_zero h _ _ _ (statusWrite_keep_and_dtog h r dir target))

/-- The operand `d = Set` writes 1 to the data-toggle bit of its direction. -/
theorem dtogBitOf_statusWrite_set : dtogBitOf c (statusWrite c r dir target .set) dir = true := by
  have hmask : statusWrite c r dir target .set &&& dtogMask c dir = dtogMask c dir &&& dtogMask c dir := by
    rw [statusWrite_set_and_dtog, BitVec.and_self]
  rw [dtogBitOf_congr hmask, dtogBitOf_dtogMask h]

theorem dtogBitOf_hwWrite_statusWrite_set_toggle (hd : c.dtogW1 = .toggle) :
    dtogBitOf c (hwWrite c old (statusWrite c r dir target .set)) dir = !dtogBitOf c old dir := by
  rw [dtogBitOf_congr (hwWrite_and_dtog_toggle h _ _ _ hd), dtogBitOf_xor h, dtogBitOf_statusWrite_set h, Bool.xor_true]

theorem dtogBitOf_hwWrite_statusWrite_set_set (hd : c.dtogW1 = .set) :
    dtogBitOf c (hwWrite c old (statusWrite c r dir target .set)) dir = true := by
  rw [dtogBitOf_congr (hwWrite_and_dtog_set h _ _ _ hd), dtogBitOf_or h, dtogBitOf_statusWrite_set h, Bool.or_true]

theorem hwWrite_statusWrite_and_keep :
    hwWrite c r (statusWrite c r dir target d) &&& c.mKeep = r &&& c.mKeep :=
  and_or_congr (hwWrite_statusWrite_and_rw h rfl dir target d) (hwWrite_and_ro h r _)

end

/-- Settles O8, law by law. -/
theorem statusWriteLaws : Obligations.StatusWriteLaws := by
  intro c r dir target d hv n
  have h := masksOk_of_valid hv
  refine ⟨?_, statusOf_hwWrite_statusWrite_other h r r dir target d, ?_, hwWrite_statusWrite_and_keep h r dir target d,
    dtogBitOf_hwWrite_statusWrite_other h r r dir target d, ?_, ?_, ?_⟩
  · rw [statusOf_hwWrite_statusWrite h, BitVec.xor_self, BitVec.zero_xor]
  · exact and_or_congr (hwWrite_statusWrite_and_ctr h r r dir target d .tx) (hwWrite_statusWrite_and_ctr h r r dir target d .rx)
  · rintro rfl
    exact dtogBitOf_hwWrite_statusWrite_keep h r r dir target
  · rintro rfl
    exact dtogBitOf_hwWrite_statusWrite_set_toggle h r r dir target
  · rintro rfl
    exact dtogBitOf_hwWrite_statusWrite_set_set h r r dir target

/-! ## The closed form of a status write (rules R130, R131) -/

/-- A status field shares no bit with the plain and the read-only bits (rules R10, R112). -/
theorem keep_bit_of_statMask {c : Config} (h : c.masksOk = true) {dir : Dir} {i : Nat} (hi : i < 16)
    (hs : (statMask c dir).getLsbD i = true) : c.mKeep.getLsbD i = false := by
  have ⟨hc⟩ := oneClass_of_masksOk h hi
  cases dir <;> simp_all [Config.mKeep, statMask]

/-- The code is folded into the status field alone: CTW, beside the kept bits. -/
theorem kept_xor_codeAt {c : Config} (h : c.masksOk = true) (r : Reg) (dir : Dir) (target : StatusCode) :
    (r &&& (c.mKeep ||| statMask c dir)) ^^^ codeAt target (statLo c dir)
      = (r &&& c.mKeep) ||| ctw r target (statMask c dir) (statLo c dir) := by
  apply BitVec.eq_of_getLsbD_eq; intro i hi
  simp only [ctw, BitVec.getLsbD_xor, BitVec.getLsbD_and, BitVec.getLsbD_or]
  cases hs : (statMask c dir).getLsbD i with
  | true => simp [keep_bit_of_statMask h hi hs]
  | false => simp [codeAt_bit_outside h target dir hi hs]

/-- Settles O9: the field of the code is apart from the kept bits. -/
theorem statusWriteIsKeepAndToggle : Obligations.StatusWriteIsKeepAndToggle := by
  intro c r dir target d hv
  have hkept := kept_xor_codeAt (masksOk_of_valid hv) r dir target
  cases d with
  | keep => simp [statusWrite, hkept]
  | set => simp only [statusWrite, hkept]

/-! ## A clear write (rules R139 to R144) -/

section
variable {c : Config} (h : c.masksOk = true) (old r : Reg) (dir : Dir)
include h

theorem flagOf_hwWrite_clearWrite : flagOf c (hwWrite c old (clearWrite c r dir)) dir = false := by
  simp [flagOf, hwWrite_clearWrite_and_ctr h]

theorem flagOf_hwWrite_clearWrite_other :
    flagOf c (hwWrite c old (clearWrite c r dir)) (otherDir dir) = flagOf c old (otherDir dir) :=
  flagOf_congr (hwWrite_clearWrite_and_ctr_other h old r dir)

theorem statusOf_hwWrite_clearWrite (x : Dir) : statusOf c (hwWrite c old (clearWrite c r dir)) x = statusOf c old x :=
  statusOf_congr (hwWrite_and_stat_zero h (clearWrite_and_stat h r dir x))

theorem dtogBitOf_hwWrite_clearWrite (x : Dir) : dtogBitOf c (hwWrite c old (clearWrite c r dir)) x = dtogBitOf c old x :=
  dtogBitOf_congr (hwWrite_and_dtog_zero h _ _ _ (clearWrite_and_dtog h r dir x))

theorem hwWrite_clearWrite_and_keep : hwWrite c r (clearWrite c r dir) &&& c.mKeep = r &&& c.mKeep :=
  and_or_congr (hwWrite_clearWrite_and_rw h rfl dir) (hwWrite_and_ro h r _)

end

/-- Settles O10: the laws of a clear write on any content, at the content it was computed from. -/
theorem clearWriteLaws : Obligations.ClearWriteLaws := by
  intro c r dir hv n
  have h := masksOk_of_valid hv
  exact ⟨flagOf_hwWrite_clearWrite h r r dir, flagOf_hwWrite_clearWrite_other h r r dir, statusOf_hwWrite_clearWrite h r r dir,
    dtogBitOf_hwWrite_clearWrite h r r dir, hwWrite_clearWrite_and_keep h r dir⟩

/-! ## A register that changed in the window (rules R133, R140, R331) -/

/-- A code flipped by the difference of an old code and the target is the target exactly when it is the old code. -/
theorem xor_xor_eq_target_iff (a b target : StatusCode) : a ^^^ b ^^^ target = target ↔ a = b := by
  rw [← BitVec.xor_eq_zero_iff (x := a), ← BitVec.xor_left_inj (z := target) (x := a ^^^ b), BitVec.zero_xor]

/-- Settles O11: none of the write laws but that of the status field needs the content to be the one read. -/
theorem writeValuesInTheWindow : Obligations.WriteValuesInTheWindow := by
  intro c old r w dir x target d hv
  have h := masksOk_of_valid hv
  have hstat := statusOf_hwWrite_statusWrite h old r dir target d
  exact ⟨flagOf_hwWrite_statusWrite h old r dir target d x, flagOf_hwWrite_clearWrite h old r dir,
    flagOf_hwWrite_clearWrite_other h old r dir, statusOf_hwWrite_clearWrite h old r dir x,
    dtogBitOf_hwWrite_clearWrite h old r dir x, hwWrite_and_ro h old w, hstat, hstat ▸ xor_xor_eq_target_iff _ _ _⟩

end Sys2Proof.Machine
end

section
/-! Proofs of the operations of the Endpoint Status Controller, a reading step and a writing step (rules R133, R134, R136, R140, R142), and
of the window between them (rule R330). -/
namespace Sys2Proof.Machine

/-! ## The two steps (rule R133) -/

/-- Step 1 at an endpoint that does not exist. -/
theorem epscRead_badEndpoint {s : State} {e : Byte} (he : s.cfg.nEp ≤ e.toNat) (p : Reg → Pending) :
    ∃ t, epscRead s e p = .next t ∧ Raises s t (.badEndpoint e) := by
  have hbad : endpointOk s.cfg e = false := decide_eq_false (Nat.not_lt.2 he)
  rw [epscRead, hbad]
  exact conclude_raise s _

theorem lt_length_of_lt_nEp {s : State} (h : s.inv = true) {e : Nat} (he : e < s.cfg.nEp) : e < s.epr.length := by
  obtain ⟨hepr, -⟩ := State.storageOk_iff.1 (inv_storage h)
  exact hepr ▸ he

/-- Step 1 at one that exists: the operation holds what it read. -/
theorem epscRead_eq {s : State} (h : s.inv = true) {e : Byte} (he : e.toNat < s.cfg.nEp) (p : Reg → Pending) :
    epscRead s e p = .next (s.suspend (p (s.eprAt e.toNat))) := by
  have hok : endpointOk s.cfg e = true := decide_eq_true he
  simp [epscRead, hok, lt_length_of_lt_nEp h he]

theorem epscRead_pauses {s : State} (h : s.inv = true) {e : Byte} (he : e.toNat < s.cfg.nEp) (p : Reg → Pending) :
    ∃ t, epscRead s e p = .next t ∧ PausesWith s t (p (s.eprAt e.toNat)) ∧ KeepsBlock s t :=
  ⟨_, epscRead_eq h he p, pausesWith_suspend _ rfl rfl rfl, keepsBlock_suspend s _⟩

/-- Step 2: the register takes the write through `HwWrite`, and nothing else of the block changes. -/
theorem epscWrite_ends {s : State} {e : Byte} (he : e.toNat < s.epr.length) (w : Reg) :
    ∃ t, epscWrite s e w = .next t ∧ EndsWith s t .ok ∧ t.eprAt e.toNat = hwWrite s.cfg (s.eprAt e.toNat) w
      ∧ (∀ e', e' ≠ e.toNat → t.eprAt e' = s.eprAt e')
      ∧ t = { s with ind := t.ind, epr := t.epr, answers := t.answers, handlers := t.handlers, mainOp := t.mainOp } :=
  ⟨(s.eprWrite e.toNat w).finish .ok, if_pos he, endsWith_finish _ rfl rfl rfl, (State.eprAt_withEpr he _ _).trans (if_pos rfl),
    fun _ hne => (State.eprAt_withEpr he _ _).trans (if_neg hne), rfl⟩

/-- Settles O13: both operations are one `epscRead`, then one `epscWrite` of an endpoint that the invariant says exists. -/
theorem setStatusReadsThenWrites : Obligations.SetStatusReadsThenWrites := by
  intro s e target d hinv
  refine ⟨fun he => ⟨epscRead_badEndpoint he _, epscRead_badEndpoint he _⟩,
    fun he => ⟨epscRead_pauses hinv he _, epscRead_pauses hinv he _⟩, fun dir r ht => ?_⟩
  obtain ⟨he, -⟩ := State.pendingOk_statusWrite.1 (inv_pendings hinv (State.topOp_mem_pendings ht))
  rw [resumeStep_of_topOp ht]
  exact epscWrite_ends (lt_length_of_endpointOk hinv he) _

/-- Settles O14: the same two steps, the second one writing `ClearWrite` of the value read. -/
theorem clearFlagReadsThenWrites : Obligations.ClearFlagReadsThenWrites := by
  intro s e hinv
  refine ⟨fun he => ⟨epscRead_badEndpoint he _, epscRead_badEndpoint he _⟩,
    fun he => ⟨epscRead_pauses hinv he _, epscRead_pauses hinv he _⟩, fun dir r ht => ?_⟩
  obtain ⟨he, -⟩ := State.pendingOk_clearWrite.1 (inv_pendings hinv (State.topOp_mem_pendings ht))
  rw [resumeStep_of_topOp ht]
  exact epscWrite_ends (lt_length_of_endpointOk hinv he) _

/-! ## The two steps with nothing between -/

/-- An operation whose later step writes `w` leaves in the register what `HwWrite` makes of `w` and the content it read. -/
theorem epscRead_then_resumeStep {s : State} (h : s.inv = true) {e : Byte} (he : e.toNat < s.cfg.nEp) (p : Reg → Pending)
    {w : Config → Reg} (hw : ∀ t : State, resumePending (p (s.eprAt e.toNat)) t = epscWrite t e (w t.cfg)) :
    ∃ t u, epscRead s e p = .next t ∧ resumeStep t = .next u ∧ EndsWith s u .ok
      ∧ u.eprAt e.toNat = hwWrite s.cfg (s.eprAt e.toNat) (w s.cfg) := by
  obtain ⟨u, hu, hends, hreg, -, -⟩ := epscWrite_ends (s := s.suspend (p (s.eprAt e.toNat))) (lt_length_of_lt_nEp h he) (w s.cfg)
  refine ⟨_, u, epscRead_eq h he p, ?_, endsWith_of_suspended rfl rfl rfl hends, hreg⟩
  exact (resumeStep_of_topOp (State.suspend_topOp s _)).trans ((hw _).trans hu)

/-! ## The window (rule R330) -/

/-- Under `P_EPR_EXCL` the operation that resumes on a register finds no other one, below it, inside that register's window. -/
theorem ne_of_mem_pendingsBelow {s : State} (hx : s.eprExcl = true) {p q : Pending} {e x : Byte} (hp : p ∈ s.pendingsBelow)
    (he : p.endpoint = some e) (hq : s.resumesNext = some q) (hqx : q.endpoint = some x) : x ≠ e := by
  have hpres : s.presentsNext = none := by
    unfold State.resumesNext at hq
    split at hq
    · rename_i hi; simp [State.presentsNext, hi]
    · cases hq
  have hnext : s.epscStepNext = some x := by simp [State.epscStepNext, hpres, hq, hqx]
  simp only [State.eprExcl, hnext] at hx
  have hne := List.all_eq_true.1 hx p hp
  rintro rfl
  simp [he] at hne

/-- A register inside the window of an operation is not the one that the operation that resumes writes. -/
theorem endpoint_ne_of_window {s : State} (hx : s.eprExcl = true) {p q : Pending} {e x : Byte} (he : p.endpoint = some e)
    (hp : p ∈ s.pendingsBelow ∨ (s.topOp = some p ∧ s.resumesNext = none)) (hq : s.resumesNext = some q)
    (hqx : q.endpoint = some x) : x.toNat ≠ e.toNat := by
  obtain hb | ⟨-, hnone⟩ := hp
  · exact fun hxe => ne_of_mem_pendingsBelow hx hb he hq hqx (BitVec.eq_of_toNat_eq hxe)
  · simp [hnone] at hq

/-- Under `P_EPR_QUIET` the next step is not `UsbHw`'s on the register. -/
theorem not_usbHw_of_eprQuiet {s : State} {e : Nat} {act : UsbAction} (hq : s.eprQuiet e = true) :
    s.inputs.head? ≠ some (.usbHw e act) := by
  intro hi
  obtain ⟨rest, hr⟩ := List.head?_eq_some_iff.1 hi
  simp [State.eprQuiet, hr] at hq

/-- The four ways a step moves a register, each excluded but the first. -/
theorem eprAt_kept_in_window {s t : State} {p : Pending} {e : Byte} (he : p.endpoint = some e)
    (hp : p ∈ s.pendingsBelow ∨ (s.topOp = some p ∧ s.resumesNext = none)) (hx : s.eprExcl = true) (hq : s.eprQuiet e.toNat = true)
    (hr : s.resetNext = false) (h : step s = .next t) : t.eprAt e.toNat = s.eprAt e.toNat := by
  have hmoves := registerMoves_of_step hr h e.toNat
  generalize t.eprAt e.toNat = v at hmoves ⊢
  cases hmoves with
  | kept => rfl
  | statusWritten dir x target d r hxe hres => exact absurd hxe (endpoint_ne_of_window hx he hp hres rfl)
  | flagCleared dir x r hxe hres => exact absurd hxe (endpoint_ne_of_window hx he hp hres rfl)
  | usb act r hi => exact absurd hi (not_usbHw_of_eprQuiet hq)

/-- Settles O15: the laws of the write values (rules R132, R144) on the content that the operation itself read; the window. -/
theorem undisturbedEpscOperationsReachTheirGoal : Obligations.UndisturbedEpscOperationsReachTheirGoal := by
  refine ⟨fun s e target d dir hinv he => ⟨?_, ?_⟩, fun s t p e hpe hp hx hq hr h => eprAt_kept_in_window hpe hp hx hq hr h⟩
  · obtain ⟨hstat, hother, -, hkeep, hdtog, hdkeep, hdtoggle, hdset⟩ :=
      statusWriteLaws s.cfg (s.eprAt e.toNat) dir target d (inv_valid hinv)
    obtain ⟨t, u, ht, hu, hends, hreg⟩ := epscRead_then_resumeStep hinv he (fun r => .statusWrite dir e target d r)
      (w := fun c => statusWrite c (s.eprAt e.toNat) dir target d) fun _ => rfl
    refine ⟨t, u, ?_, hu, hends, ?_⟩
    · cases dir <;> exact ht
    · rw [hreg]
      exact ⟨hstat, hother, flagOf_hwWrite_statusWrite (masksOk_of_valid (inv_valid hinv)) _ _ dir target d, hdtog, hdkeep, hdtoggle,
        hdset, hkeep⟩
  · have hlaws := clearWriteLaws s.cfg (s.eprAt e.toNat) dir (inv_valid hinv)
    obtain ⟨t, u, ht, hu, hends, hreg⟩ := epscRead_then_resumeStep hinv he (fun r => .clearWrite dir e r)
      (w := fun c => clearWrite c (s.eprAt e.toNat) dir) fun _ => rfl
    refine ⟨t, u, ?_, hu, hends, ?_⟩
    · cases dir <;> exact ht
    · rw [hreg]
      exact hlaws

end Sys2Proof.Machine
end

section
/-! Proofs of what agent UsbHw does to a register, and that it does no more (rule R150). -/
namespace Sys2Proof.Machine

/-! ## The step of the agent -/

theorem usbHwStep_of_effect {s : State} {e : Nat} {act : UsbAction} {r : Reg} (he : e < s.epr.length)
    (hr : usbEffect s.cfg (s.eprAt e) act = some r) : usbHwStep e act s = .next (s.withEpr e r) := by
  simp [usbHwStep, he, hr]

theorem usbHwStep_of_no_effect {s : State} {e : Nat} {act : UsbAction} (hn : usbEffect s.cfg (s.eprAt e) act = none) :
    usbHwStep e act s = .refused (.notEnabled .usbHw) := by
  simp [usbHwStep, hn]

/-- What a step of the agent does when it completes. -/
theorem usbHw_of_step {s t : State} {e : Nat} {act : UsbAction} {rest : List Input} (hi : s.inputs = .usbHw e act :: rest)
    (h : step s = .next t) :
    ∃ r, e < s.epr.length ∧ usbEffect s.cfg (s.eprAt e) act = some r ∧ t = (s.withInputs rest).withEpr e r := by
  obtain ⟨-, ⟨hnil, -⟩ | ⟨i, rest', hi', ht⟩⟩ := step_cases h
  · simp [hnil] at hi
  · obtain ⟨rfl, rfl⟩ := List.cons_eq_cons.1 (hi'.symm.trans hi)
    cases ht with
    | usb e' act' r hu he hr => cases hu; exact ⟨r, he, hr, rfl⟩
    | _ => contradiction

/-- Settles O16: an effect of the agent lowers no flag and leaves the plain bits. -/
theorem usbHwKeepsFlagsAndPlainBits : Obligations.UsbHwKeepsFlagsAndPlainBits := by
  intro s t e act rest hv hi h
  have hmasks := masksOk_of_valid hv
  obtain ⟨r, he, hr, rfl⟩ := usbHw_of_step hi h
  have hreg := State.eprAt_withEpr (s := s.withInputs rest) he r
  have hself := (hreg e).trans (if_pos rfl)
  refine ⟨fun x hx => ?_, ?_, fun e' hne => (hreg e').trans (if_neg hne), rfl⟩
  · rw [hself]; exact flagOf_usbEffect hmasks hr hx
  · rw [hself]; exact usbEffect_and_rw hmasks hr

/-- An action that the agent has takes effect on a register that exists, under the mask of its effect. -/
theorem step_usbHw {s : State} {e : Nat} {act : UsbAction} {rest : List Input} {r mask : Reg} (hinv : s.inv = true) (he : e < s.cfg.nEp)
    (hi : s.inputs = .usbHw e act :: rest) (hr : usbEffect s.cfg (s.eprAt e) act = some r) (hm : OnlyUnder mask (s.eprAt e) r) :
    ∃ t, step s = .next t ∧ t.eprAt e = r ∧ ChangesRegisterOnly s t rest e mask := by
  have hlen := lt_length_of_lt_nEp hinv he
  have hreg := State.eprAt_withEpr (s := s.withInputs rest) hlen r
  have hself := (hreg e).trans (if_pos rfl)
  exact ⟨_, (step_of_input (inv_valid hinv) hi).trans (usbHwStep_of_effect (s := s.withInputs rest) hlen hr), hself, hself.symm ▸ hm,
    fun e' hne => (hreg e').trans (if_neg hne), rfl⟩

/-- An action that it does not have is refused (log 5). -/
theorem step_usbHw_refused {s : State} {e : Nat} {act : UsbAction} {rest : List Input} (hv : s.cfg.valid = true)
    (hi : s.inputs = .usbHw e act :: rest) (hn : usbEffect s.cfg (s.eprAt e) act = none) : step s = .refused (.notEnabled .usbHw) :=
  (step_of_input hv hi).trans (usbHwStep_of_no_effect (s := s.withInputs rest) hn)

/-! ## The four effects, each under its own mask -/

theorem onlyUnder_or (r m : Reg) : OnlyUnder m r (r ||| m) := or_and_disjoint (by simp)

theorem onlyUnder_replaceUnder (r m v : Reg) : OnlyUnder m r (replaceUnder r m v) := replaceUnder_and_disjoint (by simp)

theorem onlyUnder_xor_bit (r : Reg) {bit : Nat} (hb : bit < 16) : OnlyUnder ((1 : Reg) <<< bit) r (r ^^^ (1 : Reg) <<< bit) :=
  xor_bit_and_disjoint (k := (1 : Reg) <<< bit) (by simp) (by simp [hb])

theorem statusOf_replaceUnder {c : Config} (h : c.masksOk = true) (r : Reg) (dir : Dir) (v : StatusCode) :
    statusOf c (replaceUnder r (statMask c dir) (codeAt v (statLo c dir))) dir = v :=
  statusOf_codeAt h v dir replaceUnder_and_self

theorem dtogBitOf_replaceUnder {c : Config} (h : c.masksOk = true) (r : Reg) (dir : Dir) (b : Bool) :
    dtogBitOf c (replaceUnder r (dtogMask c dir) (if b then dtogMask c dir else 0)) dir = b := by
  rw [dtogBitOf_congr replaceUnder_and_self]
  cases b with
  | true => exact dtogBitOf_dtogMask h dir
  | false => simp [dtogBitOf]

/-- Without `USBHW_MUTATES_STAT` the agent has none of the actions of rule R150's case 2. -/
theorem usbEffect_of_not_mutates {c : Config} (hm : c.usbHwMutatesStat = false) {r : Reg} {act : UsbAction}
    (ha : ∀ dir, act ≠ .setFlag dir) : usbEffect c r act = none := by
  cases act with
  | setFlag dir => exact absurd rfl (ha dir)
  | setStatus | setDtog | flipReadOnly => simp [usbEffect, hm]

/-- Settles O17, action by action. -/
theorem usbHwActionsTakeEffect : Obligations.UsbHwActionsTakeEffect := by
  intro s e dir v b bit rest hinv he
  have hv := inv_valid hinv
  have hmasks := masksOk_of_valid hv
  refine ⟨fun hi => ?_, fun hm hi => ?_, fun hm hi => ?_, fun hm hro hi => ?_, fun hm act hact hi => ?_, fun hro hi => ?_⟩
  · obtain ⟨t, ht, hreg, hc⟩ := step_usbHw hinv he hi rfl (onlyUnder_or _ _)
    exact ⟨t, ht, hreg ▸ flagOf_or_ctrMask hmasks _ dir, hc⟩
  · obtain ⟨t, ht, hreg, hc⟩ := step_usbHw hinv he hi (if_pos hm) (onlyUnder_replaceUnder _ _ _)
    exact ⟨t, ht, hreg ▸ statusOf_replaceUnder hmasks _ dir v, hc⟩
  · obtain ⟨t, ht, hreg, hc⟩ := step_usbHw hinv he hi (if_pos hm) (onlyUnder_replaceUnder _ _ _)
    exact ⟨t, ht, hreg ▸ dtogBitOf_replaceUnder hmasks _ dir b, hc⟩
  · have hb : bit < 16 := BitVec.lt_of_getLsbD hro
    obtain ⟨t, ht, hreg, hc⟩ := step_usbHw hinv he hi (by simp [usbEffect, hm, hro]) (onlyUnder_xor_bit _ hb)
    exact ⟨t, ht, by rw [hreg, BitVec.getLsbD_xor, getLsbD_oneBit hb]; simp, hc⟩
  · refine step_usbHw_refused hv hi (usbEffect_of_not_mutates hm fun x hx => ?_)
    simp [hx] at hact
  · exact step_usbHw_refused hv hi (by simp [usbEffect, hro])

end Sys2Proof.Machine
end

section
/-! Proofs about the line (rules R160, R175, R331 items 6 and 7): what a step does to the transmit side, said once, and that over any run
what is on the line and what is still to go are the frames accepted. -/
namespace Sys2Proof.Machine

/-! ## What a step does to the transmit side -/

/-- What a step that is no reset makes of the transmit slot, of `TXB` and of `TXLINE`: nothing, or one of the three moves of a send. -/
inductive LineMoves (s : State) : TxSlot → Memory → List Byte → Prop where
  | kept : LineMoves s s.tx s.txb s.txLine
  | accepted (n : Nat) (m : Memory) (hs : s.tx.st = .empty) : LineMoves s ⟨.inFlight, n, 0⟩ m s.txLine
  | emitted (hs : s.tx.st = .inFlight) :
      LineMoves s ⟨if s.tx.pos + 1 = s.tx.len then .complete else .inFlight, s.tx.len, s.tx.pos + 1⟩ s.txb
        (s.txLine ++ [Memory.read s.txb s.tx.pos])
  | released (hs : s.tx.st = .complete) : LineMoves s { s.tx with st := .empty } s.txb s.txLine

theorem lineMoves_of_ends {i : Instr} {s s' : State} {r : Result} (h : Ends i s r s') : LineMoves s s'.tx s'.txb s'.txLine := by
  cases h with
  | sentOk _ _ _ _ _ hs | toggleOk _ _ _ _ hs => exact .accepted _ _ hs
  | released _ hs => exact .released hs
  | dispatched t o => rw [dispatchPair_frame]; exact .kept
  | _ => exact .kept

theorem lineMoves_of_resumes {p : Pending} {s t : State} (h : Resumes p s t) : LineMoves s t.tx t.txb t.txLine := by
  cases h with
  | dispatched j k len t o => rw [dispatchPair_frame]; exact .kept
  | _ => exact .kept

theorem lineMoves_of_takes {i : Input} {s t : State} (hnr : ∀ p, i ≠ .reset p) (h : Takes i s t) :
    LineMoves s t.tx t.txb t.txLine := by
  cases h with
  | ends _ _ _ s' _ _ _ he => exact lineMoves_of_ends (s' := s') he
  | resumes _ _ _ _ hq => exact lineMoves_of_resumes hq
  | txEntered _ _ hs => exact .released hs
  | emitted _ hs => exact .emitted hs
  | reset p hp => exact absurd hp (hnr p)
  | _ => exact .kept

/-- Which inputs are still to come plays no part in it. -/
theorem LineMoves.of_withInputs {s : State} {rest : List Input} {x : TxSlot} {m : Memory} {l : List Byte}
    (h : LineMoves (s.withInputs rest) x m l) : LineMoves s x m l := by
  cases h with
  | kept => exact .kept
  | accepted n m hs => exact .accepted n m hs
  | emitted hs => exact .emitted hs
  | released hs => exact .released hs

theorem lineMoves_of_step {s t : State} (hr : s.resetNext = false) (h : step s = .next t) : LineMoves s t.tx t.txb t.txLine := by
  obtain rfl | ⟨i, rest, -, hnr, ht⟩ := takes_of_step hr h
  · exact .kept
  · exact (lineMoves_of_takes hnr ht).of_withInputs

/-! ## The bytes still to go -/

/-- The bytes of a frame from one that is in it on: that one, then those after it. -/
theorem Memory.drop_readBytes (m : Memory) {n i : Nat} (hi : i < n) :
    (Memory.readBytes m 0 n).drop i = Memory.read m i :: (Memory.readBytes m 0 n).drop (i + 1) := by
  rw [List.drop_eq_getElem_cons (by simpa using hi)]
  simp [Memory.readBytes]

/-- A step puts what it takes from the frame in the slot on the line, and what it accepts behind it (rule R331 items 6 and 7). -/
theorem line_of_step {s t : State} (hinv : s.inv = true) (hr : s.resetNext = false) (h : step s = .next t) :
    t.txLine ++ t.unsent = s.txLine ++ s.unsent ++ acceptedBy s t := by
  have hmoves := lineMoves_of_step hr h
  simp only [State.unsent, State.slotFrame, acceptedBy]
  generalize t.tx = x, t.txb = m, t.txLine = l at hmoves ⊢
  cases hmoves with
  | kept => simp
  | accepted n m hs => simp [hs]
  | emitted hs =>
    obtain ⟨hpos, -, -, -⟩ := inv_txInFlight hinv hs
    rw [hs, Memory.drop_readBytes s.txb hpos]
    by_cases hlast : s.tx.pos + 1 = s.tx.len
    · simp [hlast]
    · simp [hlast]
  | released hs => simp [hs]

/-! ## The inputs to come -/

theorem inputs_of_ends {i : Instr} {s s' : State} {r : Result} (h : Ends i s r s') : s'.inputs = s.inputs := by
  cases h with
  | dispatched t o => rw [dispatchPair_frame]
  | _ => rfl

theorem inputs_of_resumes {p : Pending} {s t : State} (h : Resumes p s t) : t.inputs = s.inputs := by
  cases h with
  | dispatched j k len t o => rw [dispatchPair_frame]; rfl
  | _ => rfl

/-- No operation, no agent and no reset changes the inputs still to come (rule R21). -/
theorem inputs_of_takes {i : Input} {s t : State} (h : Takes i s t) : t.inputs = s.inputs := by
  cases h with
  | ends _ _ _ s' _ _ _ he => exact inputs_of_ends (s' := s') he
  | resumes _ _ _ _ hq => exact inputs_of_resumes hq
  | _ => rfl

/-- A step takes the next input, if there is one. -/
theorem inputs_of_step {s t : State} (h : step s = .next t) : t.inputs = s.inputs.tail := by
  obtain ⟨-, ⟨hi, rfl⟩ | ⟨i, rest, hi, ht⟩⟩ := step_cases h
  · rw [hi]; rfl
  · rw [inputs_of_takes ht, hi]; rfl

theorem noReset_of_step {s t : State} (hn : s.noReset = true) (h : step s = .next t) : t.noReset = true := by
  rw [State.noReset, inputs_of_step h]
  rw [State.noReset, List.all_eq_true] at hn
  exact List.all_eq_true.2 fun i hi => hn i (List.mem_of_mem_tail hi)

theorem resetNext_of_noReset {s : State} (hn : s.noReset = true) : s.resetNext = false := by
  unfold State.resetNext
  split
  · rename_i hi; simp [State.noReset, hi] at hn
  · rfl

/-! ## Runs -/

/-- A run of one step more begins with a step. -/
theorem run_succ {k : Nat} {s t : State} (h : Host.Core.run Sys2Proof.core (k + 1) s = .next t) :
    ∃ u, step s = .next u ∧ Host.Core.run Sys2Proof.core k u = .next t := by
  simp only [Host.Core.run] at h
  split at h
  · rename_i u hs; exact ⟨u, hs, h⟩
  · cases h
  · cases h

theorem acceptedIn_succ {s u : State} (h : step s = .next u) (k : Nat) : acceptedIn (k + 1) s = acceptedBy s u ++ acceptedIn k u := by
  simp [acceptedIn, h]

/-- Settles O50, by induction on the length of the run. -/
theorem lineCarriesTheAcceptedFrames : Obligations.LineCarriesTheAcceptedFrames := by
  intro k
  induction k with
  | zero =>
    intro s t _ _ h
    cases h
    exact (List.append_nil _).symm
  | succ k ih =>
    intro s t hinv hn h
    obtain ⟨u, hs, hrun⟩ := run_succ h
    calc t.txLine ++ t.unsent
        = u.txLine ++ u.unsent ++ acceptedIn k u := ih u t (everyStepKeepsTheInvariant s u hinv hs) (noReset_of_step hn hs) hrun
      _ = s.txLine ++ s.unsent ++ acceptedBy s u ++ acceptedIn k u := by rw [line_of_step hinv (resetNext_of_noReset hn) hs]
      _ = s.txLine ++ s.unsent ++ acceptedIn (k + 1) s := by rw [acceptedIn_succ hs, List.append_assoc]

end Sys2Proof.Machine
end

section
/-! Proofs of the operations of the Link Transport and of its agents (rules R160 to R178), and of the life of a receive transfer
(rule R169). -/
namespace Sys2Proof.Machine

/-! ## The two ways an operation leaves the block as it was -/

/-- An operation that raises a fault. -/
theorem raises_of_exec {i : Instr} {s : State} {f : FaultRecord} (h : exec i s = conclude (s.raise f)) :
    ∃ t, exec i s = .next t ∧ Raises s t f := h ▸ conclude_raise s f

/-- An operation that answers and writes nothing. -/
theorem keepsBlock_of_exec {i : Instr} {s : State} {r : Result} (h : exec i s = conclude (.next (r, s))) :
    ∃ t, exec i s = .next t ∧ EndsWith s t r ∧ KeepsBlock s t :=
  ⟨_, h, endsWith_finish r rfl rfl rfl, keepsBlock_finish s r⟩

/-! ## SEND (rule R160) -/

/-- Settles O18: a staged SEND is the SEND of the staged bytes. -/
theorem sendQueuesOneFrame : Obligations.SendQueuesOneFrame :=
  fun _ _ _ _ hinv => behavesAsSend_of_linkSend hinv (congrArg conclude linkSendStaged_eq)

/-! ## RECEIVE (rule R165) -/

theorem bufferOk_iff {c : Config} {k : Byte} : bufferOk c k = true ↔ k.toNat < c.nRxBuf := by simp [bufferOk]

theorem lengthOk_iff {c : Config} {len : Byte} : lengthOk c len = true ↔ 0 < len.toNat ∧ len.toNat ≤ c.rxCap := by simp [lengthOk]

section
variable {s : State} {k len : Byte}

theorem linkReceive_badBuffer (hk : s.cfg.nRxBuf ≤ k.toNat) : linkReceive k len s = s.raise (.badBuffer k) := by
  have hb : bufferOk s.cfg k = false := Bool.eq_false_iff.2 (mt bufferOk_iff.1 (Nat.not_lt.2 hk))
  simp [linkReceive, hb]

theorem linkReceive_badLength (hk : k.toNat < s.cfg.nRxBuf) (hl : len.toNat = 0 ∨ s.cfg.rxCap < len.toNat) :
    linkReceive k len s = s.raise (.badLength len) := by
  have hb : lengthOk s.cfg len = false := Bool.eq_false_iff.2 (mt lengthOk_iff.1 (by omega))
  simp [linkReceive, bufferOk_iff.2 hk, hb]

variable (hk : k.toNat < s.cfg.nRxBuf) (hl : 0 < len.toNat ∧ len.toNat ≤ s.cfg.rxCap)
include hk hl

theorem linkReceive_busy (hs : s.rx.st ≠ .empty) : linkReceive k len s = s.raise .receiveBusy := by
  simp [linkReceive, bufferOk_iff.2 hk, lengthOk_iff.2 hl, hs]

theorem linkReceive_arms (hs : s.rx.st = .empty) :
    linkReceive k len s = .next (.ok, s.withRx ⟨.inFlight, k.toNat, len.toNat, 0⟩) := by
  simp [linkReceive, bufferOk_iff.2 hk, lengthOk_iff.2 hl, hs]

end

/-- Settles O19, one clause per check in the order of rule R273. -/
theorem receiveArmsTheSlot : Obligations.ReceiveArmsTheSlot := by
  intro s k len
  refine ⟨fun hk => raises_of_exec (congrArg conclude (linkReceive_badBuffer hk)),
    fun hk hl => raises_of_exec (congrArg conclude (linkReceive_badLength hk hl)), fun hk hpos hcap => ⟨fun hs => ?_, fun hs => ?_⟩⟩
  · exact raises_of_exec (congrArg conclude (linkReceive_busy hk ⟨hpos, hcap⟩ hs))
  · exact ⟨_, congrArg conclude (linkReceive_arms hk ⟨hpos, hcap⟩ hs), endsWith_finish _ rfl rfl rfl, rfl, rfl⟩

/-! ## POLL, FINISH, TXADV (rules R167, R168, R170) -/

section
variable {s : State}

theorem linkPoll_of_empty (h : s.rx.st = .empty) : linkPoll s = s.raise .noTransfer := by simp [linkPoll, h]
theorem linkPoll_of_inFlight (h : s.rx.st = .inFlight) : linkPoll s = .next (.wouldBlock, s) := by simp [linkPoll, h]
theorem linkPoll_of_complete (h : s.rx.st = .complete) : linkPoll s = .next (.ok, s) := by simp [linkPoll, h]

theorem linkFinish_of_empty (h : s.rx.st = .empty) : linkFinish s = s.raise .noTransfer := by simp [linkFinish, h]
theorem linkFinish_of_inFlight (h : s.rx.st = .inFlight) : linkFinish s = s.raise .finishNotReady := by simp [linkFinish, h]
theorem linkFinish_of_complete (h : s.rx.st = .complete) :
    linkFinish s = .next (.okBuffer s.rx.buf, s.withRx { s.rx with st := .empty }) := by simp [linkFinish, h]

theorem linkAdvance_of_empty (h : s.tx.st = .empty) : linkAdvance s = .next (.ok, s) := by simp [linkAdvance, h]
theorem linkAdvance_of_inFlight (h : s.tx.st = .inFlight) : linkAdvance s = .next (.wouldBlock, s) := by simp [linkAdvance, h]
theorem linkAdvance_of_complete (h : s.tx.st = .complete) :
    linkAdvance s = .next (.ok, s.withTx { s.tx with st := .empty }) := by simp [linkAdvance, h]

end

/-- Settles O20, one clause per state of the slot. -/
theorem pollReportsTheReceiveSlot : Obligations.PollReportsTheReceiveSlot :=
  fun _ => ⟨fun hs => raises_of_exec (congrArg conclude (linkPoll_of_empty hs)),
    fun hs => keepsBlock_of_exec (congrArg conclude (linkPoll_of_inFlight hs)),
    fun hs => keepsBlock_of_exec (congrArg conclude (linkPoll_of_complete hs))⟩

/-- Settles O21, one clause per state of the slot. -/
theorem finishReclaimsTheBuffer : Obligations.FinishReclaimsTheBuffer :=
  fun _ => ⟨fun hs => raises_of_exec (congrArg conclude (linkFinish_of_empty hs)),
    fun hs => raises_of_exec (congrArg conclude (linkFinish_of_inFlight hs)),
    fun hs => ⟨_, congrArg conclude (linkFinish_of_complete hs), endsWith_finish _ rfl rfl rfl, rfl, rfl, rfl⟩⟩

/-- Settles O22, one clause per state of the slot. -/
theorem txadvReleasesTheSlot : Obligations.TxadvReleasesTheSlot :=
  fun _ => ⟨fun hs => ⟨_, congrArg conclude (linkAdvance_of_complete hs), endsWith_finish _ rfl rfl rfl, rfl, rfl, rfl⟩,
    fun hs => keepsBlock_of_exec (congrArg conclude (linkAdvance_of_inFlight hs)),
    fun hs => keepsBlock_of_exec (congrArg conclude (linkAdvance_of_empty hs))⟩

/-! ## The agents DmaTx, DmaRx and Peer (rules R175 to R178) -/

theorem dmaTxStep_of_inFlight {s : State} (hs : s.tx.st = .inFlight) (hp : s.tx.pos < s.cfg.txCap) :
    dmaTxStep s = .next ((s.emitLine (Memory.read s.txb s.tx.pos)).withTx
      ⟨if s.tx.pos + 1 = s.tx.len then .complete else .inFlight, s.tx.len, s.tx.pos + 1⟩) := by
  have hin : s.tx.pos + 1 ≤ s.sizeOf .txb := hp
  simp [dmaTxStep, hs, State.memRead_of_le hin, Memory.readBytes, List.range_succ, State.bytesOf]

theorem dmaTxStep_of_not_inFlight {s : State} (hs : s.tx.st ≠ .inFlight) : dmaTxStep s = .refused (.notEnabled .dmaTx) := by
  simp [dmaTxStep, hs]

/-- Settles O23: the next byte of a frame in flight lies in `TXB`. -/
theorem dmaTxMovesOneByte : Obligations.DmaTxMovesOneByte := by
  intro s rest hinv hi
  have hstep : step s = dmaTxStep (s.withInputs rest) := step_of_input (inv_valid hinv) hi
  refine ⟨fun hs => ?_, fun hs => hstep.trans (dmaTxStep_of_not_inFlight hs)⟩
  obtain ⟨hpos, hcap, -, -⟩ := inv_txInFlight hinv hs
  exact ⟨_, hstep.trans (dmaTxStep_of_inFlight hs (Nat.lt_of_lt_of_le hpos hcap)), rfl, rfl, rfl⟩

theorem dmaRxStep_of_inFlight {s : State} {b : Byte} {line : List Byte} (hl : s.rxLine = b :: line) (hs : s.rx.st = .inFlight)
    (hb : s.rx.buf < s.cfg.nRxBuf) (hc : s.rx.cnt < s.cfg.rxCap) :
    dmaRxStep s = .next { s with
      rxLine := line
      rxb := s.rxb.set s.rx.buf (Memory.write (s.rxb.getD s.rx.buf []) s.rx.cnt b)
      rx := ⟨if s.rx.cnt + 1 = s.rx.len then .complete else .inFlight, s.rx.buf, s.rx.len, s.rx.cnt + 1⟩ } := by
  have hin : s.rx.cnt + [b].length ≤ (s.withRxLine line).sizeOf (.rxb s.rx.buf) := by simpa [State.sizeOf, hb] using hc
  simp only [dmaRxStep, hl, hs, if_true, dmaRxStore, State.withRxLine_rx, State.memWrite_of_le hin]
  rfl

theorem dmaRxStep_of_not_inFlight {s : State} {b : Byte} {line : List Byte} (hl : s.rxLine = b :: line) (hs : s.rx.st ≠ .inFlight) :
    dmaRxStep s = .next (s.withRxLine line).countLost := by
  simp [dmaRxStep, hl, hs]

theorem dmaRxStep_of_nil {s : State} (hl : s.rxLine = []) : dmaRxStep s = .refused (.notEnabled .dmaRx) := by
  simp [dmaRxStep, hl]

/-- Settles O24: the next offset of a transfer in flight lies in the armed buffer, which exists. -/
theorem dmaRxStoresOrDropsOneByte : Obligations.DmaRxStoresOrDropsOneByte := by
  intro s rest hinv hi
  have hstep : step s = dmaRxStep (s.withInputs rest) := step_of_input (inv_valid hinv) hi
  refine ⟨fun b line hl hs => ?_, fun b line hl hs => ?_, fun hl => hstep.trans (dmaRxStep_of_nil hl)⟩
  · obtain ⟨hcnt, hcap, hbuf⟩ := inv_rxInFlight hinv hs
    obtain ⟨-, hnum, -⟩ := State.storageOk_iff.1 (inv_storage hinv)
    have hwf := wf_rxb hinv s.rx.buf
    have hself : ∀ m : Memory, (s.rxb.set s.rx.buf m).getD s.rx.buf [] = m := by simp [hnum, hbuf]
    refine ⟨_, hstep.trans (dmaRxStep_of_inFlight hl hs hbuf (Nat.lt_of_lt_of_le hcnt hcap)), rfl, ?_, ?_, ?_, rfl, rfl⟩
    · exact (congrArg (Memory.read · s.rx.cnt) (hself _)).trans (Memory.read_write_self s.rx.cnt b hwf)
    · intro a ha
      exact (congrArg (Memory.read · a) (hself _)).trans (Memory.read_write_other b ha hwf)
    · intro k hk
      simp [List.getElem?_set_ne (Ne.symm hk)]
  · exact ⟨_, hstep.trans (dmaRxStep_of_not_inFlight hl hs), rfl, rfl, rfl⟩

/-- Settles O25: the step of agent Peer is always enabled. -/
theorem peerAppendsOneByte : Obligations.PeerAppendsOneByte :=
  fun _ _ _ hv hi => ⟨_, step_of_input hv hi, rfl, rfl⟩

/-! ## The life of a receive transfer (rule R169) -/

/-- Of the instructions, RECEIVE arms the slot and FINISH empties it. -/
theorem receive_of_ends {i : Instr} {s s' : State} {r : Result} (h : Ends i s r s') :
    s'.rx = s.rx ∨ ((∃ k len, i = .receive k len) ∧ s.rx.st = .empty ∧ s'.rx.st = .inFlight)
      ∨ (i = .finish ∧ s.rx.st = .complete ∧ s'.rx.st = .empty) := by
  cases h with
  | armed k len hi _ _ hs => exact .inr (.inl ⟨⟨k, len, hi⟩, hs, rfl⟩)
  | finished hi hs => exact .inr (.inr ⟨hi, hs, rfl⟩)
  | dispatched t o => rw [dispatchPair_frame]; exact .inl rfl
  | _ => exact .inl rfl

/-- Of the later steps, a LEDCPOLL's second empties it and its last arms it. -/
theorem receive_of_resumes {p : Pending} {s t : State} (h : Resumes p s t) :
    t.rx = s.rx ∨ ((∃ k len, p = .pollRearm k len) ∧ s.rx.st = .empty ∧ t.rx.st = .inFlight)
      ∨ ((∃ k len, p = .pollFinish k len) ∧ s.rx.st = .complete ∧ t.rx.st = .empty) := by
  cases h with
  | finished k len hp hs => exact .inr (.inr ⟨⟨k, len, hp⟩, hs, rfl⟩)
  | rearmed k len hp _ _ hs => exact .inr (.inl ⟨⟨k, len, hp⟩, hs, rfl⟩)
  | dispatched j k len t o => rw [dispatchPair_frame]; exact .inl rfl
  | _ => exact .inl rfl

/-- Settles O55, by cases on what a step can do. -/
theorem receiveTransferLifecycle : Obligations.ReceiveTransferLifecycle := by
  intro s t hr h hne
  obtain rfl | ⟨i, rest, hi, hnr, ht⟩ := takes_of_step hr h
  · exact absurd rfl hne
  · cases ht with
    | ends enc ins r s' he hop hd hends =>
      subst he
      have hp := presentsNext_of_present hi hop hd
      obtain hrx | ⟨⟨k, len, rfl⟩, hs, ht⟩ | ⟨rfl, hs, ht⟩ := receive_of_ends hends
      · exact absurd (congrArg RxSlot.st hrx) hne
      · exact .inl ⟨hs, ht, .inl ⟨k, len, hp⟩⟩
      · exact .inr (.inr ⟨hs, ht, .inl hp⟩)
    | resumes p t he hop hq =>
      subst he
      have hp : s.resumesNext = some p := (resumesNext_of_resume hi).trans hop
      obtain hrx | ⟨⟨k, len, rfl⟩, hs, ht⟩ | ⟨⟨k, len, rfl⟩, hs, ht⟩ := receive_of_resumes hq
      · exact absurd (congrArg RxSlot.st hrx) hne
      · exact .inl ⟨hs, ht, .inr ⟨k, len, hp⟩⟩
      · exact .inr (.inr ⟨hs, ht, .inr ⟨k, len, hp⟩⟩)
    | stored b line he _ hs =>
      by_cases hlast : s.rx.cnt + 1 = s.rx.len
      · exact .inr (.inl ⟨hs, if_pos hlast, by rw [hi, he]; rfl⟩)
      · exact absurd ((if_neg hlast).trans hs.symm) hne
    | reset p hp => exact absurd hp (hnr p)
    | _ => exact absurd rfl hne

end Sys2Proof.Machine
end

section
/-! Proof that the presenting context does not matter (rules R180, R290): every operation reads and writes the block alone, so it commutes
with an exchange of the stack of contexts and of the results given. -/
namespace Sys2Proof.Machine

/-- `s` with the stack of contexts and the results of `x`. -/
def State.inContextsOf (x s : State) : State := { s with answers := x.answers, handlers := x.handlers, mainOp := x.mainOp }

/-- `s` has the stack of contexts and the results of `x`. -/
def SameContexts (x s : State) : Prop := s.answers = x.answers ∧ s.handlers = x.handlers ∧ s.mainOp = x.mainOp

/-- An answer with the contexts of its state exchanged. -/
def answerInContextsOf (x : State) : Answered → Answered
  | .next (r, s) => .next (r, x.inContextsOf s)
  | .fault f => .fault f
  | .refused r => .refused r

/-- An operation that neither reads nor writes the contexts: exchanging them before it and after it is the same. -/
def BlindToContexts (op : State → Answered) : Prop := ∀ x s, op (x.inContextsOf s) = answerInContextsOf x (op s)

/-! ## The block in other contexts -/

@[simp] theorem State.inContextsOf_cfg (x s : State) : (x.inContextsOf s).cfg = s.cfg := rfl
@[simp] theorem State.inContextsOf_tx (x s : State) : (x.inContextsOf s).tx = s.tx := rfl
@[simp] theorem State.inContextsOf_rx (x s : State) : (x.inContextsOf s).rx = s.rx := rfl
@[simp] theorem State.inContextsOf_freeTick (x s : State) : (x.inContextsOf s).freeTick = s.freeTick := rfl

@[simp] theorem State.memRead_inContextsOf (x s : State) (sp : Space) (a n : Nat) :
    (x.inContextsOf s).memRead sp a n = s.memRead sp a n := rfl

/-- The contexts lie outside the byte spaces. -/
theorem State.memWrite_inContextsOf (x s : State) (sp : Space) (a : Nat) (bs : List Byte) :
    (x.inContextsOf s).memWrite sp a bs = (s.memWrite sp a bs).map x.inContextsOf := by
  unfold State.memWrite
  rw [apply_ite (Option.map _)]
  cases sp <;> rfl

/-! ## The operations, each along the branches of its definition -/

theorem answerInContextsOf_ite {x : State} {c : Prop} [Decidable c] (a b : Answered) :
    answerInContextsOf x (if c then a else b) = if c then answerInContextsOf x a else answerInContextsOf x b := apply_ite ..

theorem blind_raise (f : FaultRecord) : BlindToContexts fun s => s.raise f := fun _ _ => rfl

theorem blind_linkSend (t o : Byte) (p : List Byte) : BlindToContexts (linkSend t o p) := by
  intro x s
  unfold linkSend
  rw [State.memWrite_inContextsOf, answerInContextsOf_ite, answerInContextsOf_ite]
  cases s.memWrite .txb 0 (encodeFrame t o p) <;> rfl

theorem blind_linkSendStaged (t o n : Byte) : BlindToContexts (linkSendStaged t o n) := by
  intro x s
  rw [linkSendStaged_eq, linkSendStaged_eq]
  exact blind_linkSend t o _ x s

theorem blind_thenFlip {op : State → Answered} (h : BlindToContexts op) : BlindToContexts fun s => thenFlip (op s) := by
  intro x s
  simp only [h x s]
  cases op s with
  | next a =>
    obtain ⟨r, u⟩ := a
    cases r <;> rfl
  | fault f => rfl
  | refused r => rfl

theorem blind_linkReceive (k len : Byte) : BlindToContexts (linkReceive k len) := by
  intro x s
  unfold linkReceive
  rw [answerInContextsOf_ite, answerInContextsOf_ite, answerInContextsOf_ite]
  rfl

theorem blind_linkPoll : BlindToContexts linkPoll := by
  intro x s
  unfold linkPoll
  rw [State.inContextsOf_rx]
  split <;> rfl

theorem blind_linkFinish : BlindToContexts linkFinish := by
  intro x s
  unfold linkFinish
  rw [State.inContextsOf_rx]
  split <;> rfl

theorem blind_linkAdvance : BlindToContexts linkAdvance := by
  intro x s
  unfold linkAdvance
  rw [State.inContextsOf_tx]
  split <;> rfl

theorem blind_parseBuffer (k : Nat) : BlindToContexts (parseBuffer k) := by
  intro x s
  unfold parseBuffer
  simp only [State.memRead_inContextsOf]
  rw [State.inContextsOf_rx, State.inContextsOf_cfg]
  split
  · rfl
  · split
    · split
      · rfl
      · split
        · rfl
        · split <;> rfl
    · rfl

theorem logAck_inContextsOf (o : Byte) (x s : State) : logAck o (x.inContextsOf s) = x.inContextsOf (logAck o s) := by
  unfold logAck
  rw [State.inContextsOf_cfg, State.inContextsOf_freeTick]
  split
  · rfl
  · rfl
  · split <;> rfl

theorem dispatchPair_inContextsOf (t o : Byte) (x s : State) :
    dispatchPair t o (x.inContextsOf s) = x.inContextsOf (dispatchPair t o s) := by
  unfold dispatchPair
  rw [State.inContextsOf_cfg, logAck_inContextsOf]
  split <;> rfl

theorem blind_dispatchPair (t o : Byte) : BlindToContexts fun s => .next (.ok, dispatchPair t o s) := by
  intro x s
  simp only [dispatchPair_inContextsOf]
  rfl

/-! ## The steps of an instruction -/

/-- The answers that one operation gives from `s` and from `s` in the contexts of `x`. -/
inductive AnswersAlike (s x : State) : Answered → Answered → Prop where
  | next (r : Result) (u : State) (hu : SameContexts s u) : AnswersAlike s x (.next (r, u)) (.next (r, x.inContextsOf u))
  | fault (f : Fault) : AnswersAlike s x (.fault f) (.fault f)
  | refused (r : Refusal) : AnswersAlike s x (.refused r) (.refused r)

/-- Exchanged for themselves, the contexts are as they were: an operation that does not see them leaves them. -/
theorem BlindToContexts.alike {op : State → Answered} (h : BlindToContexts op) (s x : State) :
    AnswersAlike s x (op s) (op (x.inContextsOf s)) := by
  have hself : op s = answerInContextsOf s (op s) := h s s
  rw [h x s]
  generalize op s = a at hself ⊢
  match a with
  | .next (r, u) =>
    have hu : u = s.inContextsOf u := by simpa [answerInContextsOf] using hself
    exact .next r u (hu ▸ ⟨rfl, rfl, rfl⟩)
  | .fault f => exact .fault f
  | .refused r => exact .refused r

/-- The steps that one instruction takes from `s` and from `s` in the contexts of `x`: the same result or pause, on the same block. -/
inductive StepsAlike (s x : State) : Next → Next → Prop where
  | ends (r : Result) (u : State) (hu : SameContexts s u) : StepsAlike s x (.next (u.finish r)) (.next ((x.inContextsOf u).finish r))
  | pauses (p : Pending) (u : State) (hu : SameContexts s u) :
      StepsAlike s x (.next (u.suspend p)) (.next ((x.inContextsOf u).suspend p))
  | fault (f : Fault) : StepsAlike s x (.fault f) (.fault f)
  | refused (r : Refusal) : StepsAlike s x (.refused r) (.refused r)

theorem StepsAlike.ite {s x : State} {c : Prop} [Decidable c] {a b a' b' : Next} (ha : StepsAlike s x a a') (hb : StepsAlike s x b b') :
    StepsAlike s x (if c then a else b) (if c then a' else b') := by
  split
  · exact ha
  · exact hb

section
variable (s x : State)

/-- An operation that does not see the contexts, concluded. -/
theorem stepsAlike_conclude {op : State → Answered} (h : BlindToContexts op) :
    StepsAlike s x (conclude (op s)) (conclude (op (x.inContextsOf s))) := by
  have ha := h.alike s x
  generalize op s = a, op (x.inContextsOf s) = b at ha ⊢
  cases ha with
  | next r u hu => exact .ends r u hu
  | fault f => exact .fault f
  | refused r => exact .refused r

theorem stepsAlike_raise (f : FaultRecord) : StepsAlike s x (conclude (s.raise f)) (conclude ((x.inContextsOf s).raise f)) :=
  stepsAlike_conclude s x (blind_raise f)

theorem stepsAlike_epscRead (e : Byte) (p : Reg → Pending) : StepsAlike s x (epscRead s e p) (epscRead (x.inContextsOf s) e p) :=
  .ite (.ite (.pauses (p (s.eprAt e.toNat)) s ⟨rfl, rfl, rfl⟩) (.fault _)) (stepsAlike_raise s x _)

theorem stepsAlike_epscWrite (e : Byte) (w : Reg) : StepsAlike s x (epscWrite s e w) (epscWrite (x.inContextsOf s) e w) :=
  .ite (.ends .ok (s.eprWrite e.toNat w) ⟨rfl, rfl, rfl⟩) (.fault _)

theorem stepsAlike_execLedcpoll (k len : Byte) : StepsAlike s x (execLedcpoll k len s) (execLedcpoll k len (x.inContextsOf s)) := by
  refine .ite (stepsAlike_raise s x _) (.ite (stepsAlike_raise s x _) ?_)
  have ha := blind_linkPoll.alike s x
  generalize linkPoll s = a, linkPoll (x.inContextsOf s) = b at ha ⊢
  cases ha with
  | next r u hu =>
    cases r with
    | ok => exact .pauses _ u hu
    | _ => exact .ends _ u hu
  | fault f => exact .fault f
  | refused r => exact .refused r

/-- The first step of every instruction. -/
theorem stepsAlike_exec (i : Instr) : StepsAlike s x (exec i s) (exec i (x.inContextsOf s)) := by
  have send : ∀ t o p, StepsAlike s x (conclude (linkSend t o p s)) (conclude (linkSend t o p (x.inContextsOf s))) :=
    fun t o p => stepsAlike_conclude s x (blind_linkSend t o p)
  have dispatch : ∀ t o, StepsAlike s x (conclude (.next (.ok, dispatchPair t o s)))
      (conclude (.next (.ok, dispatchPair t o (x.inContextsOf s)))) :=
    fun t o => stepsAlike_conclude s x (blind_dispatchPair t o)
  cases i with
  | settx | setrx | clrtx | clrrx => exact stepsAlike_epscRead s x _ _
  | receive k len => exact stepsAlike_conclude s x (blind_linkReceive k len)
  | poll => exact stepsAlike_conclude s x blind_linkPoll
  | finish => exact stepsAlike_conclude s x blind_linkFinish
  | txadv => exact stepsAlike_conclude s x blind_linkAdvance
  | parse k => exact .ite (stepsAlike_conclude s x (blind_parseBuffer k.toNat)) (stepsAlike_raise s x _)
  | toggle => exact stepsAlike_conclude s x (blind_thenFlip (blind_linkSend _ _ _))
  | btmode mode => exact .ite (send _ _ _) (stepsAlike_raise s x _)
  | ledcpoll k len => exact stepsAlike_execLedcpoll s x k len
  | send | sendmusic | setkeys => exact stepsAlike_conclude s x (blind_linkSendStaged _ _ _)
  | dispatch | frameAckThemeMode | frameAckConfigCmd | frameAckSetIndividualKeys | frameOther => exact dispatch _ _
  | thememode | nexttheme | nextbright | nextspeed | settheme | sendkeys | getthemeid => exact send _ _ _
  | frameThemeModeReassert | frameThemeModeSet | frameConfigCmdTheme | frameConfigCmdBrightness | frameConfigCmdSpeed | frameKey
    | frameMusic | frameGetThemeId | frameSetIndividualKeys | frameSetIndividualKeysBluetooth => exact send _ _ _

theorem stepsAlike_resumePollFinish (k len : Byte) :
    StepsAlike s x (resumePollFinish k len s) (resumePollFinish k len (x.inContextsOf s)) := by
  have ha := blind_linkFinish.alike s x
  unfold resumePollFinish
  generalize linkFinish s = a, linkFinish (x.inContextsOf s) = b at ha ⊢
  cases ha with
  | next r u hu =>
    cases r with
    | okBuffer j => exact .pauses _ u hu
    | _ => exact .ends _ u hu
  | fault f => exact .fault f
  | refused r => exact .refused r

theorem stepsAlike_resumePollParse (j : Nat) (k len : Byte) :
    StepsAlike s x (resumePollParse j k len s) (resumePollParse j k len (x.inContextsOf s)) := by
  have ha := (blind_parseBuffer j).alike s x
  unfold resumePollParse
  generalize parseBuffer j s = a, parseBuffer j (x.inContextsOf s) = b at ha ⊢
  cases ha with
  | next r u hu =>
    cases r with
    | okMessage m =>
      simp only [dispatchPair_inContextsOf]
      exact .pauses _ _ (by rw [dispatchPair_frame]; exact hu)
    | _ => exact .ends _ u hu
  | fault f => exact .fault f
  | refused r => exact .refused r

/-- The later steps of an operation. -/
theorem stepsAlike_resumePending (p : Pending) : StepsAlike s x (resumePending p s) (resumePending p (x.inContextsOf s)) := by
  cases p with
  | statusWrite | clearWrite => exact stepsAlike_epscWrite s x _ _
  | pollFinish k len => exact stepsAlike_resumePollFinish s x k len
  | pollParse j k len => exact stepsAlike_resumePollParse s x j k len
  | pollRearm k len => exact stepsAlike_conclude s x (blind_linkReceive k len)

end

/-- Steps alike have the same effect on the block, and end with the same result or pause holding the same operation. -/
theorem StepsAlike.of_next {s x t : State} {o : Next} (h : StepsAlike s x (.next t) o) :
    ∃ t', o = .next t' ∧ t' = { t with ind := t'.ind, answers := t'.answers, handlers := t'.handlers, mainOp := t'.mainOp }
      ∧ ((∃ r, EndsWith s t r ∧ EndsWith (x.inContextsOf s) t' r)
        ∨ ∃ p, PausesWith s t p ∧ PausesWith (x.inContextsOf s) t' p) := by
  cases h with
  | ends r u hu =>
    obtain ⟨ha, hh, hm⟩ := hu
    exact ⟨_, rfl, rfl, .inl ⟨r, endsWith_finish r ha hh hm, endsWith_finish r rfl rfl rfl⟩⟩
  | pauses p u hu =>
    obtain ⟨ha, hh, hm⟩ := hu
    exact ⟨_, rfl, rfl, .inr ⟨p, pausesWith_suspend p ha hh hm, pausesWith_suspend p rfl rfl rfl⟩⟩

/-- Settles O43: the state with another stack is the state in the contexts of that one. -/
theorem presentingContextDoesNotMatter : Obligations.PresentingContextDoesNotMatter := by
  intro s t hs m s'
  exact ⟨fun i h => (h ▸ stepsAlike_exec s s' i).of_next,
    fun p h => (h ▸ stepsAlike_resumePending s s' p).of_next⟩

end Sys2Proof.Machine
end

section
/-! Proofs of the LED Link Protocol's operations: PARSE and the round trip with ENCODE (rules R202, R210, R211), DISPATCH (rule R216), and a
LEDCPOLL whose frame PARSE rejects (rules R260, R262). -/
namespace Sys2Proof.Machine

/-! ## What PARSE answers on a buffer that exists, in the order of rule R273 -/

/-- A buffer that agent `DmaRx` owns. -/
theorem parseBuffer_notOwned {s : State} {k : Nat} (ho : s.rx.st = .inFlight ∧ s.rx.buf = k) :
    parseBuffer k s = s.raise (.bufferNotOwned k) := if_pos ho

section
variable {s : State} {k : Nat} (hv : s.cfg.valid = true) (hk : k < s.cfg.nRxBuf) (ho : ¬(s.rx.st = .inFlight ∧ s.rx.buf = k))
include hv hk ho

/-- A length byte that counts not even the opcode. -/
theorem parseBuffer_lengthZero (h0 : (Memory.read (s.rxb.getD k []) 1).toNat = 0) :
    parseBuffer k s = s.raise (.parseLengthZero k) := by
  rw [parseBuffer_eq hv hk ho, if_pos h0]

variable (h0 : (Memory.read (s.rxb.getD k []) 1).toNat ≠ 0)
include h0

/-- A declared frame that lies in the buffer. -/
theorem parseBuffer_message (hl : (Memory.read (s.rxb.getD k []) 1).toNat + 2 ≤ s.cfg.rxCap) :
    parseBuffer k s =
      .next (.okMessage ⟨Memory.read (s.rxb.getD k []) 0, Memory.read (s.rxb.getD k []) 2,
        Memory.readBytes (s.rxb.getD k []) 3 ((Memory.read (s.rxb.getD k []) 1).toNat - 1)⟩, s) := by
  rw [parseBuffer_eq hv hk ho, if_neg h0, if_pos hl]

variable (hl : s.cfg.rxCap < (Memory.read (s.rxb.getD k []) 1).toNat + 2)
include hl

/-- A declared frame that leaves the buffer, with the check on. -/
theorem parseBuffer_bounds (hb : s.cfg.parseBoundsCheck = true) :
    parseBuffer k s = s.raise (.parseBounds k (Memory.read (s.rxb.getD k []) 1).toNat) := by
  rw [parseBuffer_eq hv hk ho, if_neg h0, if_neg (Nat.not_le.2 hl), if_pos hb]

/-- A declared frame that leaves the buffer, with the check off (U3). -/
theorem parseBuffer_pastBuffer (hb : s.cfg.parseBoundsCheck = false) : parseBuffer k s = .refused .parsePastBuffer := by
  rw [parseBuffer_eq hv hk ho, if_neg h0, if_neg (Nat.not_le.2 hl), if_neg (Bool.eq_false_iff.1 hb)]

end

/-! ## PARSE (rule R210) -/

theorem exec_parse_badBuffer {s : State} {k : Byte} (hk : s.cfg.nRxBuf ≤ k.toNat) :
    exec (.parse k) s = conclude (s.raise (.badBuffer k)) := if_neg (mt bufferOk_iff.1 (Nat.not_lt.2 hk))

theorem exec_parse_eq {s : State} {k : Byte} (hk : k.toNat < s.cfg.nRxBuf) :
    exec (.parse k) s = conclude (parseBuffer k.toNat s) := if_pos (bufferOk_iff.2 hk)

/-- What PARSE of an existing buffer answers is its whole effect. -/
theorem exec_parse_of_parseBuffer {s : State} {k : Byte} {a : Answered} (hk : k.toNat < s.cfg.nRxBuf)
    (h : parseBuffer k.toNat s = a) : exec (.parse k) s = conclude a := (exec_parse_eq hk).trans (congrArg conclude h)

/-- Settles O26, one clause per check in the order of rule R273. -/
theorem parseReadsTheBuffer : Obligations.ParseReadsTheBuffer := by
  intro s k hinv
  have hv := inv_valid hinv
  refine ⟨fun hk => raises_of_exec (exec_parse_badBuffer hk),
    fun hk ho => raises_of_exec (exec_parse_of_parseBuffer hk (parseBuffer_notOwned ho)),
    fun hk ho => ⟨fun h0 => ?_, fun h0 hl => ?_, fun h0 hl => ⟨fun hb => ?_, fun hb => ?_⟩⟩⟩
  · exact raises_of_exec (exec_parse_of_parseBuffer hk (parseBuffer_lengthZero hv hk ho h0))
  · obtain ⟨t, he, hends, hkeep⟩ := keepsBlock_of_exec (exec_parse_of_parseBuffer hk (parseBuffer_message hv hk ho h0 hl))
    exact ⟨t, he, hkeep, hends⟩
  · exact raises_of_exec (exec_parse_of_parseBuffer hk (parseBuffer_bounds hv hk ho h0 hl hb))
  · exact exec_parse_of_parseBuffer hk (parseBuffer_pastBuffer hv hk ho h0 hl hb)

/-! ## The round trip (rule R202) -/

theorem Memory.readBytes_succ (m : Memory) (a n : Nat) :
    Memory.readBytes m a (n + 1) = Memory.read m a :: Memory.readBytes m (a + 1) n := by
  simp [Memory.readBytes, List.range_succ_eq_map, Function.comp_def, Nat.add_assoc, Nat.add_comm 1]

/-- A memory that begins with an encoded frame, part by part (rule R200). -/
theorem parts_of_readBytes_eq_encodeFrame {m : Memory} {t o : Byte} {p : List Byte}
    (h : Memory.readBytes m 0 (3 + p.length) = encodeFrame t o p) :
    Memory.read m 0 = t ∧ Memory.read m 1 = BitVec.ofNat 8 (1 + p.length) ∧ Memory.read m 2 = o
      ∧ Memory.readBytes m 3 p.length = p := by
  rw [Nat.add_comm, Memory.readBytes_succ, Memory.readBytes_succ, Memory.readBytes_succ] at h
  simpa [encodeFrame] using h

/-- Settles O27: the length byte of an encoded frame does not overflow, so it counts the opcode and the payload. -/
theorem parseOfAnEncodedFrame : Obligations.ParseOfAnEncodedFrame := by
  intro s k t o p hinv hk ho hp hframe
  have hv := inv_valid hinv
  obtain ⟨ht, hlen, hop, hdata⟩ := parts_of_readBytes_eq_encodeFrame hframe
  have hfits : p.length ≤ 254 := (fits_of_le_maxPay hv (hp.trans (min_le_left _ _))).2
  have hcap : 3 ≤ s.cfg.rxCap := by
    obtain ⟨-, -, -, -, hcap, -⟩ := sizes_of_valid hv
    exact hcap
  have hl : (Memory.read (s.rxb.getD k.toNat []) 1).toNat = 1 + p.length := by
    rw [hlen, BitVec.toNat_ofNat, Nat.mod_eq_of_lt (by omega)]
  have hparse := parseBuffer_message hv hk ho (by omega) (by omega)
  rw [hl, ht, hop, Nat.add_sub_cancel_left, hdata] at hparse
  exact keepsBlock_of_exec (exec_parse_of_parseBuffer hk hparse)

/-! ## DISPATCH (rule R216) -/

/-- Settles O28: the instruction is one DISPATCH of its operands. -/
theorem dispatchLogsOrDrops : Obligations.DispatchLogsOrDrops := fun _ _ _ => behavesAsDispatch_of_dispatchPair rfl

/-! ## A LEDCPOLL whose frame PARSE rejects (rules R260, R262) -/

/-- The buffer that a LEDCPOLL holds between FINISH and PARSE exists. -/
theorem held_buffer_exists {s : State} {j : Nat} {k len : Byte} (h : s.inv = true) (ht : s.topOp = some (.pollParse j k len)) :
    j < s.cfg.nRxBuf := by
  have hp := inv_pendings h (State.topOp_mem_pendings ht)
  simp only [State.pendingOk, Bool.and_eq_true, decide_eq_true_eq] at hp
  exact hp.1.1

/-- Step 3 of a LEDCPOLL, through what PARSE answers there. -/
theorem resumeStep_pollParse {s : State} {j : Nat} {k len : Byte} {a : Answered} (ht : s.topOp = some (.pollParse j k len))
    (h : parseBuffer j s = a) (hm : ∀ m u, a ≠ .next (.okMessage m, u)) : resumeStep s = conclude a := by
  rw [resumeStep_of_topOp ht, resumePending, resumePollParse, h]
  split
  · exact absurd rfl (hm _ _)
  · rfl

/-- A parse fault ends the LEDCPOLL at step 3, with the slot as it was. -/
theorem resumeStep_pollParse_raises {s : State} {j : Nat} {k len : Byte} {f : FaultRecord}
    (ht : s.topOp = some (.pollParse j k len)) (h : parseBuffer j s = s.raise f) :
    ∃ t, resumeStep s = .next t ∧ Raises s t f ∧ t.rx = s.rx :=
  ⟨_, resumeStep_pollParse ht h (by simp [State.raise]), raises_raise s f, rfl⟩

/-- Settles O38, one clause per way PARSE rejects the frame. -/
theorem ledcpollParseFaultEndsIt : Obligations.LedcpollParseFaultEndsIt := by
  intro s j k len hinv ht
  have hv := inv_valid hinv
  have hj := held_buffer_exists hinv ht
  refine ⟨fun ho => resumeStep_pollParse_raises ht (parseBuffer_notOwned ho),
    fun ho => ⟨fun h0 => ?_, fun h0 hl => ⟨fun hb => ?_, fun hb => ?_⟩⟩⟩
  · exact resumeStep_pollParse_raises ht (parseBuffer_lengthZero hv hj ho h0)
  · exact resumeStep_pollParse_raises ht (parseBuffer_bounds hv hj ho h0 hl hb)
  · exact resumeStep_pollParse ht (parseBuffer_pastBuffer hv hj ho h0 hl hb) (by simp)

end Sys2Proof.Machine
end

section
/-! Proofs of the commands of the LED Controller, each one SEND (rules R230 to R250), of the packing of the key states (rules R103, R244),
and of a LEDCPOLL's four steps (rules R260 to R262) with what keeps the receive slot for it (rule R330). -/
namespace Sys2Proof.Machine

/-! ## The commands that are one SEND (rule R230) -/

/-- Settles O29: every fixed frame is one SEND. -/
theorem fixedFrameCommandsSend : Obligations.FixedFrameCommandsSend :=
  fun _ h => ⟨behavesAsSend_of_linkSend h rfl, fun _ => behavesAsSend_of_linkSend h rfl, behavesAsSend_of_linkSend h rfl,
    behavesAsSend_of_linkSend h rfl, behavesAsSend_of_linkSend h rfl, behavesAsSend_of_linkSend h rfl⟩

/-- Settles O30: a staged SEND is the SEND of the staged bytes. -/
theorem payloadCommandsSend : Obligations.PayloadCommandsSend :=
  fun _ _ h => ⟨behavesAsSend_of_linkSend h (congrArg conclude linkSendStaged_eq),
    behavesAsSend_of_linkSend h (congrArg conclude linkSendStaged_eq)⟩

/-- Settles O31: the instruction is one SEND of the packed keys. -/
theorem sendkeysSendsThePackedKeys : Obligations.SendkeysSendsThePackedKeys := fun _ h => behavesAsSend_of_linkSend h rfl

/-! ## The packing of the keys (rules R103, R244) -/

theorem keyPos_lt (c : Config) (i : Nat) : c.keyPos i < 8 := by
  unfold Config.keyPos
  split <;> omega

/-- The keys of one byte stand at distinct bits. -/
theorem eq_of_keyPos_eq {c : Config} {i i' : Nat} (hbyte : i / 8 = i' / 8) (h : c.keyPos i = c.keyPos i') : i = i' := by
  unfold Config.keyPos at h
  split at h <;> omega

/-- One bit set in a byte. -/
theorem getLsbD_or_one_shiftLeft (b : Byte) (p : Nat) {q : Nat} (hq : q < 8) :
    (b ||| ((1 : Byte) <<< p)).getLsbD q = true ↔ b.getLsbD q = true ∨ p = q := by
  have hone : ((1 : Byte) <<< p).getLsbD q = true ↔ p = q := by simp [hq]; omega
  rw [BitVec.getLsbD_or, Bool.or_eq_true, hone]

/-- Setting bits one after the other: a bit is set when it was before or when one of them is it. -/
theorem getLsbD_foldl_setBit (P : Nat → Prop) [DecidablePred P] (pos : Nat → Nat) {q : Nat} (hq : q < 8) (l : List Nat) (acc : Byte) :
    (l.foldl (fun acc b => if P b then acc ||| ((1 : Byte) <<< pos b) else acc) acc).getLsbD q = true
      ↔ acc.getLsbD q = true ∨ ∃ b ∈ l, P b ∧ pos b = q := by
  induction l generalizing acc with
  | nil => simp
  | cons b l ih =>
    rw [List.foldl_cons, ih]
    by_cases hb : P b
    · rw [if_pos hb, getLsbD_or_one_shiftLeft _ _ hq]
      simp [hb, or_assoc]
    · simp [hb]

/-- Of the eight keys of its byte, key `i` alone decides the bit at its position. -/
theorem getLsbD_packByte (c : Config) (ks : List Bool) (i : Nat) :
    (packByte c ks (i / 8)).getLsbD (c.keyPos i) = true ↔ i < c.nKeys ∧ ks.getD i false = true := by
  refine (getLsbD_foldl_setBit (fun b => 8 * (i / 8) + b < c.nKeys ∧ ks.getD (8 * (i / 8) + b) false = true)
    (fun b => c.keyPos (8 * (i / 8) + b)) (keyPos_lt c i) (List.range 8) 0).trans ⟨?_, fun h => .inr ⟨i % 8, ?_⟩⟩
  · rintro (h | ⟨b, hb, hkey, hpos⟩)
    · simp at h
    · have hb : b < 8 := List.mem_range.1 hb
      rwa [eq_of_keyPos_eq (by omega) hpos] at hkey
  · rw [Nat.div_add_mod]
    exact ⟨List.mem_range.2 (Nat.mod_lt i (by decide)), h, rfl⟩

/-- Key `i` of `Pack(KS)`, at its bit of byte `i div 8`. -/
theorem getLsbD_pack {c : Config} (ks : List Bool) {i : Nat} (hi : i / 8 < c.keyBytes) :
    ((pack c ks).getD (i / 8) 0).getLsbD (c.keyPos i) = true ↔ i < c.nKeys ∧ ks.getD i false = true := by
  have hbyte : (pack c ks).getD (i / 8) 0 = packByte c ks (i / 8) := by simp [pack, hi]
  rw [hbyte, getLsbD_packByte]

/-- Settles O32: a key's bit is set when there is such a key and it is pressed. -/
theorem packPlacesEveryKey : Obligations.PackPlacesEveryKey := by
  refine fun c ks => ⟨by simp [pack, Config.keyBytes], fun i hi => ?_, fun i hi hlast => ?_⟩
  · have hin : i / 8 < c.keyBytes := by unfold Config.keyBytes; omega
    exact Bool.eq_iff_iff.2 ((getLsbD_pack ks hin).trans (and_iff_right hi))
  · have hin : i / 8 < c.keyBytes := by unfold Config.keyBytes; omega
    exact Bool.eq_false_iff.2 fun h => Nat.not_lt.2 hi ((getLsbD_pack ks hin).1 h).1

/-! ## BTMODE (rule R250) -/

theorem modeOk_iff {c : Config} {mode : Byte} : modeOk c mode = true ↔ mode = c.btUnknown ∨ mode = c.btBle ∨ mode = c.btLegacy := by
  simp [modeOk, or_assoc]

/-- Settles O33: the mode is checked before the slot. -/
theorem btmodeSendsItsPayload : Obligations.BtmodeSendsItsPayload := by
  refine fun s mode hinv => ⟨fun hu hb hl => raises_of_exec (if_neg ?_),
    fun hm => behavesAsSend_of_linkSend hinv (if_pos (modeOk_iff.2 hm)), length_btPayload (inv_valid hinv) mode⟩
  rw [modeOk_iff]
  exact not_or.2 ⟨hu, not_or.2 ⟨hb, hl⟩⟩

/-! ## TOGGLE (rule R231) -/

/-- A valid record admits the payload of either frame of TOGGLE (log 33). -/
theorem togglePayload_fits {s : State} (h : s.inv = true) :
    (if s.ledState then [(0 : Byte)] else []).length ≤ s.cfg.maxPay := by
  obtain ⟨-, -, -, -, -, -, hkeys, hmax⟩ := sizes_of_valid (inv_valid h)
  split <;> simp only [List.length_singleton, List.length_nil] <;> omega

/-- TOGGLE, through what its SEND answers. -/
theorem exec_toggle_of_linkSend {s : State} {a : Answered}
    (h : linkSend s.cfg.mtLed s.cfg.opThemeMode (if s.ledState then [0] else []) s = a) :
    exec .toggle s = conclude (thenFlip a) := congrArg (fun x => conclude (thenFlip x)) h

/-- Settles O35, one clause per outcome of the SEND. -/
theorem toggleSendsAndFlips : Obligations.ToggleSendsAndFlips := by
  refine fun s => ⟨fun hinv hs => ?_, fun hinv hs => ?_, fun hled hmax => ?_⟩
  · have hfits := togglePayload_fits hinv
    exact ⟨_, exec_toggle_of_linkSend (linkSend_accepts (inv_valid hinv) hfits hs), endsWith_finish _ rfl rfl rfl,
      acceptsFrame_of_written (wf_txb hinv) (fits_of_le_maxPay (inv_valid hinv) hfits).2 rfl rfl rfl⟩
  · exact ⟨_, exec_toggle_of_linkSend (linkSend_busy (togglePayload_fits hinv) hs), endsWith_finish _ rfl rfl rfl,
      keepsBlock_finish s.flipLed _⟩
  · have hlong : linkSend s.cfg.mtLed s.cfg.opThemeMode (if s.ledState then [0] else []) s = s.raise (.sendTooLong 1) := by
      rw [if_pos hled]
      exact linkSend_tooLong (by simp [hmax])
    exact raises_of_exec (exec_toggle_of_linkSend hlong)

/-! ## LEDCPOLL, step 1 (rule R260) -/

theorem exec_ledcpoll_badBuffer {s : State} {k len : Byte} (hk : s.cfg.nRxBuf ≤ k.toNat) :
    exec (.ledcpoll k len) s = conclude (s.raise (.badBuffer k)) := by
  have hb : bufferOk s.cfg k = false := Bool.eq_false_iff.2 (mt bufferOk_iff.1 (Nat.not_lt.2 hk))
  simp [exec, execLedcpoll, hb]

theorem exec_ledcpoll_badLength {s : State} {k len : Byte} (hk : k.toNat < s.cfg.nRxBuf)
    (hl : len.toNat = 0 ∨ s.cfg.rxCap < len.toNat) : exec (.ledcpoll k len) s = conclude (s.raise (.badLength len)) := by
  have hb : lengthOk s.cfg len = false := Bool.eq_false_iff.2 (mt lengthOk_iff.1 (by omega))
  simp [exec, execLedcpoll, bufferOk_iff.2 hk, hb]

section
variable {s : State} {k len : Byte} (hk : k.toNat < s.cfg.nRxBuf) (hl : 0 < len.toNat ∧ len.toNat ≤ s.cfg.rxCap)
include hk hl

theorem exec_ledcpoll_of_empty (hs : s.rx.st = .empty) : exec (.ledcpoll k len) s = conclude (s.raise .noTransfer) := by
  simp [exec, execLedcpoll, bufferOk_iff.2 hk, lengthOk_iff.2 hl, linkPoll_of_empty hs, State.raise]

theorem exec_ledcpoll_of_inFlight (hs : s.rx.st = .inFlight) :
    exec (.ledcpoll k len) s = conclude (.next (.wouldBlock, s)) := by
  simp [exec, execLedcpoll, bufferOk_iff.2 hk, lengthOk_iff.2 hl, linkPoll_of_inFlight hs]

theorem exec_ledcpoll_of_complete (hs : s.rx.st = .complete) :
    exec (.ledcpoll k len) s = .next (s.suspend (.pollFinish k len)) := by
  simp [exec, execLedcpoll, bufferOk_iff.2 hk, lengthOk_iff.2 hl, linkPoll_of_complete hs]

end

/-- Settles O36, one clause per check in the order of rule R273, then one per state of the slot. -/
theorem ledcpollFirstStep : Obligations.LedcpollFirstStep := by
  refine fun s k len => ⟨fun hk => raises_of_exec (exec_ledcpoll_badBuffer hk),
    fun hk hl => raises_of_exec (exec_ledcpoll_badLength hk hl), fun hk hpos hcap => ⟨fun hs => ?_, fun hs => ?_, fun hs => ?_⟩⟩
  · exact raises_of_exec (exec_ledcpoll_of_empty hk ⟨hpos, hcap⟩ hs)
  · exact keepsBlock_of_exec (exec_ledcpoll_of_inFlight hk ⟨hpos, hcap⟩ hs)
  · exact ⟨_, exec_ledcpoll_of_complete hk ⟨hpos, hcap⟩ hs, pausesWith_suspend _ rfl rfl rfl, keepsBlock_suspend s _⟩

/-! ## LEDCPOLL, the later steps (rule R260) -/

/-- A later step that raises a fault. -/
theorem raises_of_resumeStep {s : State} {f : FaultRecord} (h : resumeStep s = conclude (s.raise f)) :
    ∃ t, resumeStep s = .next t ∧ Raises s t f := h ▸ conclude_raise s f

section
variable {s : State} {k len : Byte} (ht : s.topOp = some (.pollFinish k len))
include ht

theorem resumeStep_pollFinish_of_empty (hs : s.rx.st = .empty) : resumeStep s = conclude (s.raise .noTransfer) := by
  simp [resumeStep_of_topOp ht, resumePending, resumePollFinish, linkFinish_of_empty hs, State.raise]

theorem resumeStep_pollFinish_of_inFlight (hs : s.rx.st = .inFlight) : resumeStep s = conclude (s.raise .finishNotReady) := by
  simp [resumeStep_of_topOp ht, resumePending, resumePollFinish, linkFinish_of_inFlight hs, State.raise]

theorem resumeStep_pollFinish_of_complete (hs : s.rx.st = .complete) :
    resumeStep s = .next ((s.withRx { s.rx with st := .empty }).suspend (.pollParse s.rx.buf k len)) := by
  simp [resumeStep_of_topOp ht, resumePending, resumePollFinish, linkFinish_of_complete hs]

end

/-- Step 3 on a frame that PARSE accepts: its pair is dispatched. -/
theorem resumeStep_pollParse_dispatches {s : State} {j : Nat} {k len : Byte} (hv : s.cfg.valid = true) (hj : j < s.cfg.nRxBuf)
    (ht : s.topOp = some (.pollParse j k len)) (ho : ¬(s.rx.st = .inFlight ∧ s.rx.buf = j))
    (h0 : (Memory.read (s.rxb.getD j []) 1).toNat ≠ 0) (hl : (Memory.read (s.rxb.getD j []) 1).toNat + 2 ≤ s.cfg.rxCap) :
    resumeStep s = .next ((dispatchPair (Memory.read (s.rxb.getD j []) 0) (Memory.read (s.rxb.getD j []) 2) s).suspend
      (.pollRearm k len)) := by
  simp only [resumeStep_of_topOp ht, resumePending, resumePollParse, parseBuffer_message hv hj ho h0 hl]

/-- Step 4 is RECEIVE. -/
theorem resumeStep_pollRearm {s : State} {k len : Byte} {a : Answered} (ht : s.topOp = some (.pollRearm k len))
    (h : linkReceive k len s = a) : resumeStep s = conclude a :=
  (resumeStep_of_topOp ht).trans (congrArg conclude h)

theorem dispatchPair_cfg (t o : Byte) (s : State) : (dispatchPair t o s).cfg = s.cfg := by rw [dispatchPair_frame]

theorem dispatchPair_rx (t o : Byte) (s : State) : (dispatchPair t o s).rx = s.rx := by rw [dispatchPair_frame]

/-- DISPATCH leaves the stack of contexts and the results to the pause. -/
theorem pausesWith_dispatchPair (t o : Byte) (s : State) (p : Pending) : PausesWith s ((dispatchPair t o s).suspend p) p := by
  rw [dispatchPair_frame]
  exact pausesWith_suspend p rfl rfl rfl

/-! ## The four steps with nothing between -/

theorem Answers.put_put (a : Answers) (c : Context) (x y : Option Result) : Answers.put (Answers.put a c x) c y = Answers.put a c y := by
  cases c <;> rfl

/-- An operation that paused and ended in its next step ended for the context that began it. -/
theorem endsWith_of_pausesWith {s t u : State} {p : Pending} {r : Result} (hp : PausesWith s t p) (he : EndsWith t u r) :
    EndsWith s u r := by
  obtain ⟨-, htop, hans, htail, hnames, hmain⟩ := hp
  obtain ⟨hans', htail', hmain'⟩ := he
  have hnil : t.handlers = [] ↔ s.handlers = [] := by
    rw [← List.map_eq_nil_iff (f := Active.handler), hnames, List.map_eq_nil_iff]
  refine ⟨by rw [hans', hans, htop, Answers.put_put], htail'.trans htail, hmain'.trans ?_⟩
  by_cases hs : s.handlers = []
  · rw [if_pos (hnil.2 hs), if_pos hs]
  · rw [if_neg (mt hnil.1 hs), if_neg hs, hmain hs]

/-- The last two steps on an empty slot: the frame's pair is dispatched, then the slot is armed. -/
theorem pollParse_then_pollRearm {s : State} {j : Nat} {k len : Byte} (hv : s.cfg.valid = true) (hj : j < s.cfg.nRxBuf)
    (hk : k.toNat < s.cfg.nRxBuf) (hl : 0 < len.toNat ∧ len.toNat ≤ s.cfg.rxCap) (ht : s.topOp = some (.pollParse j k len))
    (hs : s.rx.st = .empty) (h0 : (Memory.read (s.rxb.getD j []) 1).toNat ≠ 0)
    (hfits : (Memory.read (s.rxb.getD j []) 1).toNat + 2 ≤ s.cfg.rxCap) :
    ∃ t u, resumeStep s = .next t ∧ resumeStep t = .next u ∧ t.rx.st = .empty
      ∧ DispatchesPair s t (Memory.read (s.rxb.getD j []) 0) (Memory.read (s.rxb.getD j []) 2)
      ∧ u.rx = ⟨.inFlight, k.toNat, len.toNat, 0⟩ ∧ u.log = t.log ∧ EndsWith s u .ok
      ∧ u = { s with
          ind := u.ind, rx := u.rx, log := u.log, freeTick := u.freeTick, answers := u.answers, handlers := u.handlers,
          mainOp := u.mainOp } := by
  have harm {t o} : linkReceive k len ((dispatchPair t o s).suspend (.pollRearm k len)) = _ :=
    linkReceive_arms (by simpa [dispatchPair_cfg] using hk) (by simpa [dispatchPair_cfg] using hl) (by simpa [dispatchPair_rx] using hs)
  refine ⟨_, _, resumeStep_pollParse_dispatches hv hj ht (by simp [hs]) h0 hfits,
    resumeStep_pollRearm (State.suspend_topOp _ _) harm, (congrArg RxSlot.st (dispatchPair_rx _ _ s)).trans hs,
    dispatchesPair_dispatchPair _ _ s, rfl, rfl,
    endsWith_of_pausesWith (pausesWith_dispatchPair _ _ s _) (endsWith_finish _ rfl rfl rfl), ?_⟩
  rw [dispatchPair_frame]
  rfl

/-! ## What keeps the slot for a LEDCPOLL in progress (rules R261, R330) -/

/-- Under `P_LT_EXCL` an instruction presented while a LEDCPOLL is in progress spares the transport. -/
theorem sparesTransport_of_ltExcl {s : State} {i : Instr} (hpoll : s.pendings.any Pending.isPoll = true) (hx : s.ltExcl = true)
    (hp : s.presentsNext = some i) : sparesTransport i = true := by
  obtain ⟨p, hmem, hp'⟩ := List.any_eq_true.1 hpoll
  simp only [State.ltExcl, hp, Bool.or_eq_true, List.all_eq_true] at hx
  obtain hx | hx := hx
  · exact hx
  · simpa [hp'] using hx p hmem

/-- An instruction that spares the transport neither arms the receive slot nor empties it. -/
theorem rx_kept_of_sparesTransport {i : Instr} {s s' : State} {r : Result} (hi : sparesTransport i = true) (h : Ends i s r s') :
    s'.rx = s.rx := by
  obtain hrx | ⟨⟨k, len, rfl⟩, -⟩ | ⟨rfl, -⟩ := receive_of_ends h
  · exact hrx
  · cases hi
  · cases hi

/-- Of the steps that change the receive slot, RECEIVE and FINISH are excluded, a later step is the LEDCPOLL's own, and agent `DmaRx`
stores into a slot in flight. -/
theorem rx_kept_while_polling {s t : State} (hpoll : s.pendings.any Pending.isPoll = true) (hx : s.ltExcl = true)
    (hnone : s.resumesNext = none) (hr : s.resetNext = false) (hne : s.rx.st ≠ .inFlight) (h : step s = .next t) : t.rx = s.rx := by
  obtain rfl | ⟨i, rest, hi, hnr, ht⟩ := takes_of_step hr h
  · rfl
  · cases ht with
    | ends enc ins r s' he hop hd hends =>
      subst he
      have hrx := rx_kept_of_sparesTransport (sparesTransport_of_ltExcl hpoll hx (presentsNext_of_present hi hop hd)) hends
      exact hrx
    | resumes p t he hop =>
      subst he
      have hp : s.resumesNext = some p := (resumesNext_of_resume hi).trans hop
      simp [hnone] at hp
    | stored b line _ _ hs => exact absurd hs hne
    | reset p hp => exact absurd hp (hnr p)
    | _ => rfl

/-- Settles O37: POLL, FINISH, PARSE with DISPATCH and RECEIVE, each from the state that the step before leaves; then each later step
alone; then the steps of the others. -/
theorem ledcpollFinishesDispatchesAndRearms : Obligations.LedcpollFinishesDispatchesAndRearms := by
  refine ⟨fun s k len hinv hk hpos hcap hs h0 hfits => ?_, fun s k len ht => ⟨fun hs => ?_, fun hs => ?_, fun hs => ?_⟩,
    fun s j k len hinv ht ho h0 hfits => ?_,
    fun s k len ht => ⟨fun hk => ?_, fun hk hl => ?_, fun hk hpos hcap => ⟨fun hs => ?_, fun hs => ?_⟩⟩,
    fun s t hpoll hx hnone hr hne h => ⟨rx_kept_while_polling hpoll hx hnone hr hne h, ?_⟩⟩
  · obtain ⟨-, -, -, hbuf⟩ := inv_rxComplete hinv hs
    have hv := inv_valid hinv
    have hpoll := exec_ledcpoll_of_complete hk ⟨hpos, hcap⟩ hs
    have hfinish := resumeStep_pollFinish_of_complete (State.suspend_topOp s (.pollFinish k len)) hs
    obtain ⟨t3, t4, h3, h4, hempty, hpair, hrx, hlog, hends, hframe⟩ := pollParse_then_pollRearm
      (s := ((s.suspend (.pollFinish k len)).withRx { s.rx with st := .empty }).suspend (.pollParse s.rx.buf k len))
      hv hbuf hk ⟨hpos, hcap⟩ (State.suspend_topOp _ _) rfl h0 hfits
    exact ⟨_, _, t3, t4, hpoll, hfinish, h3, h4, rfl, rfl, rfl, hempty, hpair, hrx, hlog,
      endsWith_of_pausesWith (pausesWith_suspend _ rfl rfl rfl) (endsWith_of_pausesWith (pausesWith_suspend _ rfl rfl rfl) hends),
      hframe⟩
  · exact raises_of_resumeStep (resumeStep_pollFinish_of_empty ht hs)
  · exact raises_of_resumeStep (resumeStep_pollFinish_of_inFlight ht hs)
  · exact ⟨_, resumeStep_pollFinish_of_complete ht hs, pausesWith_suspend _ rfl rfl rfl, rfl, rfl⟩
  · refine ⟨_, resumeStep_pollParse_dispatches (inv_valid hinv) (held_buffer_exists hinv ht) ht ho h0 hfits,
      pausesWith_dispatchPair _ _ _ _, dispatchesPair_dispatchPair _ _ _, ?_⟩
    rw [dispatchPair_frame]
    rfl
  · exact raises_of_resumeStep (resumeStep_pollRearm ht (linkReceive_badBuffer hk))
  · exact raises_of_resumeStep (resumeStep_pollRearm ht (linkReceive_badLength hk hl))
  · exact raises_of_resumeStep (resumeStep_pollRearm ht (linkReceive_busy hk ⟨hpos, hcap⟩ hs))
  · exact ⟨_, resumeStep_pollRearm ht (linkReceive_arms hk ⟨hpos, hcap⟩ hs), endsWith_finish _ rfl rfl rfl, rfl, rfl⟩
  · exact (rxb_of_step hr h).resolve_right fun hstored => hne hstored.2

end Sys2Proof.Machine
end

section
/-! Proofs that a fault and a WouldBlock leave the block as the rules say (rules R271, R272), and of the taking of an interrupt (rules R281
to R283). -/
namespace Sys2Proof.Machine

/-! ## How an operation leaves the stack of contexts -/

/-- An instruction that ends in its first step touched neither the stack nor the results before it was concluded. -/
theorem endsWith_of_ends {i : Instr} {s s' : State} {r : Result} (h : Ends i s r s') : EndsWith s (s'.finish r) r := by
  cases h with
  | dispatched t o => rw [dispatchPair_frame]; exact endsWith_finish _ rfl rfl rfl
  | _ => exact endsWith_finish _ rfl rfl rfl

theorem answer_of_pausesWith {s t : State} {p : Pending} (h : PausesWith s t p) : Answers.of t.answers s.top = none := by
  obtain ⟨-, -, hans, -⟩ := h
  rw [hans, Answers.of_put]

/-- A first step that answers a result ended with that result. -/
theorem ends_of_answer {i : Instr} {s t : State} {r : Result} (h : exec i s = .next t) (ha : Answers.of t.answers s.top = some r) :
    ∃ s', t = s'.finish r ∧ Ends i s r s' := by
  obtain ⟨q, rfl, -⟩ | ⟨r', s', rfl, he⟩ := exec_cases h
  · have hnone := answer_of_pausesWith (pausesWith_suspend (s := s) q rfl rfl rfl)
    rw [hnone] at ha; cases ha
  · have hr := answer_of_endsWith (endsWith_of_ends he)
    obtain rfl : r' = r := Option.some.inj (hr.symm.trans ha)
    exact ⟨s', rfl, he⟩

/-- A later step raises a fault, or ends with `Ok`, or pauses at the next mark. -/
theorem outcome_of_resumes {p : Pending} {s t : State} (h : Resumes p s t) :
    (∃ f, Raises s t f) ∨ EndsWith s t .ok ∨ ∃ q, PausesWith s t q := by
  cases h with
  | faulted f => exact .inl ⟨f, raises_raise s f⟩
  | statusWritten | flagCleared | rearmed => exact .inr (.inl (endsWith_finish _ rfl rfl rfl))
  | finished => exact .inr (.inr ⟨_, pausesWith_suspend _ rfl rfl rfl⟩)
  | dispatched j k len t o => exact .inr (.inr ⟨_, pausesWith_dispatchPair t o s _⟩)

/-- A later step that answers a result raised it as a fault or ended with `Ok`. -/
theorem answer_of_resumes {p : Pending} {s t : State} {r : Result} (h : Resumes p s t) (ha : Answers.of t.answers s.top = some r) :
    (∃ f, r = .fault f ∧ Raises s t f) ∨ r = .ok := by
  obtain ⟨f, hf⟩ | hok | ⟨q, hq⟩ := outcome_of_resumes h
  · exact .inl ⟨f, Option.some.inj (ha.symm.trans (answer_of_endsWith hf.1)), hf⟩
  · exact .inr (Option.some.inj (ha.symm.trans (answer_of_endsWith hok)))
  · rw [answer_of_pausesWith hq] at ha; cases ha

/-! ## Faults (rule R271) -/

/-- An instruction that ends with a fault raised it, and did nothing else. -/
theorem raises_of_ends {i : Instr} {s s' : State} {f : FaultRecord} (h : Ends i s (.fault f) s') :
    Raises s (s'.finish (.fault f)) f := by
  cases h with
  | faulted => exact raises_raise s f

/-- Settles O41: by what a first step that answers a fault did, and by what a later step that does. -/
theorem faultingInstructionChangesNothingElse : Obligations.FaultingInstructionChangesNothingElse := by
  refine ⟨fun i s t f h ha => ?_, fun p s t f h ha => ?_⟩
  · obtain ⟨s', rfl, he⟩ := ends_of_answer h ha
    exact raises_of_ends he
  · obtain ⟨g, hg, hr⟩ | hok := answer_of_resumes (resumePending_cases h) ha
    · cases hg; exact hr
    · cases hok

/-! ## WouldBlock (rule R272) -/

/-- Settles O42: an instruction that ends with WouldBlock is a SEND, a TOGGLE, a POLL or a TXADV that found its slot busy; a later step
raises a fault or ends with `Ok`. -/
theorem wouldBlockOnlyWhereTheRuleSays : Obligations.WouldBlockOnlyWhereTheRuleSays := by
  refine ⟨fun i s t h ha => ?_, fun p s t h ha => ?_⟩
  · obtain ⟨s', rfl, he⟩ := ends_of_answer h ha
    cases he with
    | sendBusy hi hnt hs => exact ⟨.inl ⟨hi, hs⟩, fun _ => keepsBlock_finish s _, fun ht => absurd ht hnt⟩
    | toggleBusy hi hs => subst hi; exact ⟨.inl ⟨rfl, hs⟩, fun hnt => absurd rfl hnt, fun _ => keepsBlock_finish s.flipLed _⟩
    | pollBusy hi hs =>
      exact ⟨.inr (.inl ⟨hi, hs⟩), fun _ => keepsBlock_finish s _, by rintro rfl; simp at hi⟩
    | advanceBusy hi hs => subst hi; exact ⟨.inr (.inr ⟨rfl, hs⟩), fun _ => keepsBlock_finish s _, fun ht => by cases ht⟩
  · obtain ⟨f, hf, -⟩ | hok := answer_of_resumes (resumePending_cases h) ha
    · cases hf
    · cases hok

/-! ## Which interrupt may be taken (rules R281, R283) -/

/-- The state of the slot that a handler's line reports (rules R47, R282). -/
def State.slotOf (s : State) : Handler → SlotState
  | .rxIrq => s.rx.st
  | .txIrq => s.tx.st

theorem State.lineHigh_iff {s : State} {h : Handler} : s.lineHigh h = true ↔ s.slotOf h = .complete := by
  cases h <;> exact beq_iff_eq

theorem State.outranksTop_iff {s : State} {h : Handler} :
    s.outranksTop h = true ↔ ∀ a ∈ s.handlers.head?, priorityOf s.cfg a.handler < priorityOf s.cfg h := by
  unfold State.outranksTop
  cases s.handlers <;> simp

theorem State.firstInLine_iff {s : State} {h : Handler} :
    s.firstInLine h = true ↔ ∀ x, s.slotOf x = .complete → priorityOf s.cfg x ≤ priorityOf s.cfg h := by
  have hother : s.firstInLine h = true ↔
      (s.slotOf (otherHandler h) = .complete → priorityOf s.cfg (otherHandler h) ≤ priorityOf s.cfg h) := by
    simp [State.firstInLine, ← State.lineHigh_iff, imp_iff_not_or]
  refine hother.trans ⟨fun hle x hx => ?_, fun hall => hall _⟩
  by_cases hxh : x = h
  · rw [hxh]
  · obtain rfl : x = otherHandler h := by cases x <;> cases h <;> simp_all [otherHandler]
    exact hle hx

/-- The four conditions of rules R281 and R283. -/
theorem State.canTake_iff {s : State} {h : Handler} :
    s.canTake h = true ↔ s.slotOf h = .complete ∧ (∀ a ∈ s.handlers, a.handler ≠ h)
      ∧ (∀ a ∈ s.handlers.head?, priorityOf s.cfg a.handler < priorityOf s.cfg h)
      ∧ ∀ x, s.slotOf x = .complete → priorityOf s.cfg x ≤ priorityOf s.cfg h := by
  rw [← State.lineHigh_iff, ← State.outranksTop_iff, ← State.firstInLine_iff]
  simp [State.canTake, and_assoc]

/-! ## Taking it (rule R282) -/

section
variable {s : State} {rest : List Input} (hv : s.cfg.valid = true)
include hv

/-- The handler's context is pushed and presents its operation. -/
theorem step_take {e : Entry} (hi : s.inputs = .take e :: rest) (hc : s.canTake e.handler = true) :
    step s = exec e.instr ((s.withInputs rest).pushHandler e.handler) :=
  (step_of_input hv hi).trans (takeStep_of_canTake (s := s.withInputs rest) hc)

theorem step_take_refused {e : Entry} (hi : s.inputs = .take e :: rest) (hc : ¬s.canTake e.handler = true) :
    step s = .refused (.notEnabled .interrupt) :=
  (step_of_input hv hi).trans (takeStep_of_not_canTake (s := s.withInputs rest) (Bool.eq_false_iff.2 hc))

/-- An entry without the wiring of rule R282 pushes the handler's context (log 21). -/
theorem step_takeUnwired {h : Handler} (hi : s.inputs = .takeUnwired h :: rest) (hc : s.canTake h = true) :
    step s = .next ((s.withInputs rest).pushHandler h) :=
  (step_of_input hv hi).trans (if_pos hc)

theorem step_takeUnwired_refused {h : Handler} (hi : s.inputs = .takeUnwired h :: rest) (hc : ¬s.canTake h = true) :
    step s = .refused (.notEnabled .interrupt) :=
  (step_of_input hv hi).trans (if_neg hc)

end

theorem exec_txadv_of_complete {s : State} (hs : s.tx.st = .complete) :
    exec .txadv s = .next ((s.withTx { s.tx with st := .empty }).finish .ok) :=
  congrArg conclude (linkAdvance_of_complete hs)

/-! ## The handlers of the wiring of rule R282 -/

theorem State.handlersWired_iff {s : State} :
    s.handlersWired = true ↔ ∀ a ∈ s.handlers, a.handler = .rxIrq ∧ a.op.any Pending.isPoll = true := by
  simp [State.handlersWired]

theorem handlersWired_of_nil {s : State} (h : s.handlers = []) : s.handlersWired = true := by simp [State.handlersWired, h]

theorem handlersWired_congr {s t : State} (ht : t.handlers = s.handlers) (h : s.handlersWired = true) : t.handlersWired = true := by
  simpa [State.handlersWired, ht] using h

/-- A handler that ends is popped; those below stay. -/
theorem handlersWired_of_endsWith {s t : State} {r : Result} (ht : EndsWith s t r) (h : s.handlersWired = true) :
    t.handlersWired = true := by
  obtain ⟨-, htail, -⟩ := ht
  rw [State.handlersWired_iff, htail]
  exact fun a ha => State.handlersWired_iff.1 h a (List.mem_of_mem_tail ha)

/-- A handler that pauses inside a LEDCPOLL. -/
theorem handlersWired_suspend {s : State} {p : Pending} (hp : p.isPoll = true) (h : s.handlersWired = true) :
    (s.suspend p).handlersWired = true := by
  cases hs : s.handlers with
  | nil => exact handlersWired_of_nil (State.suspend_handlers_of_nil p hs)
  | cons a l =>
    rw [State.handlersWired_iff, hs, List.forall_mem_cons] at h
    obtain ⟨⟨hrx, -⟩, hbelow⟩ := h
    rw [State.handlersWired_iff, State.suspend_handlers_of_cons p hs, List.forall_mem_cons]
    exact ⟨⟨hrx, hp⟩, hbelow⟩

/-- A handler of the wiring never stands on the stack between two operations: then only `Main` does. -/
theorem handlers_eq_nil_of_topOp {s : State} (h : s.handlersWired = true) (ht : s.topOp = none) : s.handlers = [] := by
  cases hs : s.handlers with
  | nil => rfl
  | cons a l =>
    obtain ⟨-, hop⟩ := State.handlersWired_iff.1 h a (by simp [hs])
    simp [State.topOp, hs] at ht
    simp [ht] at hop

/-- A later step pauses only inside a LEDCPOLL. -/
theorem handlersWired_of_resumes {p : Pending} {s t : State} (h : s.handlersWired = true) (hr : Resumes p s t) :
    t.handlersWired = true := by
  cases hr with
  | faulted f => exact handlersWired_of_endsWith (raises_raise s f).1 h
  | statusWritten | flagCleared | rearmed => exact handlersWired_of_endsWith (endsWith_finish .ok rfl rfl rfl) h
  | finished => exact handlersWired_suspend rfl h
  | dispatched j k len t o =>
    exact handlersWired_suspend rfl (handlersWired_congr (by rw [dispatchPair_frame]) h)

/-- Under the wiring of rule R282 only `Main` presents by the port, and a handler is entered by `RxIrq`'s LEDCPOLL, which pauses or ends, or
by `TxIrq`'s TXADV, which ends. -/
theorem handlersWired_of_takes {i : Input} {s t : State} (h : s.handlersWired = true) (hi : ∀ x, i ≠ .takeUnwired x)
    (ht : Takes i s t) : t.handlersWired = true := by
  cases ht with
  | illegal cw => exact handlersWired_of_endsWith (raises_raise s _).1 h
  | pauses _ _ q _ hop => exact handlersWired_of_nil (State.suspend_handlers_of_nil q (handlers_eq_nil_of_topOp h hop))
  | ends _ _ r s' _ _ _ he => exact handlersWired_of_endsWith (endsWith_of_ends he) h
  | resumes _ _ _ _ hr => exact handlersWired_of_resumes h hr
  | entryFaulted | txEntered | stagedByte | stagedKey | emitted | stored | dropped | arrived | usb => exact h
  | rxEntered k len =>
    exact State.handlersWired_iff.2 (List.forall_mem_cons.2 ⟨⟨rfl, rfl⟩, State.handlersWired_iff.1 h⟩)
  | pushed x hx => exact absurd hx (hi x)
  | reset => rfl

theorem handlersWired_of_step {s t : State} (h : s.handlersWired = true) (hw : s.wiredAsR282 = true) (ht : step s = .next t) :
    t.handlersWired = true := by
  obtain ⟨-, ⟨-, rfl⟩ | ⟨i, rest, hi, htakes⟩⟩ := step_cases ht
  · exact h
  · refine handlersWired_of_takes (s := s.withInputs rest) h (fun x hx => ?_) htakes
    simp [State.wiredAsR282, hi, hx] at hw

/-- Settles O44: the conditions on which an interrupt is taken, its entry by each handler and without the wiring, its refusal; then the
stack of the wiring, step after step. -/
theorem interruptIsTakenAsTheRuleSays : Obligations.InterruptIsTakenAsTheRuleSays := by
  refine ⟨fun s k len h rest hv => ⟨fun hi ha => ?_, fun hi ha => ?_, fun hi ha => ?_, ?_⟩, fun s t => handlersWired_of_step⟩
  · have hstep := step_take hv hi (State.canTake_iff.2 ha)
    refine ⟨hstep, fun hk hpos hcap => ?_⟩
    have hpoll := exec_ledcpoll_of_complete (s := (s.withInputs rest).pushHandler .rxIrq) hk ⟨hpos, hcap⟩ ha.1
    exact ⟨_, hstep.trans hpoll, rfl⟩
  · have hstep := step_take hv hi (State.canTake_iff.2 ha)
    have hadv := exec_txadv_of_complete (s := (s.withInputs rest).pushHandler .txIrq) ha.1
    exact ⟨hstep, _, hstep.trans hadv, rfl, rfl, rfl⟩
  · exact ⟨_, step_takeUnwired hv hi (State.canTake_iff.2 ha), rfl⟩
  · rintro (⟨hi, hn⟩ | ⟨hi, hn⟩ | ⟨hi, hn⟩)
    · exact step_take_refused hv hi (mt State.canTake_iff.1 hn)
    · exact step_take_refused hv hi (mt State.canTake_iff.1 hn)
    · exact step_takeUnwired_refused hv hi (mt State.canTake_iff.1 hn)

end Sys2Proof.Machine
end

section
/-! Proofs of the hazards of the programs that use the block: a write value of the Endpoint Status Controller presented again, and an
operation repeated (rules R66, R321). -/
namespace Sys2Proof.Machine

section
variable {c : Config} (h : c.masksOk = true)
include h

/-- A register's bits under a status mask are determined by the code they hold. -/
theorem and_statMask_of_statusOf_eq {x y : Reg} {dir : Dir} (hs : statusOf c x dir = statusOf c y dir) :
    x &&& statMask c dir = y &&& statMask c dir := by
  apply BitVec.eq_of_getLsbD_eq; intro i _
  rw [BitVec.getLsbD_and, BitVec.getLsbD_and]
  cases hm : (statMask c dir).getLsbD i with
  | false => simp
  | true =>
    rw [statMask_bit h, Bool.and_eq_true, decide_eq_true_eq, decide_eq_true_eq] at hm
    obtain ⟨j, rfl⟩ := Nat.exists_eq_add_of_le hm.1
    have hj : j < 2 := by omega
    rw [← statusOf_bit h x dir hj, ← statusOf_bit h y dir hj, hs]

/-- The operation on a field that holds the target already, with `d = None`, leaves the whole register: it writes 0 into the field. -/
theorem hwWrite_statusWrite_keep_of_statusOf_eq {r : Reg} {dir : Dir} {target : StatusCode} (hr : statusOf c r dir = target) :
    hwWrite c r (statusWrite c r dir target .keep) = r := by
  have hstat : ∀ x, statusOf c (hwWrite c r (statusWrite c r dir target .keep)) x = statusOf c r x := by
    intro x
    obtain rfl | rfl := eq_or_eq_otherDir x dir
    · rw [statusOf_hwWrite_statusWrite h, BitVec.xor_self, BitVec.zero_xor, hr]
    · exact statusOf_hwWrite_statusWrite_other h r r dir target .keep
  have hdtog : ∀ x, statusWrite c r dir target .keep &&& dtogMask c x = 0 := by
    intro x
    obtain rfl | rfl := eq_or_eq_otherDir x dir
    · exact statusWrite_keep_and_dtog h r x target
    · exact statusWrite_and_dtog_other h r dir target .keep
  exact eq_of_and_masks h (fun x => and_statMask_of_statusOf_eq h (hstat x)) (fun x => hwWrite_and_dtog_zero h _ _ _ (hdtog x))
    (hwWrite_statusWrite_and_ctr h r r dir target .keep) (hwWrite_statusWrite_and_rw h rfl dir target .keep) (hwWrite_and_ro h r _)

end

/-- Settles O12: the replayed value flips the field by the old difference again; the repeated operation finds its target. -/
theorem replayUndoesAndRepeatIsSafe : Obligations.ReplayUndoesAndRepeatIsSafe := by
  intro c r dir target d hv w n
  have h := masksOk_of_valid hv
  obtain ⟨hn, -⟩ := statusWriteLaws c r dir target d hv
  refine ⟨?_, hwWrite_statusWrite_keep_of_statusOf_eq h hn⟩
  calc statusOf c (hwWrite c n w) dir
      = statusOf c n dir ^^^ statusOf c r dir ^^^ target := statusOf_hwWrite_statusWrite h n r dir target d
    _ = target ^^^ statusOf c r dir ^^^ target := by rw [hn]
    _ = statusOf c r dir := by rw [BitVec.xor_comm target, BitVec.xor_assoc, BitVec.xor_self, BitVec.xor_zero]

end Sys2Proof.Machine
end
